-- ==== Sys2Proof/Word.lean ====
section
/-! DEFINITION. The word type of the Huffman CORE: a symbol is one byte (00_scope.md R8).
Bits of the stream are `Bool`; counters and indexes are naturals (45_encoder_decoder.md R226, log entry 7). -/

namespace Sys2Proof

/-- One byte value, "domain 0–255" (00_scope.md R8); also a symbol. -/
abbrev Byte := BitVec 8

end Sys2Proof
end

