-- ==== Sys2Proof/Machine/Bits.lean ====
section
/-! DEFINITION. Bit order and byte order, decided once: least significant bit first (20_memory.md R60 to R63). -/

namespace Sys2Proof

/-- The low `w` bits of `n`, bit 0 first (20_memory.md R60). -/
def bitsOfNat : Nat → Nat → List Bool
  | 0, _ => []
  | w + 1, n => decide (n % 2 = 1) :: bitsOfNat w (n / 2)

/-- The number whose bit i is the i-th of the list: Σ bit(i) · 2^i (20_memory.md R61). -/
def natOfBits : List Bool → Nat
  | [] => 0
  | b :: bs => b.toNat + 2 * natOfBits bs

/-- The eight bits of a byte in stream order, `v[0]` first (20_memory.md R62). -/
def byteBits (v : Byte) : List Bool := bitsOfNat 8 v.toNat

/-- The byte whose bits, bit 0 first, are the list's (20_memory.md R61). -/
def byteOfBits (bs : List Bool) : Byte := BitVec.ofNat 8 (natOfBits bs)

/-- The 32 bits of the length in stream order, `L[0]` first (30_encoding.md R99). -/
def wordBits (l : BitVec 32) : List Bool := bitsOfNat 32 l.toNat

/-- The bits of a sequence of bytes in stream order (20_memory.md R60). -/
def bytesBits : List Byte → List Bool
  | [] => []
  | v :: vs => byteBits v ++ bytesBits vs

/-- The full bytes of a bit sequence, in order; bits past the last full byte are in none of them
(40_bitchannel.md R120, R128: "full bytes only"). -/
def fullBytes : List Bool → List Byte
  | b0 :: b1 :: b2 :: b3 :: b4 :: b5 :: b6 :: b7 :: rest =>
    byteOfBits [b0, b1, b2, b3, b4, b5, b6, b7] :: fullBytes rest
  | _ => []

/-- Byte `k` of the length, `L[8k+7 : 8k]` (20_memory.md R63). -/
def lenByte (l : BitVec 32) (k : Nat) : Byte := BitVec.ofNat 8 (l.toNat / 2 ^ (8 * k))

/-- `L` = b0 + 2^8·b1 + 2^16·b2 + 2^24·b3 (30_encoding.md R107). -/
def lenOfBytes (b0 b1 b2 b3 : Byte) : BitVec 32 :=
  BitVec.ofNat 32 (b0.toNat + 2 ^ 8 * b1.toNat + 2 ^ 16 * b2.toNat + 2 ^ 24 * b3.toNat)

/-- The number of padding bits after `t` bits, (8 − (t mod 8)) mod 8 (40_bitchannel.md R133). -/
def padCount (t : Nat) : Nat := (8 - t % 8) % 8

end Sys2Proof
end

