-- ==== Sys2Proof/Config.lean ====
section
/-! DEFINITION. The parameters of the hardware (00_scope.md section 4): what is fixed when the core is built. -/

namespace Sys2Proof.Config

/-- `SYM_W`: bits in a symbol (00_scope.md R8). -/
def symW : Nat := 8
/-- `NSYM`: size of the alphabet (00_scope.md R8). -/
def nsym : Nat := 256
/-- `C`: capacity of a bit accumulator in bits (00_scope.md R9; log entry 12). -/
def accCap : Nat := 64
/-- `LEN_W`: width of the length field (00_scope.md R10). -/
def lenW : Nat := 32
/-- `CNT_W`: width of an occurrence count and of a node weight (00_scope.md R11). -/
def cntW : Nat := 32
/-- `NODE_CAP`: nodes the node store holds (00_scope.md R12). -/
def nodeCap : Nat := 511
/-- `HEAP_CAP`: entries the heap holds (00_scope.md R12). -/
def heapCap : Nat := 256
/-- `CODELEN_MAX`: longest code in bits (00_scope.md R13). -/
def codeLenMax : Nat := 255
/-- `BW_W`: width of the bytes-written result (00_scope.md R15). -/
def bwW : Nat := 64

/-- What TB.MERGE makes of two weights whose sum does not fit `CNT_W` bits: a free value, of which nothing is known
(DESIGN CHOICE: log entry 33). The sequencer never adds such weights (42_treebuilder.md R171). -/
opaque weightOverflow : Nat → Nat → BitVec cntW

/-- The two values of `TIEBREAK` (00_scope.md R14). -/
inductive Tiebreak where
  /-- the deterministic heap of 42_treebuilder.md R163 to R168 -/
  | reference
  /-- the relation of 42_treebuilder.md R170 (Machine/TieBreak.lean) -/
  | any
  deriving DecidableEq, Repr

/-- `TIEBREAK`: "This hardware is `reference`" (00_scope.md R14; log entry 11). -/
def tiebreak : Tiebreak := .reference

/-- The bytes one refill asks for, C/8 (40_bitchannel.md R137). -/
def refillBytes : Nat := accCap / 8

end Sys2Proof.Config
end

