-- ==== Sys2Proof/Syntax.lean ====
section
/-! DEFINITION. Instructions as syntax: one constructor per row of spec/opcode_table.json, the three formats of
30_encoding.md, and the encoded word the decoder reads. -/

namespace Sys2Proof

/-- The two accumulators (40_bitchannel.md R120). -/
inductive Acc where
  /-- `WACC`, inside the writer -/
  | writer
  /-- `RACC`, inside the reader -/
  | reader
  deriving DecidableEq, Repr

/-- The rows of spec/opcode_table.json: four command codes (R90, R96), 24 unit operations (R92), five tokens
of the container (R99 to R106). -/
inductive Instr where
  -- format CMD
  | nop
  | compress
  | decompress
  | reservedCmd3
  -- format UOP: the accumulator
  | accClear (a : Acc)
  | accIsFull (a : Acc)
  | accPushBit (a : Acc) (b : Bool)
  | accBitAt (a : Acc) (i : Nat)
  -- the writer
  | wrFlush
  | wrWriteBits (seq : List Bool)
  | wrWriteByte (v : Byte)
  | wrFinish
  -- the reader
  | rdRefill
  | rdPopBit
  | rdPopByte
  -- the frequency pass
  | freqScan
  -- the tree builder
  | heapInsert (x : Nat)
  | heapExtractMin
  | tbLeaves
  | tbMerge
  | tbBuild
  -- the tree codec, the code table
  | tcSerialize
  | tcDeserialize
  | ctDerive
  -- encoder and decoder
  | encLen
  | encBody
  | decLen
  | decWalk
  -- format TOKEN
  | len (l : BitVec 32)
  | internal
  | leaf (sym : Byte)
  | code (path : List Bool)
  | pad (z : Nat)
  deriving DecidableEq, Repr

/-- The encodings of 30_encoding.md. The token format has four kinds; which kind stands at a place of the stream
is told by the place, not by the bits (R98), so an encoded token says its kind. -/
inductive Format where
  /-- the command code written to `CMD` (R90) -/
  | cmd
  /-- the operation id, then the operands (R92; the operands' layout is log entry 2) -/
  | uop
  /-- the token `LEN` (R99) -/
  | lenTok
  /-- a node token, `INTERNAL` or `LEAF`, told apart by the flag bit (R100 to R102) -/
  | nodeTok
  /-- the token `CODE` (R105) -/
  | codeTok
  /-- the token `PAD` (R106) -/
  | padTok
  deriving DecidableEq, Repr

/-- An encoded instruction: its format and its bits, bit 0 first (stream order for a token, 00_scope.md R16). -/
structure Enc where
  fmt  : Format
  bits : List Bool
  deriving DecidableEq, Repr

/-- Why the decoder refuses a word. -/
inductive DecodeError where
  /-- a command code is exactly two bits (R90) -/
  | cmdNotTwoBits
  /-- an operation id is six bits (R92) -/
  | opidTooShort
  /-- an `OPID` "not in the table" names nothing (R92; 93_implementation_defined.md U12) -/
  | noSuchOpid (opid : Nat)
  /-- the operand bits of this `OPID` are not of the operation's length -/
  | badOperands (opid : Nat)
  /-- the operand of HEAP.INSERT is not an index of the node store (R165, 10_state.md R49) -/
  | noSuchNode (x : Nat)
  /-- the token `LEN` is 32 bits (R99) -/
  | lenNot32Bits
  /-- a node token is `0`, or `1` and eight bits (R101, R102) -/
  | badNodeToken
  /-- a code is at most 255 bits (R105) -/
  | codeTooLong
  /-- `PAD` is 0 to 7 bits, every one 0 (R106) -/
  | badPad
  deriving DecidableEq, Repr

end Sys2Proof
end

