-- ==== Sys2Proof/Machine/State.lean ====
section
/-! DEFINITION. The state of the Huffman CORE (10_state.md) as plain data, the reasons a step can stop, and the
state after reset (70_reset_and_hazards.md R265, R267). "Holds no value" (10_state.md R54) is an absent entry or
`none`, which is the spec's own state and not a missing reset value (log entry 5). -/

namespace Sys2Proof.Machine

/-- The values of `PHASE` (10_state.md R40); the codes 12 and 13 "are never entered" and have no constructor. -/
inductive Phase where
  | idle | cFreq | cLen | cLeaves | cMerge | cSer | cCodes | cBody | cFin
  | dLen | dTree | dWalk | done | error
  deriving DecidableEq, Repr

/-- The errors of the core (60_exceptions.md R235, R236, R242). -/
inductive Err where
  /-- raised by `MemRead`, `MemWrite`, `SrcRewind` when the host fails them (R237) -/
  | ioError
  /-- raised by `RD.REFILL` when a bit is wanted and SRC has no byte left (R239) -/
  | endOfInput
  /-- raised by `ACC.PUSHBIT` on a full accumulator (R240) -/
  | capacityExceeded
  /-- raised by `ACC.BITAT` at or past the bits held (R241) -/
  | outOfRange
  /-- raised by `TC.DESERIALIZE` when a 512th node would be needed (R242) -/
  | nodeStoreOverflow
  deriving DecidableEq, Repr

/-- An entry of NODE (10_state.md R49): "polymorphic over variants {Leaf(symbol, weight), Internal(weight, left,
right)}". A child not yet attached holds no value (43_treecodec.md R188). -/
inductive Node where
  /-- allocated, holding no value yet: a leaf whose symbol is still being read (95_test_vectors.md T78) -/
  | fresh
  | leaf (sym : Byte) (weight : Nat)
  | internal (weight : Nat) (left right : Option Nat)
  deriving DecidableEq, Repr

/-- An entry of STK, in the form of the traversal that runs (10_state.md R31). -/
inductive StkEntry where
  /-- TC.SERIALIZE: a node to visit (43_treecodec.md R182) -/
  | visit (x : Nat)
  /-- TC.DESERIALIZE: an internal node and whether its left child is attached (43_treecodec.md R188) -/
  | build (x : Nat) (leftDone : Bool)
  /-- CT.DERIVE: a node and the path to it from the root (44_codetable.md R197) -/
  | path (x : Nat) (p : List Bool)
  deriving DecidableEq, Repr

/-- The host's answer to one `MemRead`, `MemWrite` or `SrcRewind`: an input of the model (60_exceptions.md R237,
92_eei_decisions.md D29; log entry 8). -/
inductive HostDraw where
  /-- the transfer is served -/
  | serves
  /-- the host fails it; `residue` is what SINK holds of a failed `MemWrite` beyond the bytes of earlier
  successful writes: any bytes (20_memory.md R70, 93_implementation_defined.md U8; log entry 9) -/
  | fails (residue : List Byte)
  deriving DecidableEq, Repr

/-- The host's three registers, numbers 0, 1 and 2 (10_state.md R44 to R46). -/
inductive HostReg where
  | cmd | status | result
  deriving DecidableEq, Repr

/-- One line of a scenario (30_encoding.md R115): what happens at one step besides the core's own work. -/
inductive Line where
  /-- the host does nothing; the core goes on -/
  | quiet
  /-- the host writes a register; a write to `CMD` takes bits 1:0 of the value -/
  | write (r : HostReg) (v : BitVec 64)
  /-- the host reads a register -/
  | read (r : HostReg)
  /-- the host binds SRC and SINK (70_reset_and_hazards.md R270) -/
  | bind (src sink : List Byte)
  /-- a hardware reset (R265, R268) -/
  | reset
  /-- one operation, given by its encoded word, is started (DESIGN CHOICE: log entry 3) -/
  | issue (w : Enc)
  deriving DecidableEq, Repr

/-- What the last operation with a result returned, R115's "-> result" (the model's own field: log entry 18). -/
inductive Ret where
  | nothing
  | bit (b : Bool)
  | byte (v : Byte)
  | node (x : Nat)
  | count (n : Nat)
  | word (v : BitVec 64)
  deriving DecidableEq, Repr

/-- Everything the spec gives the machine (10_state.md section 1), and the model's own last three fields. -/
structure State where
  /-- `PHASE` (R40) -/
  phase : Phase
  /-- `STATUS.err` (R45), `none` is code 0 -/
  err : Option Err
  /-- `RESULT` (R46) -/
  result : Nat
  /-- `L` (R21) -/
  l : BitVec 32
  /-- `TOTAL` (R22) -/
  total : Nat
  /-- `N` (R23) -/
  n : Nat
  /-- `ROOT` (R25) -/
  root : Option Nat
  /-- `CUR` (R26) -/
  cur : Option Nat
  /-- `OUTCNT` (R27) -/
  outcnt : Nat
  /-- `SRC_POS` (R29) -/
  srcPos : Nat
  /-- `WR_TOTAL` (R30) -/
  wrTotal : Nat
  /-- `STK` (R31), the top first; `SP` is its length -/
  stk : List StkEntry
  /-- `FREQ` (R48): no entry holds a value, or 256 entries do -/
  freq : List Nat
  /-- `NODE[0 .. NN−1]` (R49); `NN` (R24) is its length -/
  node : List Node
  /-- `HEAP[0 .. HN−1]` (R50); `HN` (R28) is its length -/
  heap : List Nat
  /-- `CODE` (R51): `some p` is valid = 1, len the length of p, path = p; `none` is valid = 0 -/
  code : List (Option (List Bool))
  /-- `WACC` (R52): the bits held, in push order; `WACC.held` is its length -/
  wacc : List Bool
  /-- `RACC` (R53), likewise -/
  racc : List Bool
  /-- `RD_CURSOR` (R53) -/
  rdCursor : Nat
  /-- SRC (R55), the bound byte source; address a is index a -/
  src : List Byte
  /-- SINK (R56), the bound byte sink; address a is index a -/
  sink : List Byte
  /-- the scenario's lines still to come (model's own) -/
  script : List Line
  /-- the host's answers to the next primitives; when none is left, the transfer is served (model's own) -/
  draws : List HostDraw
  /-- the last result (model's own) -/
  ret : Ret
  deriving DecidableEq, Repr

/-- What of the state was read although it holds no value. -/
inductive NoValue where
  | freqEntry | codeEntry | nodeField | childIndex | currentNode
  deriving DecidableEq, Repr

/-- Stops of the model itself; "both err toward unprovable" (60_exceptions.md R250), so each is safe. -/
inductive Fault where
  /-- a read of state that "holds no value" (10_state.md R54, 93_implementation_defined.md U13); raised by every
  operation that reads FREQ, CODE, NODE or CUR; safe -/
  | noValue (what : NoValue)
  /-- an index outside NODE (20_memory.md R84); raised by HEAP.INSERT with x ≥ `NN` and by an allocation beyond
  `NODE_CAP` on the encode side; safe -/
  | nodeIndex
  /-- an index outside HEAP (20_memory.md R84); raised by HEAP.INSERT on a heap of 256 entries; safe -/
  | heapIndex
  /-- the stack holds an entry of another traversal; raised by TC.SERIALIZE, TC.DESERIALIZE and CT.DERIVE, which
  clear the stack first, and by a node token issued on its own; safe -/
  | foreignStackEntry
  deriving DecidableEq, Repr

/-- What the model does not accept; each is a `refuse` of 93_implementation_defined.md or an encoding that names
nothing. Each is safe. -/
inductive Refusal where
  /-- the instruction has no meaning in the model yet; raised by exec's arms only; safe -/
  | notModelled (mnemonic : String)
  /-- COMPRESS or FREQ.SCAN of more than 2^32 − 1 bytes (U4); safe -/
  | inputTooLong
  /-- ENC.BODY met the end of SRC or a symbol without a code (U5, 45_encoder_decoder.md R208); safe -/
  | sourceChanged
  /-- TC.SERIALIZE, CT.DERIVE or DEC.WALK without a tree (U6, U15); safe -/
  | noTree
  /-- HEAP.EXTRACTMIN with `HN` = 0, TB.MERGE with `HN` < 2 (U15), or a token where the container has none (R98);
  safe -/
  | outOfOrder
  /-- NODE under ROOT is no tree (10_state.md R49): a traversal would not end; safe -/
  | notATree
  /-- the bound of a loop was passed (45_encoder_decoder.md R221); proved unreachable; safe -/
  | loopBound
  /-- the token read from SRC is not the token issued (30_encoding.md R98); safe -/
  | tokenMismatch
  /-- SRC or SINK bound during a command (U11); raised by the scenario's bind line; safe -/
  | bindWhileBusy
  /-- a word that names nothing (U12, R92); raised by the fetch; safe -/
  | undefinedEncoding (e : DecodeError)
  deriving DecidableEq, Repr

/-- The state after reset (70_reset_and_hazards.md R265, R267): the core waits for a command. An empty SRC and an
empty SINK are bound and nothing is scripted (DESIGN CHOICE, unsafe: log entries 1, 8, 13, 18). -/
def State.reset : State where
  phase := .idle
  err := none
  result := 0
  l := 0#32
  total := 0
  n := 0
  root := none
  cur := none
  outcnt := 0
  srcPos := 0
  wrTotal := 0
  stk := []
  freq := []
  node := []
  heap := []
  code := []
  wacc := []
  racc := []
  rdCursor := 0
  src := []
  sink := []
  script := []
  draws := []
  ret := .nothing

end Sys2Proof.Machine
end

