-- ==== Sys2Proof/Machine/Ops.lean ====
section
/-! DEFINITION. The operations everything else is built from: the outcome of an operation inside the core, the
primitives on SRC and SINK (00_scope.md R17), the abort (60_exceptions.md R243), the command start
(70_reset_and_hazards.md R266) and the host's registers (10_state.md R44 to R46). -/

namespace Sys2Proof.Machine

/-! ### Outcomes inside the core -/

/-- How an operation ends: with a value, with `raise E` at a state that holds every effect before the raise
(60_exceptions.md R243), or with a stop of the model. -/
inductive Res (α : Type) where
  | ok (a : α) (s : State)
  | raise (e : Err) (s : State)
  | fault (f : Fault)
  | refused (r : Refusal)

/-- Statement after statement; a raise "ends the operation and every operation that called it" (00_scope.md
section 6). -/
def Res.bind {α β : Type} (x : Res α) (k : α → State → Res β) : Res β :=
  match x with
  | .ok a s => k a s
  | .raise e s => .raise e s
  | .fault f => .fault f
  | .refused r => .refused r

/-! ### Reset, command start, abort -/

/-- Hardware reset at any moment: the core's own state takes its reset values; SRC, SINK and what the host will do
stay (70_reset_and_hazards.md R265, R268; log entry 10). -/
def hardReset (s : State) : State :=
  { State.reset with src := s.src, sink := s.sink, script := s.script, draws := s.draws }

/-- The column "command start" of 70_reset_and_hazards.md R267, with `PHASE` at the command's first phase. -/
def commandStart (p : Phase) (s : State) : State :=
  { hardReset s with
    phase := p
    freq := List.replicate Config.nsym 0
    code := List.replicate Config.nsym none }

/-- The abort, this core's taking of an exception: `STATUS.err` <- c, `RESULT` <- `WR_TOTAL`, `PHASE` <- `ERROR`,
"Nothing else changes" (60_exceptions.md R243). There is no return from it (R249). -/
def abort (e : Err) (s : State) : State :=
  { s with err := some e, result := s.wrTotal, phase := .error }

/-- The normal end of a command: `RESULT` <- `WR_TOTAL`, `PHASE` <- `DONE` (45_encoder_decoder.md R205, R217). -/
def complete (s : State) : State :=
  { s with result := s.wrTotal, phase := .done }

/-- An operation's end as a step of the machine; a raised error aborts (60_exceptions.md R243). -/
def Res.outcome {α : Type} (x : Res α) : Host.Outcome State Fault Refusal :=
  match x with
  | .ok _ s => .next s
  | .raise e s => .next (abort e s)
  | .fault f => .fault f
  | .refused r => .refused r

/-- The same for an operation with a result, which goes to `ret` (log entry 18). -/
def Res.outcomeRet {α : Type} (f : α → Ret) (x : Res α) : Host.Outcome State Fault Refusal :=
  (x.bind fun a s => .ok () { s with ret := f a }).outcome

/-! ### The primitives -/

/-- Whether the host fails the next transfer, and with what residue (60_exceptions.md R237). -/
def hostFails (s : State) : Option (List Byte) :=
  match s.draws with
  | .fails residue :: _ => some residue
  | _ => none

/-- The host has answered one transfer. -/
def answered (s : State) : State := { s with draws := s.draws.tail }

/-- The bytes of `MemRead(addr, n)`: `SRC[addr .. addr+m−1]`, m = min(n, SRC_LEN − addr) (00_scope.md R17). -/
def srcBytes (addr n : Nat) (s : State) : List Byte := (s.src.drop addr).take n

/-- `MemRead(addr, n)` (00_scope.md R17). -/
def memRead (addr n : Nat) (s : State) : Res (List Byte) :=
  match hostFails s with
  | some _ => .raise .ioError (answered s)
  | none => .ok (srcBytes addr n s) (answered s)

/-- `SrcRead(n)` (00_scope.md R17): reads "up to" n bytes at `SRC_POS` and advances it. -/
def srcRead (n : Nat) (s : State) : Res (List Byte) :=
  (memRead s.srcPos n s).bind fun d s => .ok d { s with srcPos := s.srcPos + d.length }

/-- `SrcRewind()` (00_scope.md R17). -/
def srcRewind (s : State) : Res Unit :=
  match hostFails s with
  | some _ => .raise .ioError (answered s)
  | none => .ok () { answered s with srcPos := 0 }

/-- `SrcLength()`, the document's `length(ByteSource)`; no operation calls it (00_scope.md R17). -/
def srcLength (s : State) : Nat := s.src.length

/-- `SinkWrite(v)` (00_scope.md R17): `MemWrite` at the current end of SINK, its only address (20_memory.md R83). -/
def sinkWrite (v : List Byte) (s : State) : Res Unit :=
  match hostFails s with
  | some residue => .raise .ioError { answered s with sink := s.sink ++ residue }
  | none => .ok () { answered s with sink := s.sink ++ v }

/-- One byte of SRC; an address at or past `SRC_LEN` holds none (10_state.md R55). -/
def srcByte (a : Nat) (s : State) : Option Byte := s.src[a]?

/-- One byte of SINK; an address at or past `SNK_LEN` holds none (10_state.md R56). -/
def sinkByte (a : Nat) (s : State) : Option Byte := s.sink[a]?

/-! ### The host's registers -/

/-- The code of `PHASE` (10_state.md R40). -/
def Phase.code : Phase → Nat
  | .idle => 0
  | .cFreq => 1
  | .cLen => 2
  | .cLeaves => 3
  | .cMerge => 4
  | .cSer => 5
  | .cCodes => 6
  | .cBody => 7
  | .cFin => 8
  | .dLen => 9
  | .dTree => 10
  | .dWalk => 11
  | .done => 14
  | .error => 15

/-- Busy is `PHASE` 1 to 11 (10_state.md R44, R45). -/
def busy (s : State) : Bool := decide (1 ≤ s.phase.code ∧ s.phase.code ≤ 11)

/-- The error codes (60_exceptions.md R236). -/
def errCode : Option Err → Nat
  | none => 0
  | some .ioError => 1
  | some .endOfInput => 2
  | some .capacityExceeded => 3
  | some .outOfRange => 4
  | some .nodeStoreOverflow => 5

/-- `STATUS.state`: 0 idle, 1 busy, 2 done, 3 error (10_state.md R45). -/
def statusState (s : State) : Nat :=
  match s.phase with
  | .idle => 0
  | .done => 2
  | .error => 3
  | .cFreq | .cLen | .cLeaves | .cMerge | .cSer | .cCodes | .cBody | .cFin | .dLen | .dTree | .dWalk => 1

/-- `STATUS`, 5 bits: `state` in bits 1:0, `err` in bits 4:2 (10_state.md R45). -/
def statusReg (s : State) : BitVec 5 := BitVec.ofNat 5 (statusState s + 4 * errCode s.err)

/-- A host read: `CMD` returns 0 (R44), `STATUS` and `RESULT` their contents (R45, R46). -/
def readReg (r : HostReg) (s : State) : BitVec 64 :=
  match r with
  | .cmd => 0
  | .status => (statusReg s).setWidth 64
  | .result => BitVec.ofNat 64 s.result

/-- The registers' numbers (10_state.md R44 to R46). -/
def HostReg.number : HostReg → Nat
  | .cmd => 0
  | .status => 1
  | .result => 2

/-! ### SRC and SINK as cells -/

/-- A byte space as (address, byte) pairs. -/
def spaceCells (bytes : List Byte) : List Host.Cell :=
  bytes.zipIdx.map fun p => (p.2, p.1)

/-- The canonical form of a list of cells: addresses strictly rising. An unlisted address holds no byte, so no
entry can equal what an unlisted address reads as. -/
abbrev Memory.wf (m : List Host.Cell) : Prop := m.Pairwise fun a b => a.1 < b.1

end Sys2Proof.Machine
end

