-- ==== Sys2Proof/Machine/Operands.lean ====
section
/-! DEFINITION. The operand forms of the operations: an accumulator, a table entry, a node's fields. A read of what
holds no value is a fault of the model (10_state.md R54, 20_memory.md R84). -/

namespace Sys2Proof.Machine

/-- The bits an accumulator holds, in push order (40_bitchannel.md R120). -/
def acc (a : Acc) (s : State) : List Bool :=
  match a with
  | .writer => s.wacc
  | .reader => s.racc

/-- The accumulator `a` now holds `bits`. -/
def setAcc (a : Acc) (bits : List Bool) (s : State) : State :=
  match a with
  | .writer => { s with wacc := bits }
  | .reader => { s with racc := bits }

/-- `FREQ[x]` (10_state.md R48). -/
def freqAt (x : Nat) (s : State) : Res Nat :=
  match s.freq[x]? with
  | some c => .ok c s
  | none => .fault (.noValue .freqEntry)

/-- `NODE[x].weight`, where the entry holds one (10_state.md R49). -/
def Node.weight? : Node → Option Nat
  | .fresh => none
  | .leaf _ w => some w
  | .internal w _ _ => some w

/-- w(x), the weight of entry `x` of a node store (42_treebuilder.md section 2). -/
def weight? (nodes : List Node) (x : Nat) : Option Nat :=
  match nodes[x]? with
  | some d => d.weight?
  | none => none

/-- w(x) of the machine's store; no value is a fault. -/
def weightAt (x : Nat) (s : State) : Res Nat :=
  match weight? s.node x with
  | some w => .ok w s
  | none => .fault (.noValue .nodeField)

/-- `less(x, y)` = (w(x) < w(y)), by weight alone and strictly (42_treebuilder.md R164). -/
def less (nodes : List Node) (x y : Nat) : Option Bool :=
  match weight? nodes x, weight? nodes y with
  | some a, some b => some (decide (a < b))
  | _, _ => none

/-- Takes the next entry of NODE: its index is `NN`, which advances (10_state.md R24). The 512th has no place in
the store (20_memory.md R84). -/
def allocNode (d : Node) (s : State) : Res Nat :=
  if s.node.length < Config.nodeCap then .ok s.node.length { s with node := s.node ++ [d] }
  else .fault .nodeIndex

end Sys2Proof.Machine
end

