-- ==== Sys2Proof/Machine/Flags.lean ====
section
/-! DEFINITION. The conditions the operations test (10_state.md R43): the core has no flag register, each is a
function of other state. -/

namespace Sys2Proof.Machine

/-- `isFull`: `held` = C (10_state.md R43, 40_bitchannel.md R122). -/
def isFull (a : Acc) (s : State) : Bool := decide ((acc a s).length = Config.accCap)

/-- reader empty: `RD_CURSOR` = `RACC.held`. -/
def readerEmpty (s : State) : Bool := decide (s.rdCursor = s.racc.length)

/-- leaf tag: `NODE[i].leaf`, where the entry holds one. -/
def leafTag (x : Nat) (s : State) : Option Bool :=
  match s.node[x]? with
  | some (.leaf _ _) => some true
  | some (.internal _ _ _) => some false
  | some .fresh => none
  | none => none

/-- code valid: `CODE[x].valid`, where the table holds it. -/
def codeValid (x : Nat) (s : State) : Option Bool := (s.code[x]?).map Option.isSome

/-- heap has one: `HN` = 1. -/
def heapHasOne (s : State) : Bool := decide (s.heap.length = 1)

/-- length zero: `L` = 0. -/
def lengthZero (s : State) : Bool := decide (s.l = 0#32)

/-- all done: `OUTCNT` = `L`; the loops run while `OUTCNT` < `L` (45_encoder_decoder.md R205, R217). -/
def allDone (s : State) : Bool := decide (s.l.toNat ≤ s.outcnt)

end Sys2Proof.Machine
end

