-- ==== Sys2Proof/Machine/CodeTable.lean ====
section
/-! DEFINITION. The code-table generator (44_codetable.md), with the explicit stack of R197. -/

namespace Sys2Proof.Machine

/-- The loop of 44_codetable.md R197, at most `fuel` pops; a tree is walked in as many pops as it has nodes. -/
def ctLoop : Nat → State → Res Unit
  | 0, s =>
    match s.stk with
    | [] => .ok () s
    | _ :: _ => .refused .notATree
  | fuel + 1, s =>
    match s.stk with
    | [] => .ok () s
    | .path x p :: st =>
      match s.node[x]? with
      | some (.leaf v _) => ctLoop fuel { s with stk := st, code := s.code.set v.toNat (some p) }
      | some (.internal _ (some l) (some r)) =>
        ctLoop fuel { s with stk := .path l (p ++ [false]) :: .path r (p ++ [true]) :: st }
      | some (.internal _ _ _) => .fault (.noValue .childIndex)
      | some .fresh => .fault (.noValue .nodeField)
      | none => .fault (.noValue .nodeField)
    | .visit _ :: _ => .fault .foreignStackEntry
    | .build _ _ :: _ => .fault .foreignStackEntry

/-- `CT.DERIVE` (44_codetable.md R196, R197); "a tree exists" is its precondition (93 U6). -/
def derive (s : State) : Res Unit :=
  match s.root with
  | none => .refused .noTree
  | some r =>
    ctLoop s.node.length { s with stk := [.path r []], code := List.replicate Config.nsym none }

/-- `CT.DERIVE` (44_codetable.md R196). -/
def execCtDerive (s : State) : Host.Outcome State Fault Refusal := (derive s).outcome

end Sys2Proof.Machine
end

