-- ==== Sys2Proof/Machine/Commands.lean ====
section
/-! DEFINITION. The command codes of `CMD` (30_encoding.md R90, R96): what writing one does at once. The rest of a
command is run by the sequencer, phase by phase (Machine/Sequencer.lean; 00_scope.md R19, log entry 10). -/

namespace Sys2Proof.Machine

/-- `NOP`: "no effect" (30_encoding.md R90). -/
def execNop (s : State) : Host.Outcome State Fault Refusal := .next s

/-- `COMPRESS` is accepted when the core is not busy and ignored when it is (10_state.md R44); an accepted command
sets the command-start values and `PHASE` 1. An input of more than 2^32 − 1 bytes is refused (93 U4). -/
def execCompress (s : State) : Host.Outcome State Fault Refusal :=
  if busy s then .next s
  else if s.src.length < 2 ^ Config.lenW then .next (commandStart .cFreq s)
  else .refused .inputTooLong

/-- `DECOMPRESS`, likewise, to `PHASE` 9 (10_state.md R44). -/
def execDecompress (s : State) : Host.Outcome State Fault Refusal :=
  if busy s then .next s else .next (commandStart .dLen s)

/-- The reserved code 11: "changes no state, in any phase; it raises no error" (30_encoding.md R96). -/
def execReservedCmd3 (s : State) : Host.Outcome State Fault Refusal := .next s

end Sys2Proof.Machine
end

