-- ==== Sys2Proof/Machine/Frequency.lean ====
section
/-! DEFINITION. The FrequencyAnalyzer (41_frequency.md). -/

namespace Sys2Proof.Machine

/-- `FREQ[v] <- FREQ[v] + 1` (41_frequency.md R151). -/
def countSymbol (freq : List Nat) (v : Byte) : List Nat := freq.set v.toNat (freq.getD v.toNat 0 + 1)

/-- The loop of 41_frequency.md R151, at most `fuel` reads. A byte that would take `TOTAL` past 32 bits has no
meaning (R154, 93_implementation_defined.md U4). -/
def freqLoop : Nat → State → Res Unit
  | 0, _ => .refused .loopBound
  | fuel + 1, s =>
    (srcRead 1 s).bind fun d s =>
      match d with
      | [] => .ok () s
      | v :: _ =>
        if s.total + 1 < 2 ^ Config.lenW then
          freqLoop fuel { s with freq := countSymbol s.freq v, total := s.total + 1 }
        else .refused .inputTooLong

/-- `FREQ.SCAN` (41_frequency.md R151): "`SRC_LEN` reads plus one" (45_encoder_decoder.md R221). -/
def scan (s : State) : Res Unit :=
  freqLoop (s.src.length - s.srcPos + 1) { s with freq := List.replicate Config.nsym 0, total := 0 }

/-- `FREQ.SCAN` (41_frequency.md R151). -/
def execFreqScan (s : State) : Host.Outcome State Fault Refusal := (scan s).outcome

end Sys2Proof.Machine
end

