-- ==== Sys2Proof/Machine/BitChannel.lean ====
section
/-! DEFINITION. The BitChannel: accumulator, writer, reader (40_bitchannel.md). -/

namespace Sys2Proof.Machine

/-! ### The accumulator -/

/-- `A.held <- 0` (40_bitchannel.md R121). -/
def accClear (a : Acc) (s : State) : State := setAcc a [] s

/-- `pushBit(b)` (40_bitchannel.md R123). -/
def accPushBit (a : Acc) (b : Bool) (s : State) : Res Unit :=
  if isFull a s then .raise .capacityExceeded s else .ok () (setAcc a (acc a s ++ [b]) s)

/-- `bitAt(i)` (40_bitchannel.md R124). -/
def accBitAt (a : Acc) (i : Nat) (s : State) : Res Bool :=
  match (acc a s)[i]? with
  | some b => .ok b s
  | none => .raise .outOfRange s

/-- `ACC.PUSHBIT A, b` for each bit of a list, in order. -/
def accPushBits (a : Acc) : List Bool → State → Res Unit
  | [], s => .ok () s
  | b :: bs, s => (accPushBit a b s).bind fun _ s => accPushBits a bs s

/-! ### The writer -/

/-- Sends the full bytes of `WACC` to SINK and empties it (40_bitchannel.md R128). -/
def flush (s : State) : Res Unit :=
  match fullBytes s.wacc with
  | [] => .ok () (accClear .writer s)
  | v :: vs =>
    (sinkWrite (v :: vs) s).bind fun _ s =>
      .ok () (accClear .writer { s with wrTotal := s.wrTotal + (v :: vs).length })

/-- One bit through the writer: pushed, and flushed the moment the accumulator is full (40_bitchannel.md R129). -/
def writeBit (b : Bool) (s : State) : Res Unit :=
  (accPushBit .writer b s).bind fun _ s => if isFull .writer s then flush s else .ok () s

/-- `writeBits(seq)` (40_bitchannel.md R129). -/
def writeBits : List Bool → State → Res Unit
  | [], s => .ok () s
  | b :: bs, s => (writeBit b s).bind fun _ s => writeBits bs s

/-- `writeByte(v)`, "equivalent to pushing its 8 bits LSB-first" (40_bitchannel.md R130). -/
def writeByte (v : Byte) (s : State) : Res Unit := writeBits (byteBits v) s

/-- `finish()`: zero bits to a byte boundary, flush, the byte count (40_bitchannel.md R131, R133). -/
def finish (s : State) : Res Nat :=
  (accPushBits .writer (List.replicate (padCount s.wacc.length) false) s).bind fun _ s =>
    (flush s).bind fun _ s => .ok s.wrTotal s

/-! ### The reader -/

/-- Loads up to C/8 bytes of SRC into `RACC` (40_bitchannel.md R137). -/
def refill (s : State) : Res Unit :=
  (srcRead Config.refillBytes s).bind fun d s =>
    match d with
    | [] => .raise .endOfInput s
    | v :: vs =>
      (accPushBits .reader (bytesBits (v :: vs)) (accClear .reader s)).bind fun _ s =>
        .ok () { s with rdCursor := 0 }

/-- `popBit()` (40_bitchannel.md R138). -/
def popBit (s : State) : Res Bool :=
  (if readerEmpty s then refill s else .ok () s).bind fun _ s =>
    (accBitAt .reader s.rdCursor s).bind fun b s => .ok b { s with rdCursor := s.rdCursor + 1 }

/-- `k` sequential `popBit()` calls, the first bit popped first. -/
def popBits : Nat → State → Res (List Bool)
  | 0, s => .ok [] s
  | k + 1, s => (popBit s).bind fun b s => (popBits k s).bind fun bs s => .ok (b :: bs) s

/-- `popByte()`, "8 sequential `popBit()` calls reassembled LSB-first" (40_bitchannel.md R139). -/
def popByte (s : State) : Res Byte :=
  (popBits 8 s).bind fun bs s => .ok (byteOfBits bs) s

/-- The bits of SRC a `popBit` can still return (40_bitchannel.md R140). -/
def bitsLeft (s : State) : Nat := 8 * (s.src.length - s.srcPos) + (s.racc.length - s.rdCursor)

/-! ### Meanings -/

/-- `ACC.CLEAR A` (40_bitchannel.md R121). -/
def execAccClear (a : Acc) (s : State) : Host.Outcome State Fault Refusal := .next (accClear a s)

/-- `ACC.ISFULL A -> bool` (40_bitchannel.md R122). -/
def execAccIsFull (a : Acc) (s : State) : Host.Outcome State Fault Refusal :=
  .next { s with ret := .bit (isFull a s) }

/-- `ACC.PUSHBIT A, b` (40_bitchannel.md R123). -/
def execAccPushBit (a : Acc) (b : Bool) (s : State) : Host.Outcome State Fault Refusal :=
  (accPushBit a b s).outcome

/-- `ACC.BITAT A, i -> bit` (40_bitchannel.md R124). -/
def execAccBitAt (a : Acc) (i : Nat) (s : State) : Host.Outcome State Fault Refusal :=
  (accBitAt a i s).outcomeRet .bit

/-- `WR.FLUSH` (40_bitchannel.md R128). -/
def execWrFlush (s : State) : Host.Outcome State Fault Refusal := (flush s).outcome

/-- `WR.WRITEBITS seq` (40_bitchannel.md R129). -/
def execWrWriteBits (seq : List Bool) (s : State) : Host.Outcome State Fault Refusal :=
  (writeBits seq s).outcome

/-- `WR.WRITEBYTE v` (40_bitchannel.md R130). -/
def execWrWriteByte (v : Byte) (s : State) : Host.Outcome State Fault Refusal := (writeByte v s).outcome

/-- `WR.FINISH -> count` (40_bitchannel.md R131). -/
def execWrFinish (s : State) : Host.Outcome State Fault Refusal := (finish s).outcomeRet .count

/-- `RD.REFILL` (40_bitchannel.md R137). -/
def execRdRefill (s : State) : Host.Outcome State Fault Refusal := (refill s).outcome

/-- `RD.POPBIT -> bit` (40_bitchannel.md R138). -/
def execRdPopBit (s : State) : Host.Outcome State Fault Refusal := (popBit s).outcomeRet .bit

/-- `RD.POPBYTE -> v` (40_bitchannel.md R139). -/
def execRdPopByte (s : State) : Host.Outcome State Fault Refusal := (popByte s).outcomeRet .byte

end Sys2Proof.Machine
end

