-- ==== Sys2Proof/Machine/EncoderDecoder.lean ====
section
/-! DEFINITION. The encoder's and the decoder's own unit operations (45_encoder_decoder.md). -/

namespace Sys2Proof.Machine

/-- `ENC.LEN` (45_encoder_decoder.md R207): `L`, low byte first. -/
def writeLength (s : State) : Res Unit :=
  (writeByte (lenByte s.l 0) s).bind fun _ s =>
    (writeByte (lenByte s.l 1) s).bind fun _ s =>
      (writeByte (lenByte s.l 2) s).bind fun _ s => writeByte (lenByte s.l 3) s

/-- `ENC.BODY` (45_encoder_decoder.md R208): one symbol. A source that ended or a symbol without a code "has no
meaning" (93_implementation_defined.md U5). -/
def codeSymbol (s : State) : Res Unit :=
  (srcRead 1 s).bind fun d s =>
    match d with
    | [] => .refused .sourceChanged
    | v :: _ =>
      match s.code[v.toNat]? with
      | some (some p) => (writeBits p s).bind fun _ s => .ok () { s with outcnt := s.outcnt + 1 }
      | some none => .refused .sourceChanged
      | none => .fault (.noValue .codeEntry)

/-- `DEC.LEN` (45_encoder_decoder.md R212). -/
def readLength (s : State) : Res Unit :=
  (popByte s).bind fun b0 s =>
    (popByte s).bind fun b1 s =>
      (popByte s).bind fun b2 s =>
        (popByte s).bind fun b3 s => .ok () { s with l := lenOfBytes b0 b1 b2 b3 }

/-- The descent of 45_encoder_decoder.md R214 from `CUR`: the bits popped and the symbol of the leaf reached. At
most `fuel` nodes are looked at; a bit is popped at each internal one, so the bits left and one are enough. -/
def descend : Nat → State → Res (List Bool × Byte)
  | 0, _ => .refused .loopBound
  | fuel + 1, s =>
    match s.cur with
    | none => .fault (.noValue .currentNode)
    | some x =>
      match s.node[x]? with
      | some (.leaf v _) => .ok ([], v) s
      | some (.internal _ l r) =>
        (popBit s).bind fun b s =>
          match (if b then r else l) with
          | some y => (descend fuel { s with cur := some y }).bind fun pv s => .ok (b :: pv.1, pv.2) s
          | none => .fault (.noValue .childIndex)
      | some .fresh => .fault (.noValue .nodeField)
      | none => .fault (.noValue .nodeField)

/-- `DEC.WALK` (45_encoder_decoder.md R214): one symbol; the bits of its code are answered. -/
def walk (s : State) : Res (List Bool) :=
  match s.root with
  | none => .refused .noTree
  | some r =>
    (descend (bitsLeft s + 1) { s with cur := some r }).bind fun pv s =>
      (sinkWrite [pv.2] s).bind fun _ s =>
        .ok pv.1 { s with wrTotal := s.wrTotal + 1, outcnt := s.outcnt + 1 }

/-! ### Meanings -/

/-- `ENC.LEN` (45_encoder_decoder.md R207). -/
def execEncLen (s : State) : Host.Outcome State Fault Refusal := (writeLength s).outcome

/-- `ENC.BODY` (45_encoder_decoder.md R208). -/
def execEncBody (s : State) : Host.Outcome State Fault Refusal := (codeSymbol s).outcome

/-- `DEC.LEN` (45_encoder_decoder.md R212). -/
def execDecLen (s : State) : Host.Outcome State Fault Refusal := (readLength s).outcome

/-- `DEC.WALK` (45_encoder_decoder.md R214). -/
def execDecWalk (s : State) : Host.Outcome State Fault Refusal := (walk s).outcome

end Sys2Proof.Machine
end

