-- ==== Sys2Proof/Machine/TreeCodec.lean ====
section
/-! DEFINITION. The TreeCodec (43_treecodec.md), with the explicit stack of 10_state.md R31: R182 and R188 are "how
this hardware runs it" (log entry 17). -/

namespace Sys2Proof.Machine

/-! ### Serialization -/

/-- The loop of 43_treecodec.md R182, at most `fuel` pops; a tree is walked in as many pops as it has nodes. -/
def serLoop : Nat → State → Res Unit
  | 0, s =>
    match s.stk with
    | [] => .ok () s
    | _ :: _ => .refused .notATree
  | fuel + 1, s =>
    match s.stk with
    | [] => .ok () s
    | .visit x :: st =>
      match s.node[x]? with
      | some (.leaf v _) =>
        (writeBits [true] { s with stk := st }).bind fun _ s =>
          (writeByte v s).bind fun _ s => serLoop fuel s
      | some (.internal _ (some l) (some r)) =>
        (writeBits [false] { s with stk := st }).bind fun _ s =>
          serLoop fuel { s with stk := .visit l :: .visit r :: s.stk }
      | some (.internal _ _ _) => .fault (.noValue .childIndex)
      | some .fresh => .fault (.noValue .nodeField)
      | none => .fault (.noValue .nodeField)
    | .build _ _ :: _ => .fault .foreignStackEntry
    | .path _ _ :: _ => .fault .foreignStackEntry

/-- `TC.SERIALIZE` (43_treecodec.md R181, R182); "a tree exists" is its precondition (93 U6). -/
def serialize (s : State) : Res Unit :=
  match s.root with
  | none => .refused .noTree
  | some r => serLoop s.node.length { s with stk := [.visit r] }

/-! ### Deserialization -/

/-- Attaches the node `i` to the node waiting on top of the stack, left child first (43_treecodec.md R188). -/
def attach (i : Nat) (s : State) : Res Unit :=
  match s.stk with
  | [] => .ok () s
  | .build p leftDone :: st =>
    match s.node[p]? with
    | some (.internal w l r) =>
      if leftDone then .ok () { s with node := s.node.set p (.internal w l (some i)), stk := st }
      else .ok () { s with node := s.node.set p (.internal w (some i) r), stk := .build p true :: st }
    | some (.leaf _ _) => .fault (.noValue .nodeField)
    | some .fresh => .fault (.noValue .nodeField)
    | none => .fault (.noValue .nodeField)
  | .visit _ :: _ => .fault .foreignStackEntry
  | .path _ _ :: _ => .fault .foreignStackEntry

/-- One round of the loop of 43_treecodec.md R188: one node token is read; the symbol is answered for a leaf. The
flag bit is popped before the node store is checked (60_exceptions.md R247). -/
def readNode (s : State) : Res (Option Byte) :=
  (popBit s).bind fun b s =>
    if s.node.length = Config.nodeCap then .raise .nodeStoreOverflow s
    else
      (attach s.node.length { s with node := s.node ++ [.fresh] }).bind fun _ s' =>
        if b then
          (popByte s').bind fun v s'' =>
            .ok (some v) { s'' with node := s''.node.set s.node.length (.leaf v 0) }
        else
          .ok none { s' with
            node := s'.node.set s.node.length (.internal 0 none none)
            stk := .build s.node.length false :: s'.stk }

/-- `ROOT <- 0` once no node waits for a child (43_treecodec.md R188). -/
def closeTree (s : State) : State :=
  match s.stk with
  | [] => { s with root := some 0 }
  | _ :: _ => s

/-- The loop of 43_treecodec.md R188, at most `fuel` tokens; the 512th raises, so 512 rounds are enough. -/
def desLoop : Nat → State → Res Unit
  | 0, _ => .refused .loopBound
  | fuel + 1, s =>
    (readNode s).bind fun _ s =>
      match s.stk with
      | [] => .ok () (closeTree s)
      | _ :: _ => desLoop fuel s

/-- `TC.DESERIALIZE` (43_treecodec.md R185, R188). -/
def deserialize (s : State) : Res Unit :=
  desLoop (Config.nodeCap + 1) { s with node := [], stk := [] }

/-! ### Meanings -/

/-- `TC.SERIALIZE` (43_treecodec.md R181). -/
def execTcSerialize (s : State) : Host.Outcome State Fault Refusal := (serialize s).outcome

/-- `TC.DESERIALIZE` (43_treecodec.md R185). -/
def execTcDeserialize (s : State) : Host.Outcome State Fault Refusal := (deserialize s).outcome

end Sys2Proof.Machine
end

