-- ==== Sys2Proof/Machine/Tokens.lean ====
section
/-! DEFINITION. The tokens of the container (30_encoding.md R98 to R106) as instructions. A token is what COMPRESS
writes and DECOMPRESS reads: in a phase of DECOMPRESS it is read, with the effect the reading operation has for it;
in every other phase it is written, bit by bit, through the writer (DESIGN CHOICE: log entry 4). -/

namespace Sys2Proof.Machine

/-- The phases of DECOMPRESS, in which the container is read. -/
def reading (s : State) : Bool :=
  match s.phase with
  | .dLen | .dTree | .dWalk => true
  | .idle | .cFreq | .cLen | .cLeaves | .cMerge | .cSer | .cCodes | .cBody | .cFin | .done | .error => false

/-- The token `LEN` is read: DEC.LEN, and the length read is the token's (30_encoding.md R99, R107). -/
def readLenToken (l : BitVec 32) (s : State) : Res Unit :=
  (readLength s).bind fun _ s => if s.l = l then .ok () s else .refused .tokenMismatch

/-- A node token is read: one round of the deserializer, and the token read is the one issued. After the tree is
complete no node token can follow, the format being self-delimiting (30_encoding.md R100). -/
def readNodeToken (tok : Option Byte) (s : State) : Res Unit :=
  if s.stk = [] ∧ s.node ≠ [] then .refused .outOfOrder
  else (readNode s).bind fun t s => if t = tok then .ok () (closeTree s) else .refused .tokenMismatch

/-- The token `CODE` is read: one walk of the decoder, and the bits walked are the token's (30_encoding.md R105,
R111). -/
def readCodeToken (p : List Bool) (s : State) : Res Unit :=
  (walk s).bind fun q s => if q = p then .ok () s else .refused .tokenMismatch

/-- Token `LEN` (30_encoding.md R99). -/
def execLen (l : BitVec 32) (s : State) : Host.Outcome State Fault Refusal :=
  if reading s then
    if s.phase = .dLen then (readLenToken l s).outcome else .refused .outOfOrder
  else (writeBits (wordBits l) s).outcome

/-- Token `INTERNAL`, one bit 0 (30_encoding.md R101). -/
def execInternal (s : State) : Host.Outcome State Fault Refusal :=
  if reading s then
    if s.phase = .dTree then (readNodeToken none s).outcome else .refused .outOfOrder
  else (writeBits [false] s).outcome

/-- Token `LEAF`, the flag 1 and the symbol, least significant bit first (30_encoding.md R102). -/
def execLeaf (sym : Byte) (s : State) : Host.Outcome State Fault Refusal :=
  if reading s then
    if s.phase = .dTree then (readNodeToken (some sym) s).outcome else .refused .outOfOrder
  else (writeBits (true :: byteBits sym) s).outcome

/-- Token `CODE` (30_encoding.md R105). -/
def execCode (p : List Bool) (s : State) : Host.Outcome State Fault Refusal :=
  if reading s then
    if s.phase = .dWalk then (readCodeToken p s).outcome else .refused .outOfOrder
  else (writeBits p s).outcome

/-- Token `PAD`: zero bits pushed, as `finish` does; DECOMPRESS never looks at them (30_encoding.md R106, R110;
40_bitchannel.md R131). -/
def execPad (z : Nat) (s : State) : Host.Outcome State Fault Refusal :=
  if reading s then .next s else (accPushBits .writer (List.replicate z false) s).outcome

end Sys2Proof.Machine
end

