-- ==== Sys2Proof/Machine/TreeBuilder.lean ====
section
/-! DEFINITION. The TreeBuilder: the min-heap and the merge (42_treebuilder.md), `TIEBREAK` = `reference`. -/

namespace Sys2Proof.Machine

/-! ### The heap array -/

/-- `swap HEAP[i], HEAP[j]`. -/
def swapAt (h : List Nat) (i j : Nat) : List Nat :=
  match h[i]?, h[j]? with
  | some a, some b => (h.set i b).set j a
  | _, _ => h

/-- The entry at `k` sifts up while it is strictly lighter than its parent (42_treebuilder.md R165); `none` where
an entry compared has no weight. The first argument bounds the swaps: the position itself is enough. -/
def siftUp (nodes : List Node) : Nat → List Nat → Nat → Option (List Nat)
  | 0, h, _ => some h
  | fuel + 1, h, k =>
    if k = 0 then some h
    else
      match h[k]?, h[(k - 1) / 2]? with
      | some x, some p =>
        match less nodes x p with
        | some true => siftUp nodes fuel (swapAt h k ((k - 1) / 2)) ((k - 1) / 2)
        | some false => some h
        | none => none
      | _, _ => none

/-- `if c < HN and less(HEAP[c], HEAP[m]) then m <- c` (42_treebuilder.md R166). -/
def lighter (nodes : List Node) (h : List Nat) (m c : Nat) : Option Nat :=
  match h[c]?, h[m]? with
  | some x, some y =>
    match less nodes x y with
    | some true => some c
    | some false => some m
    | none => none
  | none, _ => some m
  | some _, none => none

/-- The entry at `k` sifts down, the left child first unless the right is strictly lighter (42_treebuilder.md
R166). The first argument bounds the rounds: the heap's size is enough. -/
def siftDown (nodes : List Node) : Nat → List Nat → Nat → Option (List Nat)
  | 0, h, _ => some h
  | fuel + 1, h, k =>
    match lighter nodes h k (2 * k + 1) with
    | none => none
    | some m1 =>
      match lighter nodes h m1 (2 * k + 2) with
      | none => none
      | some m => if m = k then some h else siftDown nodes fuel (swapAt h k m) m

/-- The heap after entry 0 has been taken out: the last entry moves to the top and sifts down (42_treebuilder.md
R166). -/
def heapAfterMin (nodes : List Node) (rest : List Nat) : Option (List Nat) :=
  match rest.getLast? with
  | none => some []
  | some last => siftDown nodes rest.length (last :: rest.dropLast) 0

/-! ### The operations -/

/-- `HEAP.INSERT x` (42_treebuilder.md R165): x a node index below `NN`. -/
def heapInsert (x : Nat) (s : State) : Res Unit :=
  if x < s.node.length then
    if s.heap.length < Config.heapCap then
      match siftUp s.node s.heap.length (s.heap ++ [x]) s.heap.length with
      | some h => .ok () { s with heap := h }
      | none => .fault (.noValue .nodeField)
    else .fault .heapIndex
  else .fault .nodeIndex

/-- `HEAP.EXTRACTMIN -> x` (42_treebuilder.md R166), precondition `HN` ≥ 1. -/
def heapExtractMin (s : State) : Res Nat :=
  match s.heap with
  | [] => .refused .outOfOrder
  | x :: rest =>
    match heapAfterMin s.node rest with
    | some h => .ok x { s with heap := h }
    | none => .fault (.noValue .nodeField)

/-- The loop of `TB.LEAVES` over the symbols of a list (42_treebuilder.md R161). -/
def leavesLoop : List Nat → State → Res Unit
  | [], s => .ok () s
  | v :: vs, s =>
    (freqAt v s).bind fun c s =>
      if 0 < c then
        (allocNode (.leaf (BitVec.ofNat 8 v) c) s).bind fun x s =>
          (heapInsert x s).bind fun _ s => leavesLoop vs { s with n := s.n + 1 }
      else leavesLoop vs s

/-- `TB.LEAVES` (42_treebuilder.md R161): the 256 symbols in ascending order. -/
def leaves (s : State) : Res Unit :=
  leavesLoop (List.range Config.nsym) { s with node := [], heap := [], n := 0 }

/-- The weight of an internal node, the sum of its children's (42_treebuilder.md R169, R171). A sum that does not fit
32 bits, which only a node inserted into the heap more than once can bring about, is a free value (log entry 33). -/
def addWeights (wa wb : Nat) : Nat :=
  if wa + wb < 2 ^ Config.cntW then wa + wb else (Config.weightOverflow wa wb).toNat

/-- `TB.MERGE` (42_treebuilder.md R169), precondition `HN` ≥ 2: left is the first extracted, right the second. -/
def merge (s : State) : Res Unit :=
  if 2 ≤ s.heap.length then
    (heapExtractMin s).bind fun a s =>
      (heapExtractMin s).bind fun b s =>
        (weightAt a s).bind fun wa s =>
          (weightAt b s).bind fun wb s =>
            (allocNode (.internal (addWeights wa wb) (some a) (some b)) s).bind fun x s => heapInsert x s
  else .refused .outOfOrder

/-- `while HN > 1: TB.MERGE`, at most `fuel` merges (42_treebuilder.md R172). -/
def mergeLoop : Nat → State → Res Unit
  | 0, s => .ok () s
  | fuel + 1, s => if 1 < s.heap.length then (merge s).bind fun _ s => mergeLoop fuel s else .ok () s

/-- The end of `TB.BUILD`: `ROOT <- HEAP.EXTRACTMIN` (42_treebuilder.md R172). -/
def takeRoot (s : State) : Res Unit :=
  (heapExtractMin s).bind fun x s => .ok () { s with root := some x }

/-- `TB.BUILD` (42_treebuilder.md R172); a merge lowers `HN` by one, so `HN` merges are enough. -/
def build (s : State) : Res Unit :=
  (leaves s).bind fun _ s => (mergeLoop s.heap.length s).bind fun _ s => takeRoot s

/-! ### Meanings -/

/-- `HEAP.INSERT x` (42_treebuilder.md R165). -/
def execHeapInsert (x : Nat) (s : State) : Host.Outcome State Fault Refusal := (heapInsert x s).outcome

/-- `HEAP.EXTRACTMIN -> x` (42_treebuilder.md R166). -/
def execHeapExtractMin (s : State) : Host.Outcome State Fault Refusal := (heapExtractMin s).outcomeRet .node

/-- `TB.LEAVES` (42_treebuilder.md R161). -/
def execTbLeaves (s : State) : Host.Outcome State Fault Refusal := (leaves s).outcome

/-- `TB.MERGE` (42_treebuilder.md R169). -/
def execTbMerge (s : State) : Host.Outcome State Fault Refusal := (merge s).outcome

/-- `TB.BUILD` (42_treebuilder.md R172). -/
def execTbBuild (s : State) : Host.Outcome State Fault Refusal := (build s).outcome

end Sys2Proof.Machine
end

