-- ==== Sys2Proof/Machine/Dispatch.lean ====
section
/-! DEFINITION. The dispatch: one arm per instruction, each one call of its meaning. -/

namespace Sys2Proof.Machine

def exec (i : Instr) (s : State) : Host.Outcome State Fault Refusal :=
  match i with
  | .nop => Sys2Proof.Machine.execNop s
  | .compress => Sys2Proof.Machine.execCompress s
  | .decompress => Sys2Proof.Machine.execDecompress s
  | .reservedCmd3 => Sys2Proof.Machine.execReservedCmd3 s
  | .accClear a => Sys2Proof.Machine.execAccClear a s
  | .accIsFull a => Sys2Proof.Machine.execAccIsFull a s
  | .accPushBit a b => Sys2Proof.Machine.execAccPushBit a b s
  | .accBitAt a n => Sys2Proof.Machine.execAccBitAt a n s
  | .wrFlush => Sys2Proof.Machine.execWrFlush s
  | .wrWriteBits bits => Sys2Proof.Machine.execWrWriteBits bits s
  | .wrWriteByte v => Sys2Proof.Machine.execWrWriteByte v s
  | .wrFinish => Sys2Proof.Machine.execWrFinish s
  | .rdRefill => Sys2Proof.Machine.execRdRefill s
  | .rdPopBit => Sys2Proof.Machine.execRdPopBit s
  | .rdPopByte => Sys2Proof.Machine.execRdPopByte s
  | .freqScan => Sys2Proof.Machine.execFreqScan s
  | .heapInsert x => Sys2Proof.Machine.execHeapInsert x s
  | .heapExtractMin => Sys2Proof.Machine.execHeapExtractMin s
  | .tbLeaves => Sys2Proof.Machine.execTbLeaves s
  | .tbMerge => Sys2Proof.Machine.execTbMerge s
  | .tbBuild => Sys2Proof.Machine.execTbBuild s
  | .tcSerialize => Sys2Proof.Machine.execTcSerialize s
  | .tcDeserialize => Sys2Proof.Machine.execTcDeserialize s
  | .ctDerive => Sys2Proof.Machine.execCtDerive s
  | .encLen => Sys2Proof.Machine.execEncLen s
  | .encBody => Sys2Proof.Machine.execEncBody s
  | .decLen => Sys2Proof.Machine.execDecLen s
  | .decWalk => Sys2Proof.Machine.execDecWalk s
  | .len l => Sys2Proof.Machine.execLen l s
  | .internal => Sys2Proof.Machine.execInternal s
  | .leaf v => Sys2Proof.Machine.execLeaf v s
  | .code p => Sys2Proof.Machine.execCode p s
  | .pad z => Sys2Proof.Machine.execPad z s

end Sys2Proof.Machine
end

