-- ==== Sys2Proof/WellFormed.lean ====
section
/-! DEFINITION. Which terms of `Instr` are instructions of this hardware: the operand ranges of the spec. -/

namespace Sys2Proof

/-- The operand ranges: a node index is one of the `NODE_CAP` entries (42_treebuilder.md R165); a code has at
most `CODELEN_MAX` bits (30_encoding.md R105); padding is 0 to 7 bits (R106); the index of `ACC.BITAT` is held in
seven bits, as `held` is (10_state.md R52; log entry 2). -/
def Instr.wellFormed : Instr → Bool
  | .accBitAt _ i  => decide (i < 128)
  | .heapInsert x  => decide (x < Config.nodeCap)
  | .code p        => decide (p.length ≤ Config.codeLenMax)
  | .pad z         => decide (z < 8)
  | .nop | .compress | .decompress | .reservedCmd3
  | .accClear _ | .accIsFull _ | .accPushBit _ _
  | .wrFlush | .wrWriteBits _ | .wrWriteByte _ | .wrFinish
  | .rdRefill | .rdPopBit | .rdPopByte
  | .freqScan
  | .heapExtractMin | .tbLeaves | .tbMerge | .tbBuild
  | .tcSerialize | .tcDeserialize | .ctDerive
  | .encLen | .encBody | .decLen | .decWalk
  | .len _ | .internal | .leaf _ => true

end Sys2Proof
end

