-- ==== Sys2Proof/Decode.lean ====
section
/-! DEFINITION. The decoder, total on any bits and rejecting by name, and after it the encoder, both from the
encoding tables of 30_encoding.md. -/

namespace Sys2Proof

/-- Operand bit of an accumulator operation: 0 is `WACC`, 1 is `RACC` (DESIGN CHOICE, unsafe: log entry 2). -/
def accOfBit : Bool → Acc
  | false => .writer
  | true => .reader

/-- The inverse of `accOfBit`. -/
def Acc.bit : Acc → Bool
  | .writer => false
  | .reader => true

/-- Format CMD: a 2-bit value, bit 1 the most significant, here bit 0 first (30_encoding.md R90, R96). -/
def decodeCmd : List Bool → Except DecodeError Instr
  | [false, false] => .ok .nop
  | [true, false] => .ok .compress
  | [false, true] => .ok .decompress
  | [true, true] => .ok .reservedCmd3
  | _ => .error .cmdNotTwoBits

/-- An operation id that takes no operand decodes only with no operand bits. -/
def decodePlain (opid : Nat) (i : Instr) : List Bool → Except DecodeError Instr
  | [] => .ok i
  | _ :: _ => .error (.badOperands opid)

/-- The operations on an accumulator (30_encoding.md R92, `OPID` 000000 to 000011). -/
def decodeAccOp (opid : Nat) : List Bool → Except DecodeError Instr
  | [] => .error (.badOperands opid)
  | a :: rest =>
    match opid, rest with
    | 0, [] => .ok (.accClear (accOfBit a))
    | 1, [] => .ok (.accIsFull (accOfBit a))
    | 2, [b] => .ok (.accPushBit (accOfBit a) b)
    | 3, [i0, i1, i2, i3, i4, i5, i6] =>
      .ok (.accBitAt (accOfBit a) (natOfBits [i0, i1, i2, i3, i4, i5, i6]))
    | _, _ => .error (.badOperands opid)

/-- Format UOP: the table of `OPID` values (30_encoding.md R92), the operand bits after the six of the id. -/
def decodeUop (opid : Nat) (ops : List Bool) : Except DecodeError Instr :=
  match opid with
  | 0 => decodeAccOp 0 ops
  | 1 => decodeAccOp 1 ops
  | 2 => decodeAccOp 2 ops
  | 3 => decodeAccOp 3 ops
  | 4 => decodePlain 4 .wrFlush ops
  | 5 => .ok (.wrWriteBits ops)
  | 6 => if ops.length = 8 then .ok (.wrWriteByte (byteOfBits ops)) else .error (.badOperands 6)
  | 7 => decodePlain 7 .wrFinish ops
  | 8 => decodePlain 8 .rdRefill ops
  | 9 => decodePlain 9 .rdPopBit ops
  | 10 => decodePlain 10 .rdPopByte ops
  | 16 => decodePlain 16 .freqScan ops
  | 24 =>
    if ops.length = 9 then
      if natOfBits ops < Config.nodeCap then .ok (.heapInsert (natOfBits ops))
      else .error (.noSuchNode (natOfBits ops))
    else .error (.badOperands 24)
  | 25 => decodePlain 25 .heapExtractMin ops
  | 26 => decodePlain 26 .tbLeaves ops
  | 27 => decodePlain 27 .tbMerge ops
  | 28 => decodePlain 28 .tbBuild ops
  | 32 => decodePlain 32 .tcSerialize ops
  | 33 => decodePlain 33 .tcDeserialize ops
  | 40 => decodePlain 40 .ctDerive ops
  | 48 => decodePlain 48 .encLen ops
  | 49 => decodePlain 49 .encBody ops
  | 50 => decodePlain 50 .decLen ops
  | 51 => decodePlain 51 .decWalk ops
  | n => .error (.noSuchOpid n)

/-- The six bits of an operation id, bit 0 first, and the operand bits after them. -/
def decodeUopBits : List Bool → Except DecodeError Instr
  | b0 :: b1 :: b2 :: b3 :: b4 :: b5 :: ops => decodeUop (natOfBits [b0, b1, b2, b3, b4, b5]) ops
  | _ => .error .opidTooShort

/-- Token `LEN`: 32 bits, `l`i = `L[i]` (30_encoding.md R99). -/
def decodeLenTok (bs : List Bool) : Except DecodeError Instr :=
  if bs.length = 32 then .ok (.len (BitVec.ofNat 32 (natOfBits bs))) else .error .lenNot32Bits

/-- A node token: `0`, or `1 s0 … s7` (30_encoding.md R100 to R102). -/
def decodeNodeTok : List Bool → Except DecodeError Instr
  | [false] => .ok .internal
  | true :: s => if s.length = 8 then .ok (.leaf (byteOfBits s)) else .error .badNodeToken
  | _ => .error .badNodeToken

/-- Token `CODE`: 0 to 255 bits (30_encoding.md R105). -/
def decodeCodeTok (p : List Bool) : Except DecodeError Instr :=
  if p.length ≤ Config.codeLenMax then .ok (.code p) else .error .codeTooLong

/-- Token `PAD`: 0 to 7 zero bits (30_encoding.md R106). -/
def decodePadTok (z : List Bool) : Except DecodeError Instr :=
  if z.length < 8 ∧ z.all (fun b => !b) then .ok (.pad z.length) else .error .badPad

/-- The decoder. -/
def decode (e : Enc) : Except DecodeError Instr :=
  match e.fmt with
  | .cmd => decodeCmd e.bits
  | .uop => decodeUopBits e.bits
  | .lenTok => decodeLenTok e.bits
  | .nodeTok => decodeNodeTok e.bits
  | .codeTok => decodeCodeTok e.bits
  | .padTok => decodePadTok e.bits

/-- A unit operation's word: its `OPID` from the table of 30_encoding.md R92, then its operand bits. -/
def uopEnc (opid : Nat) (ops : List Bool) : Enc := ⟨.uop, bitsOfNat 6 opid ++ ops⟩

/-- The encoder, from the same tables (30_encoding.md R90, R92, R99 to R106). -/
def encode : Instr → Enc
  | .nop => ⟨.cmd, [false, false]⟩
  | .compress => ⟨.cmd, [true, false]⟩
  | .decompress => ⟨.cmd, [false, true]⟩
  | .reservedCmd3 => ⟨.cmd, [true, true]⟩
  | .accClear a => uopEnc 0 [a.bit]
  | .accIsFull a => uopEnc 1 [a.bit]
  | .accPushBit a b => uopEnc 2 [a.bit, b]
  | .accBitAt a i => uopEnc 3 (a.bit :: bitsOfNat 7 i)
  | .wrFlush => uopEnc 4 []
  | .wrWriteBits seq => uopEnc 5 seq
  | .wrWriteByte v => uopEnc 6 (byteBits v)
  | .wrFinish => uopEnc 7 []
  | .rdRefill => uopEnc 8 []
  | .rdPopBit => uopEnc 9 []
  | .rdPopByte => uopEnc 10 []
  | .freqScan => uopEnc 16 []
  | .heapInsert x => uopEnc 24 (bitsOfNat 9 x)
  | .heapExtractMin => uopEnc 25 []
  | .tbLeaves => uopEnc 26 []
  | .tbMerge => uopEnc 27 []
  | .tbBuild => uopEnc 28 []
  | .tcSerialize => uopEnc 32 []
  | .tcDeserialize => uopEnc 33 []
  | .ctDerive => uopEnc 40 []
  | .encLen => uopEnc 48 []
  | .encBody => uopEnc 49 []
  | .decLen => uopEnc 50 []
  | .decWalk => uopEnc 51 []
  | .len l => ⟨.lenTok, wordBits l⟩
  | .internal => ⟨.nodeTok, [false]⟩
  | .leaf s => ⟨.nodeTok, true :: byteBits s⟩
  | .code p => ⟨.codeTok, p⟩
  | .pad z => ⟨.padTok, List.replicate z false⟩

/-- How many operand bits an operation id takes when the table gives them no bits: zeros are filled in. -/
def operandBits : Nat → Nat
  | 0 => 1
  | 1 => 1
  | 2 => 2
  | 3 => 8
  | 6 => 8
  | 24 => 9
  | _ => 0

/-- A 6-bit operation id with zero operands. -/
def uopTableWord (w : Nat) : Enc := uopEnc w (List.replicate (operandBits w) false)

/-- A node token read from a number: the flag is bit 0, the symbol the eight bits after it. -/
def nodeTableWord (w : Nat) : Enc :=
  if w % 2 = 0 then ⟨.nodeTok, [false]⟩ else ⟨.nodeTok, true :: bitsOfNat 8 (w / 2)⟩

/-- The encoded word of a row of spec/opcode_table.json given as a number of `nbits` bits. The three formats are
separate number spaces; where the table's width is rounded up to a whole byte, a value below 4 is taken as a
command code and any other as an operation id (DESIGN CHOICE, log entry 2). -/
def tableWord (nbits w : Nat) : Option Enc :=
  match nbits with
  | 0 => if w = 0 then some ⟨.codeTok, []⟩ else none
  | 1 => if w < 2 then some (nodeTableWord w) else none
  | 2 => if w < 4 then some ⟨.cmd, bitsOfNat 2 w⟩ else none
  | 6 => if w < 64 then some (uopTableWord w) else none
  | 8 =>
    if w < 4 then some ⟨.cmd, bitsOfNat 2 w⟩
    else if w < 64 then some (uopTableWord w) else none
  | 9 => if w < 512 then some (nodeTableWord w) else none
  | 16 => if w < 512 then some (nodeTableWord w) else none
  | 32 => if w < 2 ^ 32 then some ⟨.lenTok, bitsOfNat 32 w⟩ else none
  | _ => none

/-- The instruction the decoder reads from a row's word (the host's question about the opcode table). -/
def decodeTableWord (nbits w : Nat) : Option Instr :=
  match tableWord nbits w with
  | some e => (decode e).toOption
  | none => none

end Sys2Proof
end

