-- ==== Sys2Proof/Machine/Sequencer.lean ====
section
/-! DEFINITION. The sequencer (45_encoder_decoder.md R218 to R220): which unit operation a phase runs, and the
transition of `PHASE` after it. -/

namespace Sys2Proof.Machine

/-- The unit operation the sequencer starts next (10_state.md R40); `none` where the phase only moves on, and in
the phases in which the core waits. In `C_MERGE` the end of TB.BUILD is a HEAP.EXTRACTMIN (95_test_vectors.md P1
step 7). -/
def nextOp (s : State) : Option Instr :=
  match s.phase with
  | .idle => none
  | .cFreq => some .freqScan
  | .cLen => some .encLen
  | .cLeaves => some .tbLeaves
  | .cMerge => if 1 < s.heap.length then some .tbMerge else some .heapExtractMin
  | .cSer => some .tcSerialize
  | .cCodes => some .ctDerive
  | .cBody => if allDone s then none else some .encBody
  | .cFin => some .wrFinish
  | .dLen => some .decLen
  | .dTree => some .tcDeserialize
  | .dWalk => if allDone s then none else some .decWalk
  | .done => none
  | .error => none

/-- `C_CODES` → `C_BODY`, "with `SrcRewind` and `OUTCNT` <- 0" (45_encoder_decoder.md R218); a failed rewind aborts
(60_exceptions.md R237, R243). -/
def startBody (s : State) : State :=
  match hostFails s with
  | some _ => abort .ioError (answered s)
  | none => { answered s with srcPos := 0, outcnt := 0, phase := .cBody }

/-- The transition of `PHASE` once the phase's operation has ended without an error (45_encoder_decoder.md R218,
R219). A state in `ERROR` stays as the abort left it (R220). -/
def advance (s : State) : State :=
  match s.phase with
  | .idle => s
  | .cFreq => { s with l := BitVec.ofNat 32 s.total, phase := .cLen }
  | .cLen => { s with phase := if lengthZero s then .cFin else .cLeaves }
  | .cLeaves => { s with phase := .cMerge }
  | .cMerge =>
    match s.heap, s.ret with
    | [], .node x => { s with root := some x, phase := .cSer }
    | _, _ => s
  | .cSer => { s with phase := .cCodes }
  | .cCodes => startBody s
  | .cBody => if allDone s then { s with phase := .cFin } else s
  | .cFin => complete s
  | .dLen => if lengthZero s then complete s else { s with phase := .dTree }
  | .dTree => { s with outcnt := 0, phase := .dWalk }
  | .dWalk => if allDone s then complete s else s
  | .done => s
  | .error => s

/-- The sequencer's operation has ended: on a next state, the transition. -/
def sequenced (o : Host.Outcome State Fault Refusal) : Host.Outcome State Fault Refusal :=
  match o with
  | .next s => .next (advance s)
  | .fault f => .fault f
  | .refused r => .refused r

end Sys2Proof.Machine
end

