-- ==== Sys2Proof/Machine/Fetch.lean ====
section
/-! DEFINITION. What a step runs. The core fetches no instructions (00_scope.md R1): the next scenario line says
what the host does or which operation is issued (30_encoding.md R115), and with a quiet line, or none left, the
sequencer starts the operation of its phase (30_encoding.md R92; log entries 1, 3). -/

namespace Sys2Proof.Machine

/-- What a step runs. -/
inductive Fetched where
  /-- an instruction at a state: a command code written to `CMD`, or an issued word -/
  | run (i : Instr) (s : State)
  /-- the sequencer's own operation, to be followed by its transition -/
  | sequence (i : Instr) (s : State)
  /-- no instruction; the state after -/
  | silent (s : State)
  /-- a stop of the model -/
  | stop (r : Refusal)

/-- The sequencer's part of a step in which the host does nothing. -/
def fetchQuiet (s : State) : Fetched :=
  match nextOp s with
  | some i => .sequence i s
  | none => .silent (advance s)

/-- A word is decoded; one that names nothing is refused by name (93_implementation_defined.md U12). -/
def fetchWord (w : Enc) (s : State) : Fetched :=
  match decode w with
  | .ok i => .run i s
  | .error e => .stop (.undefinedEncoding e)

/-- A host write: `CMD` takes bits 1:0 of the value (10_state.md R44); `STATUS` and `RESULT` ignore it (R45, R46). -/
def fetchWrite (r : HostReg) (v : BitVec 64) (s : State) : Fetched :=
  match r with
  | .cmd => fetchWord ⟨.cmd, bitsOfNat 2 v.toNat⟩ s
  | .status => .silent s
  | .result => .silent s

/-- SRC and SINK are bound; during a command the host has no such move (93_implementation_defined.md U11). -/
def fetchBind (src sink : List Byte) (s : State) : Fetched :=
  if busy s then .stop .bindWhileBusy else .silent { s with src := src, sink := sink }

/-- One scenario line, or none. -/
def fetch (s : State) : Fetched :=
  match s.script with
  | [] => fetchQuiet s
  | .quiet :: rest => fetchQuiet { s with script := rest }
  | .write r v :: rest => fetchWrite r v { s with script := rest }
  | .read r :: rest => .silent { s with script := rest, ret := .word (readReg r s) }
  | .bind src sink :: rest => fetchBind src sink { s with script := rest }
  | .reset :: rest => .silent (hardReset { s with script := rest })
  | .issue w :: rest => fetchWord w { s with script := rest }

/-- The scenario line that runs an encoded word: a command code is written to `CMD`, an operation or a token is
issued. -/
def lineOf (w : Enc) : Line :=
  match w.fmt with
  | .cmd => .write .cmd (BitVec.ofNat 64 (natOfBits w.bits))
  | .uop | .lenTok | .nodeTok | .codeTok | .padTok => .issue w

end Sys2Proof.Machine
end

