-- ==== Sys2Proof/Machine/Step.lean ====
section
/-! DEFINITION. One step of the machine: one scenario line with the operation it runs (00_scope.md R19). -/

namespace Sys2Proof.Machine

/-- One step. -/
def step (s : State) : Host.Outcome State Fault Refusal :=
  match fetch s with
  | .run i t => exec i t
  | .sequence i t => sequenced (exec i t)
  | .silent t => .next t
  | .stop r => .refused r

/-- `s` with a row's word as the next scenario line, so that the next step runs it (log entry 1). -/
def State.withFetchWord (s : State) (nbits w : Nat) : State :=
  match tableWord nbits w with
  | some e => { s with script := lineOf e :: s.script }
  | none => s

end Sys2Proof.Machine
end

