-- ==== Sys2Proof/Machine/Container.lean ====
section
/-! DEFINITION. The container format of 30_encoding.md section 1.3 as functions of a tree, and what it means that a
node store holds a tree (10_state.md R49). Nothing here is state: these are the words the statements use. -/

namespace Sys2Proof.Machine

/-- The shape of a Huffman tree and the symbols of its leaves: what TREE carries, "no weight, no count, no code"
(43_treecodec.md R180). -/
inductive Tree where
  | leaf (v : Byte)
  | node (l r : Tree)
  deriving DecidableEq, Repr

/-- The number of nodes of a tree. -/
def Tree.size : Tree → Nat
  | .leaf _ => 1
  | .node l r => 1 + l.size + r.size

/-- The symbols of the leaves, left to right. -/
def Tree.leaves : Tree → List Byte
  | .leaf v => [v]
  | .node l r => l.leaves ++ r.leaves

/-- `TREE(node)` = `INTERNAL ++ TREE(left) ++ TREE(right)`, or `LEAF(sym)` (30_encoding.md R100 to R102). -/
def Tree.bits : Tree → List Bool
  | .leaf v => true :: byteBits v
  | .node l r => false :: (l.bits ++ r.bits)

/-- Each leaf's symbol with its path, 0 = left, 1 = right, the path so far first (44_codetable.md R196). -/
def Tree.codes (p : List Bool) : Tree → List (Byte × List Bool)
  | .leaf v => [(v, p)]
  | .node l r => l.codes (p ++ [false]) ++ r.codes (p ++ [true])

/-- `CODE(v)`: the path from the root to the leaf of `v` (30_encoding.md R105). -/
def Tree.codeOf (t : Tree) (v : Byte) : Option (List Bool) :=
  ((t.codes []).find? fun c => c.1 = v).map fun c => c.2

/-- Where following a path from the root ends, 0 to the left child and 1 to the right (45_encoder_decoder.md R214). -/
def Tree.follow : Tree → List Bool → Option Tree
  | t, [] => some t
  | .leaf _, _ :: _ => none
  | .node l r, b :: bs => if b then r.follow bs else l.follow bs

/-- The sum of the counts of the leaves (42_treebuilder.md R171). -/
def Tree.weight (count : Byte → Nat) : Tree → Nat
  | .leaf v => count v
  | .node l r => l.weight count + r.weight count

/-- Entry `x` of the node store is the root of the tree (10_state.md R49). -/
def Holds (nodes : List Node) (x : Nat) : Tree → Prop
  | .leaf v => ∃ w, nodes[x]? = some (.leaf v w)
  | .node l r => ∃ w a b, nodes[x]? = some (.internal w (some a) (some b)) ∧ Holds nodes a l ∧ Holds nodes b r

/-- The entries of a tree read from the stream, in preorder from index `base` (43_treecodec.md R186). -/
def treeNodes (base : Nat) : Tree → List Node
  | .leaf v => [.leaf v 0]
  | .node l r =>
    .internal 0 (some (base + 1)) (some (base + 1 + l.size)) ::
      (treeNodes (base + 1) l ++ treeNodes (base + 1 + l.size) r)

/-- `BODY`: the codes of the symbols in order (30_encoding.md R104). -/
def body (t : Tree) (input : List Byte) : List Bool :=
  input.flatMap fun v => (t.codeOf v).getD []

/-- A bit stream cut into bytes, padded with zero bits (30_encoding.md R98, R106). -/
def packed (bits : List Bool) : List Byte :=
  fullBytes (bits ++ List.replicate (padCount bits.length) false)

/-- `LEN ++ TREE ++ BODY ++ PAD` (30_encoding.md R98). -/
def container (t : Tree) (input : List Byte) : List Byte :=
  packed (wordBits (BitVec.ofNat 32 input.length) ++ t.bits ++ body t input)

/-- The paths lead, one after the other, to leaves of the symbols. -/
def Walks (t : Tree) (paths : List (List Bool)) (out : List Byte) : Prop :=
  List.Forall₂ (fun p v => t.follow p = some (.leaf v)) paths out

/-- The bits begin with a length `L`, and unless it is 0 with a tree the node store can hold and then `L` paths to
leaves; `out` is the symbols of those leaves (45_encoder_decoder.md R212 to R217). What follows is not looked at
(30_encoding.md R110). -/
def Decodes (bits : List Bool) (out : List Byte) : Prop :=
  ∃ (l : BitVec 32) (rest : List Bool), bits = wordBits l ++ rest ∧ out.length = l.toNat ∧
    (l = 0#32 ∨ ∃ (t : Tree) (paths : List (List Bool)) (after : List Bool), t.size ≤ Config.nodeCap ∧
      rest = t.bits ++ (paths.flatten ++ after) ∧ Walks t paths out)

/-- How often `v` occurs (41_frequency.md R153). -/
def occurrences (input : List Byte) (v : Byte) : Nat := input.count v

/-- The bits the reader has not returned yet, in order (40_bitchannel.md R141). -/
def unread (s : State) : List Bool := s.racc.drop s.rdCursor ++ bytesBits (s.src.drop s.srcPos)

end Sys2Proof.Machine
end

