-- ==== Sys2Proof/Machine/TieBreak.lean ====
section
/-! DEFINITION. `TIEBREAK` = `any`: the merge step as a relation (42_treebuilder.md R170). The machine runs the
`reference` heap; this relation says which merges any implementation of the format may make (00_scope.md R14,
93_implementation_defined.md U1). -/

namespace Sys2Proof.Machine

/-- `x` has a weight, and it is "the least in the set" of entries (42_treebuilder.md R170). -/
def IsLeast (nodes : List Node) (x : Nat) (entries : List Nat) : Prop :=
  ∃ w, weight? nodes x = some w ∧ ∀ y ∈ entries, ∃ v, weight? nodes y = some v ∧ w ≤ v

/-- The node store and the entries of the heap as a set. -/
structure Forest where
  nodes   : List Node
  entries : List Nat

/-- The forest of a state: its node store and its heap. -/
def forest (s : State) : Forest := ⟨s.node, s.heap⟩

/-- A merge step: a node of least weight, then one of least weight "in what remains", are replaced by
Internal(w(a) + w(b), left = a, right = b); the order of the entries does not matter (42_treebuilder.md R170). -/
def MergeAny (f g : Forest) : Prop :=
  ∃ a b rest wa wb,
    f.entries.Perm (a :: b :: rest) ∧
    IsLeast f.nodes a (b :: rest) ∧ IsLeast f.nodes b rest ∧
    weight? f.nodes a = some wa ∧ weight? f.nodes b = some wb ∧
    g.nodes = f.nodes ++ [.internal (wa + wb) (some a) (some b)] ∧
    g.entries.Perm (f.nodes.length :: rest)

/-- Merge steps "while more than one node remains" (42_treebuilder.md R172): from the leaves to a single root. -/
def BuildAny (f : Forest) (nodes : List Node) (root : Nat) : Prop :=
  Relation.ReflTransGen MergeAny f ⟨nodes, [root]⟩

end Sys2Proof.Machine
end

