-- ==== Sys2Proof/Safety.lean ====
section
/-! DEFINITION. What the statements speak of: the ranges of the registers, the heap order, the
trees the merges may make, what a run of the machine reaches, and which fields an operation may write. -/

namespace Sys2Proof.Machine

/-- The node an entry of STK names. -/
def StkEntry.index : StkEntry → Nat
  | .visit x => x
  | .build x _ => x
  | .path x _ => x

/-- The ranges 10_state.md gives the registers and tables (R21 to R31, R48 to R53; 45_encoder_decoder.md R226). -/
structure Ranged (s : State) : Prop where
  /-- `WACC.held` is 0 to C (R52) -/
  wacc_le : s.wacc.length ≤ Config.accCap
  /-- `RACC.held` is 0 to C (R53) -/
  racc_le : s.racc.length ≤ Config.accCap
  /-- `RD_CURSOR` is at most C (R53) -/
  cursor_le : s.rdCursor ≤ Config.accCap
  /-- `NN` is 0 to `NODE_CAP` (R24) -/
  node_le : s.node.length ≤ Config.nodeCap
  /-- `HN` is 0 to 256 (R28) -/
  heap_le : s.heap.length ≤ Config.heapCap
  /-- FREQ holds no value, or 256 entries do (R48) -/
  freq_len : s.freq.length = 0 ∨ s.freq.length = Config.nsym
  /-- CODE holds no value, or 256 entries do (R51) -/
  code_len : s.code.length = 0 ∨ s.code.length = Config.nsym
  /-- `TOTAL` fits 32 bits (R22) -/
  total_lt : s.total < 2 ^ Config.lenW
  /-- `N` is 0 to 256 (R23) -/
  n_le : s.n ≤ Config.nsym
  /-- the counts add up to `TOTAL` (41_frequency.md R153) -/
  freq_sum : s.freq.sum = s.total
  /-- a count fits 32 bits (R48) -/
  freq_lt : ∀ c ∈ s.freq, c < 2 ^ Config.cntW
  /-- a weight fits 32 bits (R49) -/
  weight_lt : ∀ d ∈ s.node, ∀ w, d.weight? = some w → w < 2 ^ Config.cntW
  /-- a child of an internal node is an index of NODE (R49) -/
  child_lt : ∀ w l r, .internal w l r ∈ s.node → ∀ x, l = some x ∨ r = some x → x < Config.nodeCap
  /-- so is an entry of HEAP (R50), -/
  entry_lt : ∀ x ∈ s.heap, x < Config.nodeCap
  /-- `ROOT` (R25) -/
  root_lt : ∀ x, s.root = some x → x < Config.nodeCap
  /-- and `CUR` (R26) -/
  cur_lt : ∀ x, s.cur = some x → x < Config.nodeCap
  /-- `SP` is 0 to 511 (R31) -/
  stk_le : s.stk.length ≤ Config.nodeCap
  /-- an entry of STK names an index of NODE (R31) -/
  stk_lt : ∀ e ∈ s.stk, e.index < Config.nodeCap
  /-- below a node that waits for a child no more nodes wait than were read before it (43_treecodec.md R188) -/
  stk_below : ∀ x d st, .build x d :: st <:+ s.stk → st.length ≤ x
  /-- a code is at most 255 bits long (R51) -/
  code_le : ∀ p, some p ∈ s.code → p.length ≤ Config.codeLenMax

/-- The ranges, and how `STATUS` and `RESULT` hang together with `PHASE` (10_state.md R45, R46). -/
structure Inv (s : State) : Prop extends Ranged s where
  /-- "`err` is 0 unless `state` = 3" (R45), and an aborted command has an error code (60_exceptions.md R245) -/
  err_iff : s.err.isSome ↔ s.phase = .error
  /-- "When `STATUS.state` is 0 or 1 it reads 0" (R46) -/
  result_zero : statusState s ≤ 1 → s.result = 0
  /-- the node HEAP.EXTRACTMIN returned is an index of NODE; it becomes `ROOT` (the model's own field, log entry 18) -/
  ret_lt : ∀ x, s.ret = .node x → x < Config.nodeCap

/-- The heap invariant: every entry has a weight and is at least as heavy as its parent (42_treebuilder.md R163). -/
def HeapOrdered (nodes : List Node) (h : List Nat) : Prop :=
  (∀ x ∈ h, (weight? nodes x).isSome) ∧
  ∀ k p c, 1 ≤ k → h[(k - 1) / 2]? = some p → h[k]? = some c → less nodes c p = some false

/-- HEAP.INSERT's sifting: the entry at `k` moves up while it is strictly lighter than its parent; "an entry equal in
weight to its parent stays below it" (42_treebuilder.md R164, R165). -/
inductive SiftsUp (nodes : List Node) : List Nat → Nat → List Nat → Prop
  | top (h : List Nat) : SiftsUp nodes h 0 h
  | stays {h : List Nat} {k x p : Nat} (hk : 1 ≤ k) (hx : h[k]? = some x) (hp : h[(k - 1) / 2]? = some p)
      (hle : less nodes x p = some false) : SiftsUp nodes h k h
  | moves {h h' : List Nat} {k x p : Nat} (hk : 1 ≤ k) (hx : h[k]? = some x) (hp : h[(k - 1) / 2]? = some p)
      (hlt : less nodes x p = some true)
      (next : SiftsUp nodes ((h.set k p).set ((k - 1) / 2) x) ((k - 1) / 2) h') : SiftsUp nodes h k h'

/-- HEAP.EXTRACTMIN's sifting: the entry at `k` moves down while a child is strictly lighter, to the left child "because
the right must be strictly lighter than the left to be chosen" (42_treebuilder.md R164, R166). -/
inductive SiftsDown (nodes : List Node) : List Nat → Nat → List Nat → Prop
  | stays {h : List Nat} {k x : Nat} (hx : h[k]? = some x)
      (hle : ∀ c y, c = 2 * k + 1 ∨ c = 2 * k + 2 → h[c]? = some y → less nodes y x = some false) :
      SiftsDown nodes h k h
  | left {h h' : List Nat} {k x y : Nat} (hx : h[k]? = some x) (hy : h[2 * k + 1]? = some y)
      (hlt : less nodes y x = some true) (hle : ∀ z, h[2 * k + 2]? = some z → less nodes z y = some false)
      (next : SiftsDown nodes ((h.set k y).set (2 * k + 1) x) (2 * k + 1) h') : SiftsDown nodes h k h'
  | right {h h' : List Nat} {k x z : Nat} (hx : h[k]? = some x) (hz : h[2 * k + 2]? = some z)
      (hlt : less nodes z x = some true) (hlt' : ∀ y, h[2 * k + 1]? = some y → less nodes z y = some true)
      (next : SiftsDown nodes ((h.set k z).set (2 * k + 2) x) (2 * k + 2) h') : SiftsDown nodes h k h'

/-- The symbols that occur, in ascending order (42_treebuilder.md R161). -/
def symbols (count : Byte → Nat) : List Byte :=
  ((List.range Config.nsym).map (BitVec.ofNat 8)).filter fun v => decide (0 < count v)

/-- The leaves TB.LEAVES makes: one for each symbol that occurs, with its count (42_treebuilder.md R161). -/
def leafNodes (count : Byte → Nat) : List Node := (symbols count).map fun v => .leaf v (count v)

/-- A tree that merges R170 allows make of the bytes of an input (42_treebuilder.md R170, R172). -/
def LegalTree (input : List Byte) (t : Tree) : Prop :=
  ∃ heap nodes x, heap.Perm (List.range (leafNodes (occurrences input)).length) ∧
    BuildAny ⟨leafNodes (occurrences input), heap⟩ nodes x ∧ Holds nodes x t

/-- The machine gets from `s` to `t` in some number of steps, none of which stops. -/
def Reaches (s t : State) : Prop := ∃ k, Host.Core.run Sys2Proof.core k s = .next t

/-- The host serves every transfer still to come (60_exceptions.md R237). -/
def Serves (s : State) : Prop := ∀ d ∈ s.draws, d = .serves

/-- The host has nothing more to do and fails no transfer. -/
def Undisturbed (s : State) : Prop := s.script = [] ∧ Serves s

/-- From `s` to `t` the writer has been given `bits`: the bits of SINK and then those held are the earlier ones and
then `bits`; fewer than C are held; SINK has grown by whole accumulators, counted in `WR_TOTAL`
(40_bitchannel.md R134). -/
def Appended (bits : List Bool) (s t : State) : Prop :=
  bytesBits t.sink ++ t.wacc = bytesBits s.sink ++ s.wacc ++ bits ∧
  t.wacc.length < Config.accCap ∧
  ∃ k, t.sink.length = s.sink.length + Config.accCap / 8 * k ∧ t.wrTotal = s.wrTotal + Config.accCap / 8 * k

/-- `s` once the bits of `seq` have been pushed up to the flush that the host fails, the one after `m` that it served:
what the served ones took is in SINK, the C bits of the failed one are still held, and the rest of `seq` has not been
pushed (40_bitchannel.md R128, R129; 60_exceptions.md R237). `r` is what the failed write left in SINK. -/
def stoppedWriting (seq : List Bool) (m : Nat) (r : List Byte) (ds : List HostDraw) (s : State) : State :=
  { s with
    wacc := ((s.wacc ++ seq).drop (Config.accCap * m)).take Config.accCap
    sink := s.sink ++ fullBytes ((s.wacc ++ seq).take (Config.accCap * m)) ++ r
    wrTotal := s.wrTotal + Config.accCap / 8 * m
    draws := ds }

/-- The bits the reader has before the read that the host fails, the one after `m` that it served: those not yet consumed
of `RACC`, and those of the reads served (40_bitchannel.md R137). -/
def bitsServed (m : Nat) (s : State) : List Bool :=
  s.racc.drop s.rdCursor ++ bytesBits ((s.src.drop s.srcPos).take (Config.refillBytes * m))

/-- What `RACC` holds after `m` refills (40_bitchannel.md R137). -/
def raccServed (m : Nat) (s : State) : List Bool :=
  if m = 0 then s.racc
  else bytesBits ((s.src.drop (s.srcPos + Config.refillBytes * (m - 1))).take Config.refillBytes)

/-- `s` once the reader has made `m` refills and the host has failed the transfer after them, with `left` bits of `RACC`
not consumed (40_bitchannel.md R137; 60_exceptions.md R237). -/
def stoppedReading (m left : Nat) (ds : List HostDraw) (s : State) : State :=
  { s with
    racc := raccServed m s
    rdCursor := (raccServed m s).length - left
    srcPos := s.srcPos + ((s.src.drop s.srcPos).take (Config.refillBytes * m)).length
    draws := ds }

/-! ### Streams that do not decode -/

/-- The bits of a node token: `INTERNAL`, or `LEAF` of a symbol (30_encoding.md R101, R102). -/
def nodeTokenBits : Option Byte → List Bool
  | none => [false]
  | some v => true :: byteBits v

/-- After the node tokens, read where `k` subtrees are still to come, at least one is (30_encoding.md R100). -/
def StillOpen : Nat → List (Option Byte) → Prop
  | k, [] => 1 ≤ k
  | k, none :: toks => 1 ≤ k ∧ StillOpen (k + 1) toks
  | k, some _ :: toks => 1 ≤ k ∧ StillOpen (k - 1) toks

/-- The bits begin with `n` node tokens that do not complete `k` subtrees, and the flag bit of one more. -/
def OverflowsFrom (k n : Nat) (bits : List Bool) : Prop :=
  ∃ (toks : List (Option Byte)) (flag : Bool) (rest : List Bool), toks.length = n ∧ StillOpen k toks ∧
    bits = toks.flatMap nodeTokenBits ++ flag :: rest

/-- A 512th node would be needed (43_treecodec.md R187, 60_exceptions.md R242, R247). -/
def Overflows (bits : List Bool) : Prop := OverflowsFrom 1 Config.nodeCap bits

/-- How a stream that does not decode fails: the symbols decoded before, and the error (45_encoder_decoder.md R212 to
R215, 43_treecodec.md R187, R189, 60_exceptions.md R246, R247). -/
inductive Fails (bits : List Bool) : List Byte → Err → Prop
  /-- fewer than the 32 bits of the length -/
  | noLength (h : bits.length < 32) : Fails bits [] .endOfInput
  /-- the stream ends before the tree does -/
  | noTree {l : BitVec 32} {rest : List Bool} (hl : l ≠ 0#32) (hb : bits = wordBits l ++ rest)
      (ht : ∀ t : Tree, t.size ≤ Config.nodeCap → ¬ t.bits <+: rest) (ho : ¬ Overflows rest) : Fails bits [] .endOfInput
  /-- the tree has more than 511 nodes -/
  | tooLarge {l : BitVec 32} {rest : List Bool} (hl : l ≠ 0#32) (hb : bits = wordBits l ++ rest)
      (ho : Overflows rest) : Fails bits [] .nodeStoreOverflow
  /-- the stream ends before the code of the next symbol does -/
  | noCode {l : BitVec 32} {t : Tree} {paths : List (List Bool)} {after : List Bool} {out : List Byte}
      (hz : t.size ≤ Config.nodeCap) (hb : bits = wordBits l ++ (t.bits ++ (paths.flatten ++ after)))
      (hw : Walks t paths out) (hl : out.length < l.toNat)
      (hn : ∀ p v, t.follow p = some (.leaf v) → ¬ p <+: after) : Fails bits out .endOfInput

/-! ### Frames -/

/-- The names of the fields of a state. -/
inductive Field where
  | phase | err | result | l | total | n | root | cur | outcnt | srcPos | wrTotal | stk | freq | node | heap | code
  | wacc | racc | rdCursor | src | sink | script | draws | ret
  deriving DecidableEq, Repr

/-- The field an accumulator's bits are in. -/
def accField : Acc → Field
  | .writer => .wacc
  | .reader => .racc

/-- One field is the same in both states. -/
def Field.Same (f : Field) (s t : State) : Prop :=
  match f with
  | .phase => t.phase = s.phase
  | .err => t.err = s.err
  | .result => t.result = s.result
  | .l => t.l = s.l
  | .total => t.total = s.total
  | .n => t.n = s.n
  | .root => t.root = s.root
  | .cur => t.cur = s.cur
  | .outcnt => t.outcnt = s.outcnt
  | .srcPos => t.srcPos = s.srcPos
  | .wrTotal => t.wrTotal = s.wrTotal
  | .stk => t.stk = s.stk
  | .freq => t.freq = s.freq
  | .node => t.node = s.node
  | .heap => t.heap = s.heap
  | .code => t.code = s.code
  | .wacc => t.wacc = s.wacc
  | .racc => t.racc = s.racc
  | .rdCursor => t.rdCursor = s.rdCursor
  | .src => t.src = s.src
  | .sink => t.sink = s.sink
  | .script => t.script = s.script
  | .draws => t.draws = s.draws
  | .ret => t.ret = s.ret

/-- Every field is the same in both states but possibly those of the list. -/
def Only (fs : List Field) (s t : State) : Prop := ∀ f : Field, f ∉ fs → f.Same s t

/-- What the host sees of the run has not changed, or the operation was aborted: `STATUS.err` names an error,
`RESULT` is `WR_TOTAL` and `PHASE` is `ERROR` (60_exceptions.md R243). -/
def SameOrAborted (s t : State) : Prop :=
  (t.phase = s.phase ∧ t.err = s.err ∧ t.result = s.result) ∨
  (t.phase = .error ∧ t.err.isSome ∧ t.result = t.wrTotal ∧ t.ret = s.ret)

/-- A run from `s` that never stops with a fault or a refusal. -/
def SafeRun (s : State) : Prop := ∀ k, ∃ t, Host.Core.run Sys2Proof.core k s = .next t

end Sys2Proof.Machine
end

