-- ==== Sys2Proof/Certificates/Slice0/Obligations.lean ====
section
/-! DEFINITION. The statements for the provers. Each names the rules of spec/ it rests on; where a statement rests on a
choice of the model, its docstring names the log entry. -/

open Sys2Proof Sys2Proof.Machine

/-! ### Encoding -/

/-- Decoding what the encoder writes gives the instruction back, for every instruction and every operand
(30_encoding.md R90, R92, R99 to R106; the operand layout of format UOP is the model's, log entry 2). -/
def Obligations.DecodeEncodeRoundTrip : Prop :=
  ∀ i : Instr, i.wellFormed = true → decode (encode i) = .ok i

/-- Every word the decoder accepts is the encoding of the instruction it answers, and that instruction is well formed: no
two words mean the same, and no operand is out of its range (30_encoding.md R90, R92, R99 to R106). That so holds of
format UOP is the model's choice: R92 gives the operation ids, while the layout of their operands, and that the index of
ACC.BITAT is below 128, are log entry 2. -/
def Obligations.DecodedWordsAreEncodings : Prop :=
  ∀ (e : Enc) (i : Instr), decode e = .ok i → i.wellFormed = true ∧ encode i = e

/-- The table of operation ids (30_encoding.md R92), bit 0 of the id first. -/
def Obligations.OperationIds : Prop :=
  (∀ a, (encode (.accClear a)).bits.take 6 = bitsOfNat 6 0b000000) ∧
  (∀ a, (encode (.accIsFull a)).bits.take 6 = bitsOfNat 6 0b000001) ∧
  (∀ a b, (encode (.accPushBit a b)).bits.take 6 = bitsOfNat 6 0b000010) ∧
  (∀ a i, (encode (.accBitAt a i)).bits.take 6 = bitsOfNat 6 0b000011) ∧
  (encode .wrFlush).bits.take 6 = bitsOfNat 6 0b000100 ∧
  (∀ seq, (encode (.wrWriteBits seq)).bits.take 6 = bitsOfNat 6 0b000101) ∧
  (∀ v, (encode (.wrWriteByte v)).bits.take 6 = bitsOfNat 6 0b000110) ∧
  (encode .wrFinish).bits.take 6 = bitsOfNat 6 0b000111 ∧
  (encode .rdRefill).bits.take 6 = bitsOfNat 6 0b001000 ∧
  (encode .rdPopBit).bits.take 6 = bitsOfNat 6 0b001001 ∧
  (encode .rdPopByte).bits.take 6 = bitsOfNat 6 0b001010 ∧
  (encode .freqScan).bits.take 6 = bitsOfNat 6 0b010000 ∧
  (∀ x, (encode (.heapInsert x)).bits.take 6 = bitsOfNat 6 0b011000) ∧
  (encode .heapExtractMin).bits.take 6 = bitsOfNat 6 0b011001 ∧
  (encode .tbLeaves).bits.take 6 = bitsOfNat 6 0b011010 ∧
  (encode .tbMerge).bits.take 6 = bitsOfNat 6 0b011011 ∧
  (encode .tbBuild).bits.take 6 = bitsOfNat 6 0b011100 ∧
  (encode .tcSerialize).bits.take 6 = bitsOfNat 6 0b100000 ∧
  (encode .tcDeserialize).bits.take 6 = bitsOfNat 6 0b100001 ∧
  (encode .ctDerive).bits.take 6 = bitsOfNat 6 0b101000 ∧
  (encode .encLen).bits.take 6 = bitsOfNat 6 0b110000 ∧
  (encode .encBody).bits.take 6 = bitsOfNat 6 0b110001 ∧
  (encode .decLen).bits.take 6 = bitsOfNat 6 0b110010 ∧
  (encode .decWalk).bits.take 6 = bitsOfNat 6 0b110011

/-- An operation id that is not in the table names nothing: the decoder refuses it by name, and a step that meets it
stops (30_encoding.md R92, 93_implementation_defined.md U12; the line that issues a word is the model's, log entry 3). -/
def Obligations.UnknownOperationIdsRefused : Prop :=
  ∀ (n : Nat) (ops : List Bool) (s : State) (rest : List Line), n < 64 →
    n ∉ [0, 1, 2, 3, 4, 5, 6, 7, 8, 9, 10, 16, 24, 25, 26, 27, 28, 32, 33, 40, 48, 49, 50, 51] →
    s.script = .issue ⟨.uop, bitsOfNat 6 n ++ ops⟩ :: rest →
    step s = .refused (.undefinedEncoding (.noSuchOpid n))

/-- The tokens of the container: the encoding of a token is the bits the spec gives it (30_encoding.md R99, R101, R102,
R106; 20_memory.md R62). -/
def Obligations.TokenBits : Prop :=
  (∀ (l : BitVec 32) (i : Nat), i < 32 → (encode (.len l)).bits[i]? = some (l.getLsbD i)) ∧
  (∀ l : BitVec 32, (encode (.len l)).bits.length = 32) ∧
  (encode .internal).bits = [false] ∧
  (∀ v : Byte, (encode (.leaf v)).bits = [true, v.getLsbD 0, v.getLsbD 1, v.getLsbD 2, v.getLsbD 3, v.getLsbD 4,
    v.getLsbD 5, v.getLsbD 6, v.getLsbD 7]) ∧
  (∀ p, (encode (.code p)).bits = p) ∧
  ∀ z, (encode (.pad z)).bits = List.replicate z false

/-- A few words written out from the encoding tables decode to the instructions they stand for (30_encoding.md R90,
R92, R99 to R106). -/
def Obligations.SpecWordsDecode : Prop :=
  decode ⟨.cmd, [true, false]⟩ = .ok .compress ∧
  decode ⟨.cmd, [false, true]⟩ = .ok .decompress ∧
  decode ⟨.uop, [false, false, true, false, false, false]⟩ = .ok .wrFlush ∧
  decode ⟨.uop, [true, false, false, true, false, false]⟩ = .ok .rdPopBit ∧
  decode ⟨.uop, [false, false, false, false, true, false]⟩ = .ok .freqScan ∧
  decode ⟨.uop, [true, true, false, true, true, false]⟩ = .ok .tbMerge ∧
  decode ⟨.uop, [true, false, false, false, false, true]⟩ = .ok .tcDeserialize ∧
  decode ⟨.uop, [false, false, false, true, false, true]⟩ = .ok .ctDerive ∧
  decode ⟨.uop, [true, true, false, false, true, true]⟩ = .ok .decWalk ∧
  decode ⟨.nodeTok, [false]⟩ = .ok .internal ∧
  decode ⟨.nodeTok, [true, true, false, false, false, false, false, true, false]⟩ = .ok (.leaf 0x41#8)

/-! ### Steps and the host -/

/-- When the next scenario line is a word that decodes to an instruction, or a write of its code to `CMD`, the step is
exec of that instruction with the line taken; the word of a table row placed by `withFetchWord` runs the instruction
the decoder reads from the row (10_state.md R44, 30_encoding.md R90, R115). The lines, `withFetchWord` and that a write
of `CMD` takes bits 1:0 are the model's: log entries 1, 3, 31. -/
def Obligations.StepRunsDecodedWord : Prop :=
  (∀ (s : State) (w : Enc) (i : Instr) (rest : List Line), decode w = .ok i → s.script = .issue w :: rest →
    step s = exec i { s with script := rest }) ∧
  (∀ (s : State) (v : BitVec 64) (i : Instr) (rest : List Line),
    decode ⟨.cmd, [v.getLsbD 0, v.getLsbD 1]⟩ = .ok i → s.script = .write .cmd v :: rest →
    step s = exec i { s with script := rest }) ∧
  ∀ (s : State) (nbits w : Nat) (i : Instr), decodeTableWord nbits w = some i →
    step (s.withFetchWord nbits w) = exec i s

/-- Where the host does nothing, the sequencer starts the operation of the phase, and the transition of the phase
follows it (10_state.md R40, 30_encoding.md R92); where the core waits, nothing changes (60_exceptions.md R249). That a
step is one unit operation is the model's choice: log entry 10. -/
def Obligations.SequencerRunsThePhase : Prop :=
  ∀ s s0 : State, ((s.script = [] ∧ s0 = s) ∨ ∃ rest, s.script = .quiet :: rest ∧ s0 = { s with script := rest }) →
    (s.phase = .cFreq → step s = sequenced (exec .freqScan s0)) ∧
    (s.phase = .cLen → step s = sequenced (exec .encLen s0)) ∧
    (s.phase = .cLeaves → step s = sequenced (exec .tbLeaves s0)) ∧
    (s.phase = .cMerge → 1 < s.heap.length → step s = sequenced (exec .tbMerge s0)) ∧
    (s.phase = .cMerge → s.heap.length ≤ 1 → step s = sequenced (exec .heapExtractMin s0)) ∧
    (s.phase = .cSer → step s = sequenced (exec .tcSerialize s0)) ∧
    (s.phase = .cCodes → step s = sequenced (exec .ctDerive s0)) ∧
    (s.phase = .cBody → s.outcnt < s.l.toNat → step s = sequenced (exec .encBody s0)) ∧
    (s.phase = .cFin → step s = sequenced (exec .wrFinish s0)) ∧
    (s.phase = .dLen → step s = sequenced (exec .decLen s0)) ∧
    (s.phase = .dTree → step s = sequenced (exec .tcDeserialize s0)) ∧
    (s.phase = .dWalk → s.outcnt < s.l.toNat → step s = sequenced (exec .decWalk s0)) ∧
    (s.phase = .idle ∨ s.phase = .done ∨ s.phase = .error → step s = .next s0)

/-- The transitions of `PHASE` (45_encoder_decoder.md R218, R219), and the only other way out of a busy phase, an abort
(R220). -/
def Obligations.SequencerTransitions : Prop :=
  ∀ s t : State, s.script = [] → busy s = true → step s = .next t →
    (t.phase = .error ∧ t.err.isSome ∧ t.result = t.wrTotal) ∨
    (t.err = s.err ∧
      match s.phase with
      | .cFreq => t.phase = .cLen ∧ t.l = BitVec.ofNat 32 t.total
      | .cLen => t.phase = if t.l = 0#32 then .cFin else .cLeaves
      | .cLeaves => t.phase = .cMerge
      | .cMerge =>
        if 1 < s.heap.length then t.phase = .cMerge
        else t.phase = .cSer ∧ t.heap = [] ∧ t.root.isSome ∧ t.root = s.heap.head?
      | .cSer => t.phase = .cCodes
      | .cCodes => t.phase = .cBody ∧ t.srcPos = 0 ∧ t.outcnt = 0
      | .cBody => t.phase = if t.outcnt < t.l.toNat then .cBody else .cFin
      | .cFin => t.phase = .done ∧ t.result = t.wrTotal
      | .dLen => if t.l = 0#32 then t.phase = .done ∧ t.result = t.wrTotal else t.phase = .dTree
      | .dTree => t.phase = .dWalk ∧ t.outcnt = 0
      | .dWalk => if t.outcnt < t.l.toNat then t.phase = .dWalk else t.phase = .done ∧ t.result = t.wrTotal
      | .idle => False
      | .done => False
      | .error => False)

/-- What the host reads: `CMD` returns 0, `STATUS` its two fields, `RESULT` its value; a write to `STATUS` or `RESULT`
changes nothing (10_state.md R44 to R46, 60_exceptions.md R236). That the value read goes to the model's own field is log
entry 18. -/
def Obligations.HostRegisterAccess : Prop :=
  ∀ (s : State) (rest : List Line),
    (s.script = .read .cmd :: rest → step s = .next { s with script := rest, ret := .word 0#64 }) ∧
    (s.script = .read .status :: rest → ∃ v : BitVec 64,
      step s = .next { s with script := rest, ret := .word v } ∧ v.toNat < 32 ∧
      v.toNat % 4 = (match s.phase with | .idle => 0 | .done => 2 | .error => 3 | _ => 1) ∧
      v.toNat / 4 = (match s.err with
        | none => 0
        | some .ioError => 1
        | some .endOfInput => 2
        | some .capacityExceeded => 3
        | some .outOfRange => 4
        | some .nodeStoreOverflow => 5)) ∧
    (s.script = .read .result :: rest →
      step s = .next { s with script := rest, ret := .word (BitVec.ofNat 64 s.result) }) ∧
    ∀ v : BitVec 64, s.script = .write .status v :: rest ∨ s.script = .write .result v :: rest →
      step s = .next { s with script := rest }

/-- Hardware reset: the values of the registers, and nothing held in `ROOT`, `CUR`, the tables, the stack and the
accumulators; after it the core waits (70_reset_and_hazards.md R265). -/
def Obligations.HardwareReset : Prop :=
  (∀ s t : State, t = State.reset ∨ t = hardReset s →
    t.phase = .idle ∧ statusReg t = 0#5 ∧ t.err = none ∧ t.result = 0 ∧
    t.l = 0#32 ∧ t.total = 0 ∧ t.n = 0 ∧ t.node.length = 0 ∧ t.outcnt = 0 ∧ t.heap.length = 0 ∧ t.srcPos = 0 ∧
    t.wrTotal = 0 ∧ t.stk.length = 0 ∧ t.wacc.length = 0 ∧ t.racc.length = 0 ∧ t.rdCursor = 0 ∧
    t.root = none ∧ t.cur = none ∧
    (∀ x : Nat, t.freq[x]? = none ∧ t.node[x]? = none ∧ t.heap[x]? = none ∧ t.code[x]? = none ∧ t.stk[x]? = none ∧
      t.wacc[x]? = none ∧ t.racc[x]? = none) ∧
    (t.script = [] → step t = .next t))

/-- The lines with which the outside world acts on the machine. A hardware reset, at any moment, gives every register and
table its reset value and leaves SRC, SINK, the lines and the answers still to come as they are (70_reset_and_hazards.md
R265, R268). Where the core is not busy SRC and SINK are bound, and nothing else changes; where it is, the line is
refused (R270; 93_implementation_defined.md U11). The lines are the model's: log entries 13, 30. -/
def Obligations.ResetAndBindLines : Prop :=
  ∀ (s : State) (rest : List Line),
    (s.script = .reset :: rest → step s = .next (hardReset { s with script := rest }) ∧
      hardReset { s with script := rest } =
        { State.reset with src := s.src, sink := s.sink, script := rest, draws := s.draws }) ∧
    ∀ src sink : List Byte, s.script = .bind src sink :: rest →
      (s.phase = .idle ∨ s.phase = .done ∨ s.phase = .error →
        step s = .next { s with script := rest, src := src, sink := sink }) ∧
      (s.phase ≠ .idle → s.phase ≠ .done → s.phase ≠ .error → step s = .refused .bindWhileBusy)

/-- COMPRESS and DECOMPRESS are accepted when the core is not busy: every piece of state takes its command-start value
and the phase is the command's first (10_state.md R44, 70_reset_and_hazards.md R266, R267); SRC, SINK and what the host
will do stay. COMPRESS has no meaning on more than 2^32 − 1 bytes (93_implementation_defined.md U4). That the last result
is cleared, and that the run follows in further steps, is the model's choice: log entries 10, 14, 32. -/
def Obligations.CommandAccepted : Prop :=
  ∀ s : State, s.phase = .idle ∨ s.phase = .done ∨ s.phase = .error →
    (s.src.length ≤ 2 ^ 32 - 1 → exec .compress s = .next
      { phase := .cFreq, err := none, result := 0, l := 0#32, total := 0, n := 0, root := none, cur := none,
        outcnt := 0, srcPos := 0, wrTotal := 0, stk := [], freq := List.replicate 256 0, node := [], heap := [],
        code := List.replicate 256 none, wacc := [], racc := [], rdCursor := 0, src := s.src, sink := s.sink,
        script := s.script, draws := s.draws, ret := .nothing }) ∧
    (2 ^ 32 ≤ s.src.length → exec .compress s = .refused .inputTooLong) ∧
    exec .decompress s = .next
      { phase := .dLen, err := none, result := 0, l := 0#32, total := 0, n := 0, root := none, cur := none,
        outcnt := 0, srcPos := 0, wrTotal := 0, stk := [], freq := List.replicate 256 0, node := [], heap := [],
        code := List.replicate 256 none, wacc := [], racc := [], rdCursor := 0, src := s.src, sink := s.sink,
        script := s.script, draws := s.draws, ret := .nothing }

/-- A command written while the core is busy is ignored, with no change of any state (10_state.md R44). -/
def Obligations.CommandIgnoredWhileBusy : Prop :=
  ∀ s : State, s.phase ≠ .idle → s.phase ≠ .done → s.phase ≠ .error →
    exec .compress s = .next s ∧ exec .decompress s = .next s

/-- The command code 11 is reserved, and the four codes are all there is; `NOP` and the reserved code change no state, in
any phase, and raise no error (30_encoding.md R96). -/
def Obligations.NopAndReservedChangeNothing : Prop :=
  (∀ bits i, decode ⟨.cmd, bits⟩ = .ok i →
    (bits = [false, false] ∧ i = .nop) ∨ (bits = [true, false] ∧ i = .compress) ∨
    (bits = [false, true] ∧ i = .decompress) ∨ (bits = [true, true] ∧ i = .reservedCmd3)) ∧
  ∀ s : State, exec .nop s = .next s ∧ exec .reservedCmd3 s = .next s

/-! ### The accumulator -/

/-- `ACC.CLEAR`: no bit is held afterwards, `isFull` is false, nothing else changes (40_bitchannel.md R121). -/
def Obligations.AccClear : Prop :=
  ∀ (a : Acc) (s : State), (encode (.accClear a)).bits.take 6 = [false, false, false, false, false, false] ∧
    ∃ t, exec (.accClear a) s = .next t ∧ acc a t = [] ∧ isFull a t = false ∧ Only [accField a] s t

/-- `ACC.ISFULL`: whether `held` is C = 64, and no state changes but the result of the line, which is the model's field
(40_bitchannel.md R122; log entry 18). -/
def Obligations.AccIsFull : Prop :=
  ∀ (a : Acc) (s : State), (encode (.accIsFull a)).bits.take 6 = [true, false, false, false, false, false] ∧
    exec (.accIsFull a) s = .next { s with ret := .bit (decide ((acc a s).length = 64)) }

/-- `ACC.PUSHBIT`: on a full accumulator `CapacityExceeded` and nothing written; otherwise the bit is the next one held
(40_bitchannel.md R123). -/
def Obligations.AccPushBit : Prop :=
  ∀ (a : Acc) (b : Bool) (s : State), (encode (.accPushBit a b)).bits.take 6 = [false, true, false, false, false, false] ∧
    ((acc a s).length = 64 → exec (.accPushBit a b) s = .next (abort .capacityExceeded s)) ∧
    ((acc a s).length < 64 → ∃ t, exec (.accPushBit a b) s = .next t ∧ acc a t = acc a s ++ [b] ∧
      (acc a t).length = (acc a s).length + 1 ∧ (isFull a t = true ↔ (acc a s).length + 1 = 64) ∧
      Only [accField a] s t)

/-- `ACC.BITAT`: bit i where i < `held`, otherwise `OutOfRange`; it changes no state but the result of the line
(40_bitchannel.md R124; log entry 18). -/
def Obligations.AccBitAt : Prop :=
  ∀ (a : Acc) (i : Nat) (s : State), (encode (.accBitAt a i)).bits.take 6 = [true, true, false, false, false, false] ∧
    (∀ h : i < (acc a s).length, exec (.accBitAt a i) s = .next { s with ret := .bit ((acc a s)[i]) }) ∧
    ((acc a s).length ≤ i → exec (.accBitAt a i) s = .next (abort .outOfRange s))

/-! ### The writer -/

/-- `WR.FLUSH`: the full bytes of `WACC` go to SINK, at its end, `WR_TOTAL` counts them, and `WACC` is empty; byte k is
Σ bit(8k + j) · 2^j; where the host fails the write, `WR_TOTAL` and `WACC` are unchanged (40_bitchannel.md R128,
R120). -/
def Obligations.WriterFlush : Prop :=
  ∀ s : State,
    (Serves s → ∃ d, d <:+ s.draws ∧ exec .wrFlush s = .next { s with
      wacc := [], sink := s.sink ++ fullBytes s.wacc, wrTotal := s.wrTotal + s.wacc.length / 8, draws := d }) ∧
    (∀ k, k < s.wacc.length / 8 →
      (fullBytes s.wacc)[k]? = some (BitVec.ofNat 8 (natOfBits ((s.wacc.drop (8 * k)).take 8)))) ∧
    (fullBytes s.wacc).length = s.wacc.length / 8 ∧
    (∀ r ds, s.draws = .fails r :: ds → 8 ≤ s.wacc.length →
      exec .wrFlush s = .next (abort .ioError { s with sink := s.sink ++ r, draws := ds }))

/-- `WR.WRITEBITS`, `WR.WRITEBYTE` and `ENC.LEN` append bits to the stream: the bits of SINK followed by the bits held
are the earlier ones followed by the new ones, fewer than C stay held, and nothing else changes (40_bitchannel.md R129,
R130, R134; 45_encoder_decoder.md R207). -/
def Obligations.WriterAppends : Prop :=
  ∀ s : State, Serves s → s.wacc.length < 64 →
    (∀ seq, ∃ t, exec (.wrWriteBits seq) s = .next t ∧ Appended seq s t ∧
      Only [.wacc, .sink, .wrTotal, .draws] s t) ∧
    (∀ v : Byte, ∃ t, exec (.wrWriteByte v) s = .next t ∧
      Appended [v.getLsbD 0, v.getLsbD 1, v.getLsbD 2, v.getLsbD 3, v.getLsbD 4, v.getLsbD 5, v.getLsbD 6,
        v.getLsbD 7] s t ∧
      Only [.wacc, .sink, .wrTotal, .draws] s t) ∧
    ∃ t, exec .encLen s = .next t ∧ Appended ((List.range 32).map fun i => s.l.getLsbD i) s t ∧
      Only [.wacc, .sink, .wrTotal, .draws] s t

/-- `WR.WRITEBYTE v` is `WR.WRITEBITS` of the eight bits of v, least significant first (40_bitchannel.md R130). -/
def Obligations.WriteByteIsWriteBits : Prop :=
  ∀ (v : Byte) (s : State), (encode (.wrWriteByte v)).bits.take 6 = [false, true, true, false, false, false] ∧
    exec (.wrWriteByte v) s = exec (.wrWriteBits [v.getLsbD 0, v.getLsbD 1, v.getLsbD 2, v.getLsbD 3, v.getLsbD 4,
      v.getLsbD 5, v.getLsbD 6, v.getLsbD 7]) s

/-- `WR.FINISH`: (8 − (held mod 8)) mod 8 zero bits, then everything held goes to SINK, and the count returned is
`WR_TOTAL` (40_bitchannel.md R131, R133). -/
def Obligations.WriterFinish : Prop :=
  ∀ s : State, Serves s → s.wacc.length < 64 → ∃ t, exec .wrFinish s = .next t ∧
    bytesBits t.sink = bytesBits s.sink ++ s.wacc ++ List.replicate ((8 - s.wacc.length % 8) % 8) false ∧
    t.wacc = [] ∧ t.wrTotal = s.wrTotal + (s.wacc.length + 7) / 8 ∧ t.ret = .count t.wrTotal ∧
    Only [.wacc, .sink, .wrTotal, .draws, .ret] s t

/-- The tokens outside a phase of DECOMPRESS: their bits are written through the writer, and `PAD` pushes its zero
bits. That a token is run so is the model's choice (log entry 4; 30_encoding.md R98 to R106). -/
def Obligations.TokensWritten : Prop :=
  ∀ s : State, Serves s → s.wacc.length < 64 → s.phase ≠ .dLen → s.phase ≠ .dTree → s.phase ≠ .dWalk →
    (∀ i, (∃ l, i = .len l) ∨ i = .internal ∨ (∃ v, i = .leaf v) ∨ (∃ p, i = .code p) →
      ∃ t, exec i s = .next t ∧ Appended (encode i).bits s t ∧ Only [.wacc, .sink, .wrTotal, .draws] s t) ∧
    ∀ z, s.wacc.length + z ≤ 64 → exec (.pad z) s = .next { s with wacc := s.wacc ++ List.replicate z false }

/-! ### The reader -/

/-- `RD.REFILL`: the next bytes of SRC, at most eight, become the bits of `RACC`, least significant first, and the
cursor is 0; with no byte left `EndOfInput`, and where the host fails the read `IOError`, with `RACC` and `RD_CURSOR`
unchanged (40_bitchannel.md R137). -/
def Obligations.ReaderRefill : Prop :=
  ∀ s : State,
    (Serves s → s.srcPos < s.src.length → ∃ d, d <:+ s.draws ∧ exec .rdRefill s = .next { s with
      racc := bytesBits ((s.src.drop s.srcPos).take 8), rdCursor := 0,
      srcPos := s.srcPos + min 8 (s.src.length - s.srcPos), draws := d }) ∧
    (Serves s → s.src.length ≤ s.srcPos → ∃ d, d <:+ s.draws ∧
      exec .rdRefill s = .next (abort .endOfInput { s with draws := d })) ∧
    ∀ r ds, s.draws = .fails r :: ds → exec .rdRefill s = .next (abort .ioError { s with draws := ds })

/-- `RD.POPBIT` and `RD.POPBYTE` return the next bits not yet returned, in the order of the stream; with no bit left
`RD.POPBIT` raises `EndOfInput` and consumes nothing, and with fewer than eight left `RD.POPBYTE` raises it with them
consumed (40_bitchannel.md R138 to R141). -/
def Obligations.ReaderPops : Prop :=
  ∀ s : State, Serves s → s.rdCursor ≤ s.racc.length →
    (∀ b rest, unread s = b :: rest → ∃ t, exec .rdPopBit s = .next t ∧ t.ret = .bit b ∧ unread t = rest ∧
      t.rdCursor ≤ t.racc.length ∧ Only [.racc, .rdCursor, .srcPos, .draws, .ret] s t) ∧
    (unread s = [] → ∃ d, d <:+ s.draws ∧ exec .rdPopBit s = .next (abort .endOfInput { s with draws := d })) ∧
    (∀ (v : Byte) (rest : List Bool), unread s = [v.getLsbD 0, v.getLsbD 1, v.getLsbD 2, v.getLsbD 3, v.getLsbD 4,
        v.getLsbD 5, v.getLsbD 6, v.getLsbD 7] ++ rest →
      ∃ t, exec .rdPopByte s = .next t ∧ t.ret = .byte v ∧ unread t = rest ∧ t.rdCursor ≤ t.racc.length ∧
        Only [.racc, .rdCursor, .srcPos, .draws, .ret] s t) ∧
    ((unread s).length < 8 → ∃ t, exec .rdPopByte s = .next (abort .endOfInput t) ∧ unread t = [] ∧
      Only [.racc, .rdCursor, .srcPos, .draws] s t)

/-- The bits a DECOMPRESS has to read: bit k of the stream is bit k mod 8 of `SRC[k div 8]` (20_memory.md R60,
40_bitchannel.md R141). -/
def Obligations.StreamBitOrder : Prop :=
  ∀ (s : State) (k : Nat), (unread (commandStart .dLen s))[k]? = s.src[k / 8]?.map fun v => v.getLsbD (k % 8)

/-! ### The frequency pass -/

/-- `FREQ.SCAN`: `FREQ[v]` is the number of bytes equal to v from `SRC_POS` to the end of SRC, `TOTAL` their number and
the sum of the counts; at the start of a command that is all of SRC (41_frequency.md R151 to R153). A pass over more
than 2^32 − 1 bytes has no meaning (R154, 93_implementation_defined.md U4; log entry 14). -/
def Obligations.FrequencyPass : Prop :=
  ∀ s : State, Serves s →
    ((s.src.drop s.srcPos).length < 2 ^ 32 → ∃ t, exec .freqScan s = .next t ∧
      t.freq.length = 256 ∧ (∀ v : Byte, t.freq[v.toNat]? = some ((s.src.drop s.srcPos).count v)) ∧
      t.total = (s.src.drop s.srcPos).length ∧ t.freq.sum = t.total ∧
      t.srcPos = s.srcPos + (s.src.drop s.srcPos).length ∧ Only [.freq, .total, .srcPos, .draws] s t) ∧
    (2 ^ 32 ≤ (s.src.drop s.srcPos).length → exec .freqScan s = .refused .inputTooLong)

/-! ### The tree builder -/

/-- `HEAP.INSERT` of an entry with a weight adds it at the end and sifts it up while it is strictly lighter than its
parent, so that one equal in weight to its parent stays below it; the heap's order is kept. An index that is no entry of
NODE, and an entry more than 256, stop the model (42_treebuilder.md R163 to R165, R168, R176; 20_memory.md R84; log entry
26). -/
def Obligations.HeapInsert : Prop :=
  ∀ (s : State) (x : Nat),
    (HeapOrdered s.node s.heap → (weight? s.node x).isSome → s.heap.length < 256 →
      ∃ h, exec (.heapInsert x) s = .next { s with heap := h } ∧ h.Perm (x :: s.heap) ∧ HeapOrdered s.node h ∧
        SiftsUp s.node (s.heap ++ [x]) s.heap.length h ∧
        ∀ p, s.heap[(s.heap.length - 1) / 2]? = some p → weight? s.node x = weight? s.node p → h = s.heap ++ [x]) ∧
    (s.node.length ≤ x → exec (.heapInsert x) s = .fault .nodeIndex) ∧
    (x < s.node.length → 256 ≤ s.heap.length → exec (.heapInsert x) s = .fault .heapIndex)

/-- `HEAP.EXTRACTMIN` returns an entry whose weight is not greater than any other in the heap, takes it out, and the
invariant of the heap holds again (42_treebuilder.md R167). It is the first entry; the last moves to the top and sifts
down, to the left of two equally light children (R164, R166, R168, R176). -/
def Obligations.HeapExtractMin : Prop :=
  ∀ s : State, HeapOrdered s.node s.heap → s.heap ≠ [] → ∃ x rest h,
    exec .heapExtractMin s = .next { s with heap := h, ret := .node x } ∧ s.heap = x :: rest ∧ h.Perm rest ∧
    IsLeast s.node x rest ∧ HeapOrdered s.node h ∧
    ∀ ini last, rest = ini ++ [last] → SiftsDown s.node (last :: ini) 0 h ∧
      ∀ a b, ini[0]? = some a → ini[1]? = some b → weight? s.node a = weight? s.node b →
        less s.node a last = some true → h[0]? = some a

/-- The operations of the tree builder whose precondition does not hold have no meaning: they stop by name
(42_treebuilder.md R166, R169, R172; 93_implementation_defined.md U15; log entries 5, 16). -/
def Obligations.TreeBuilderPreconditions : Prop :=
  (∀ s : State, s.heap = [] → exec .heapExtractMin s = .refused .outOfOrder) ∧
  (∀ s : State, s.heap.length < 2 → exec .tbMerge s = .refused .outOfOrder) ∧
  (∀ s : State, s.freq = [] → exec .tbLeaves s = .fault (.noValue .freqEntry) ∧
    exec .tbBuild s = .fault (.noValue .freqEntry)) ∧
  ∀ s : State, s.freq = List.replicate 256 0 → exec .tbBuild s = .refused .outOfOrder

/-- `TB.LEAVES`: one leaf for each symbol that occurs, in ascending order, with its count, each in the heap, whose order
holds; `N` is their number (42_treebuilder.md R161). -/
def Obligations.TreeLeaves : Prop :=
  ∀ (s : State) (count : Byte → Nat), s.freq.length = 256 → (∀ v : Byte, s.freq[v.toNat]? = some (count v)) →
    ∃ h, exec .tbLeaves s = .next { s with node := leafNodes count, heap := h, n := (symbols count).length } ∧
      h.Perm (List.range (symbols count).length) ∧ HeapOrdered (leafNodes count) h

/-- `TB.MERGE`: an entry of least weight and then one of least weight in what remains are replaced by a new internal
node whose weight is their sum, the first its left child and the second its right; the heap's order holds. So every
merge of this hardware is one the tie-break relation allows (42_treebuilder.md R169, R170). A sum that does not fit 32
bits, which R171 rules out for the sequencer's merges, is a free value of 32 bits (log entry 33). -/
def Obligations.TreeMerge : Prop :=
  ∀ s : State, HeapOrdered s.node s.heap → 2 ≤ s.heap.length → s.heap.length ≤ 256 → s.node.length < 511 →
    ∃ a b rest wa wb w h,
      s.heap.Perm (a :: b :: rest) ∧ IsLeast s.node a (b :: rest) ∧ IsLeast s.node b rest ∧
      weight? s.node a = some wa ∧ weight? s.node b = some wb ∧ w < 2 ^ 32 ∧
      exec .tbMerge s = .next { s with node := s.node ++ [.internal w (some a) (some b)], heap := h } ∧
      h.Perm (s.node.length :: rest) ∧ HeapOrdered (s.node ++ [.internal w (some a) (some b)]) h ∧
      (wa + wb < 2 ^ 32 → w = wa + wb ∧ MergeAny (forest s) ⟨s.node ++ [.internal w (some a) (some b)], h⟩)

/-- `TB.BUILD`: a strict binary tree under `ROOT` whose leaves are the symbols that occur, once each, with 2n − 1
entries of NODE, whose root's weight is the sum of the counts; it is one the tie-break relation allows, and the heap is
empty (42_treebuilder.md R170 to R173). The counts add up to a number of 32 bits in every state of `InvariantKept`
(R171). -/
def Obligations.TreeBuild : Prop :=
  ∀ (s : State) (count : Byte → Nat), s.freq.length = 256 → (∀ v : Byte, s.freq[v.toNat]? = some (count v)) →
    s.freq.sum < 2 ^ 32 → (∃ v, 0 < count v) → ∃ nodes x t leafHeap,
      exec .tbBuild s = .next { s with node := nodes, heap := [], n := (symbols count).length, root := some x } ∧
      Holds nodes x t ∧ nodes.length = t.size ∧ nodes.length + 1 = 2 * (symbols count).length ∧
      t.leaves.Perm (symbols count) ∧ t.leaves.Nodup ∧ (∀ v, v ∈ t.leaves ↔ 0 < count v) ∧
      weight? nodes x = some (t.weight count) ∧ t.weight count = s.freq.sum ∧
      leafHeap.Perm (List.range (symbols count).length) ∧ BuildAny ⟨leafNodes count, leafHeap⟩ nodes x

/-! ### The tree codec and the code table -/

/-- `TC.SERIALIZE` writes the preorder bits of the tree under `ROOT`, 10n − 1 of them for n leaves, and changes nothing
but the writer's state, SINK and the empty stack (43_treecodec.md R181, R183); without a tree it has no meaning
(93_implementation_defined.md U6). -/
def Obligations.TreeSerialize : Prop :=
  (∀ (s : State) (x : Nat) (t : Tree), Serves s → s.wacc.length < 64 → s.root = some x → Holds s.node x t →
    t.size ≤ s.node.length → t.bits.length + 1 = 10 * t.leaves.length ∧
    ∃ u, exec .tcSerialize s = .next u ∧ Appended t.bits s u ∧ u.stk = [] ∧
      Only [.wacc, .sink, .wrTotal, .draws, .stk] s u) ∧
  ∀ s : State, s.root = none → exec .tcSerialize s = .refused .noTree

/-- `TC.DESERIALIZE` reads exactly the bits of a tree and builds that tree, in preorder from entry 0, every weight 0
(43_treecodec.md R185, R186, R190, R191). -/
def Obligations.TreeDeserialize : Prop :=
  ∀ (s : State) (t : Tree) (rest : List Bool), Serves s → s.rdCursor ≤ s.racc.length → unread s = t.bits ++ rest →
    t.size ≤ 511 → ∃ u, exec .tcDeserialize s = .next u ∧ unread u = rest ∧ u.rdCursor ≤ u.racc.length ∧
      u.root = some 0 ∧ u.node = treeNodes 0 t ∧ Holds u.node 0 t ∧ u.node.length = t.size ∧
      (∀ d ∈ u.node, d.weight? = some 0) ∧ u.stk = [] ∧
      Only [.racc, .rdCursor, .srcPos, .draws, .node, .stk, .root] s u

/-- What TC.SERIALIZE writes for a tree, TC.DESERIALIZE reads back as the same tree: fed to a reader through SINK, the
bits give the shape and the symbols again (43_treecodec.md R191). -/
def Obligations.SerializeThenDeserialize : Prop :=
  ∀ (s : State) (x : Nat) (t : Tree), Serves s → s.wacc = [] → s.sink = [] → s.root = some x → Holds s.node x t →
    t.size ≤ s.node.length → s.node.length ≤ 511 → ∃ u v,
      exec .tcSerialize s = .next u ∧ exec .wrFinish u = .next v ∧
      ∀ r : State, Serves r → r.racc = [] → r.rdCursor = 0 → r.srcPos = 0 → r.src = v.sink →
        ∃ w, exec .tcDeserialize r = .next w ∧ w.root = some 0 ∧ Holds w.node 0 t

/-- `TC.DESERIALIZE` on a stream that has no tree of at most 511 nodes: `NodeStoreOverflow`, with a full node store,
where a 512th node is begun, and `EndOfInput`, with every bit consumed, where the stream ends before; a larger tree is of
the first kind (43_treecodec.md R187, R189, R192; 60_exceptions.md R242, R247). -/
def Obligations.TreeDeserializeErrors : Prop :=
  ∀ s : State, Serves s → s.rdCursor ≤ s.racc.length →
    (Overflows (unread s) → ∃ u, exec .tcDeserialize s = .next (abort .nodeStoreOverflow u) ∧ u.node.length = 511 ∧
      Only [.racc, .rdCursor, .srcPos, .draws, .node, .stk] s u) ∧
    ((∀ t : Tree, t.size ≤ 511 → ¬ t.bits <+: unread s) → ¬ Overflows (unread s) →
      ∃ u, exec .tcDeserialize s = .next (abort .endOfInput u) ∧ unread u = [] ∧
        Only [.racc, .rdCursor, .srcPos, .draws, .node, .stk] s u) ∧
    ∀ t : Tree, t.bits <+: unread s → 511 < t.size →
      ∃ u, exec .tcDeserialize s = .next (abort .nodeStoreOverflow u) ∧ u.node.length = 511

/-- `CT.DERIVE`: the entry of each symbol is its path from the root, and every other entry holds no code; it changes
nothing but CODE and the empty stack (44_codetable.md R196, R199); without a tree it has no meaning
(93_implementation_defined.md U6). -/
def Obligations.CodeTable : Prop :=
  (∀ (s : State) (x : Nat) (t : Tree), s.root = some x → Holds s.node x t → t.size ≤ s.node.length →
    t.leaves.Nodup → ∃ u, exec .ctDerive s = .next u ∧ u.code.length = 256 ∧
      (∀ (v : Byte) (p : List Bool), u.code[v.toNat]? = some (some p) ↔ t.follow p = some (.leaf v)) ∧
      (∀ v : Byte, u.code[v.toNat]? = some none ↔ v ∉ t.leaves) ∧ u.stk = [] ∧ Only [.stk, .code] s u) ∧
  ∀ s : State, s.root = none → exec .ctDerive s = .refused .noTree

/-- No code of a tree is a prefix of another, every symbol of the tree has one, and none is longer than the leaves but
one (30_encoding.md R111, 44_codetable.md R199, 00_scope.md R13). -/
def Obligations.CodesArePrefixFree : Prop :=
  ∀ t : Tree, (∀ v, v ∈ t.leaves ↔ ∃ p, t.codeOf v = some p) ∧
    (∀ v p, t.codeOf v = some p → t.follow p = some (.leaf v) ∧ p.length < t.leaves.length) ∧
    ∀ p q v w, t.follow p = some (.leaf v) → t.follow q = some (.leaf w) → p <+: q → p = q ∧ v = w

/-! ### Encoder and decoder -/

/-- `ENC.BODY` codes one symbol: the next byte's code is written and both counters advance; a source that ended or a
symbol without a code has no meaning (45_encoder_decoder.md R208; 93_implementation_defined.md U5; log entry 15). -/
def Obligations.EncodeSymbol : Prop :=
  ∀ s : State, Serves s → s.wacc.length < 64 →
    (∀ (v : Byte) (p : List Bool), s.src[s.srcPos]? = some v → s.code[v.toNat]? = some (some p) →
      ∃ t, exec .encBody s = .next t ∧ Appended p s t ∧ t.srcPos = s.srcPos + 1 ∧ t.outcnt = s.outcnt + 1 ∧
        Only [.wacc, .sink, .wrTotal, .draws, .srcPos, .outcnt] s t) ∧
    (s.src.length ≤ s.srcPos → exec .encBody s = .refused .sourceChanged) ∧
    ∀ v : Byte, s.src[s.srcPos]? = some v → s.code[v.toNat]? = some none → exec .encBody s = .refused .sourceChanged

/-- `DEC.LEN`: `L` = b0 + 2^8·b1 + 2^16·b2 + 2^24·b3 of the next four bytes; with fewer than 32 bits left `EndOfInput`
(45_encoder_decoder.md R212, 30_encoding.md R107). -/
def Obligations.DecodeLength : Prop :=
  ∀ s : State, Serves s → s.rdCursor ≤ s.racc.length →
    (∀ (b0 b1 b2 b3 : Byte) (rest : List Bool), unread s = bytesBits [b0, b1, b2, b3] ++ rest →
      ∃ t, exec .decLen s = .next t ∧ unread t = rest ∧ t.rdCursor ≤ t.racc.length ∧
        t.l.toNat = b0.toNat + 2 ^ 8 * b1.toNat + 2 ^ 16 * b2.toNat + 2 ^ 24 * b3.toNat ∧
        Only [.racc, .rdCursor, .srcPos, .draws, .l] s t) ∧
    ((unread s).length < 32 → ∃ t, exec .decLen s = .next (abort .endOfInput t) ∧ unread t = [] ∧
      Only [.racc, .rdCursor, .srcPos, .draws, .l] s t)

/-- `DEC.WALK`: the bits of a symbol's code are consumed, no more, `CUR` stands on the leaf, and the symbol is appended
to SINK; where the bits left begin with no code, `EndOfInput` with them consumed and SINK unchanged; without a tree it
has no meaning (45_encoder_decoder.md R214, R215; 93_implementation_defined.md U6). -/
def Obligations.DecodeSymbol : Prop :=
  (∀ (s : State) (x : Nat) (t : Tree), Serves s → s.rdCursor ≤ s.racc.length → s.root = some x → Holds s.node x t →
    (∀ (p rest : List Bool) (v : Byte), t.follow p = some (.leaf v) → unread s = p ++ rest →
      ∃ u, exec .decWalk s = .next u ∧ unread u = rest ∧ u.rdCursor ≤ u.racc.length ∧ u.sink = s.sink ++ [v] ∧
        u.wrTotal = s.wrTotal + 1 ∧ u.outcnt = s.outcnt + 1 ∧
        (∃ y w, u.cur = some y ∧ s.node[y]? = some (.leaf v w)) ∧
        Only [.racc, .rdCursor, .srcPos, .draws, .cur, .sink, .wrTotal, .outcnt] s u) ∧
    ((∀ p v, t.follow p = some (.leaf v) → ¬ p <+: unread s) →
      ∃ u, exec .decWalk s = .next (abort .endOfInput u) ∧ unread u = [] ∧
        Only [.racc, .rdCursor, .srcPos, .draws, .cur] s u)) ∧
  ∀ s : State, s.root = none → exec .decWalk s = .refused .noTree

/-- The degenerate tree: where the root is a leaf no bit is read, and the one symbol is written
(45_encoder_decoder.md R216). -/
def Obligations.DegenerateWalk : Prop :=
  ∀ (s : State) (x : Nat) (v : Byte) (w : Nat), Serves s → s.root = some x → s.node[x]? = some (.leaf v w) →
    ∃ d, d <:+ s.draws ∧ exec .decWalk s = .next { s with
      cur := some x, sink := s.sink ++ [v], wrTotal := s.wrTotal + 1, outcnt := s.outcnt + 1, draws := d }

/-- The tokens in the phases of DECOMPRESS: the token the stream begins with is consumed, with the effect its reading
operation has, also where a node waits for the token's node as its child; another token is refused, and padding has no
effect. A stream that ends within the token, and a 512th node, raise the reading operation's error. That a token is run
so is the model's choice (log entry 4; 30_encoding.md R99 to R106, R110; 43_treecodec.md R187, R188). -/
def Obligations.TokensRead : Prop :=
  ∀ s : State, Serves s → s.rdCursor ≤ s.racc.length →
    (s.phase = .dLen →
      (∀ (l m : BitVec 32) (rest : List Bool), unread s = (encode (.len m)).bits ++ rest →
        (l = m → ∃ t, exec (.len l) s = .next t ∧ t.l = m ∧ unread t = rest ∧
          Only [.racc, .rdCursor, .srcPos, .draws, .l] s t) ∧
        (l ≠ m → exec (.len l) s = .refused .tokenMismatch)) ∧
      ((unread s).length < 32 → ∀ l, ∃ t, exec (.len l) s = .next (abort .endOfInput t) ∧ unread t = [] ∧
        Only [.racc, .rdCursor, .srcPos, .draws, .l] s t)) ∧
    (s.phase = .dTree → s.node = [] → s.stk = [] →
      (∀ rest, unread s = (encode .internal).bits ++ rest →
        (∃ t, exec .internal s = .next t ∧ t.node = [.internal 0 none none] ∧ t.stk = [.build 0 false] ∧
          unread t = rest ∧ Only [.racc, .rdCursor, .srcPos, .draws, .node, .stk] s t) ∧
        ∀ v, exec (.leaf v) s = .refused .tokenMismatch) ∧
      ∀ (v : Byte) (rest : List Bool), unread s = (encode (.leaf v)).bits ++ rest →
        (∃ t, exec (.leaf v) s = .next t ∧ t.node = [.leaf v 0] ∧ t.root = some 0 ∧ unread t = rest ∧
          Only [.racc, .rdCursor, .srcPos, .draws, .node, .root] s t) ∧
        exec .internal s = .refused .tokenMismatch ∧ ∀ w, w ≠ v → exec (.leaf w) s = .refused .tokenMismatch) ∧
    (∀ (p : Nat) (leftDone : Bool) (st waits : List StkEntry) (w : Nat) (l r : Option Nat) (attached : List Node),
      s.phase = .dTree → s.stk = .build p leftDone :: st → s.node[p]? = some (.internal w l r) →
      s.node.length < 511 → waits = (if leftDone then st else .build p true :: st) →
      attached = s.node.set p
        (if leftDone then .internal w l (some s.node.length) else .internal w (some s.node.length) r) →
      (∀ rest, unread s = (encode .internal).bits ++ rest →
        (∃ t, exec .internal s = .next t ∧ t.node = attached ++ [.internal 0 none none] ∧
          t.stk = .build s.node.length false :: waits ∧ unread t = rest ∧
          Only [.racc, .rdCursor, .srcPos, .draws, .node, .stk] s t) ∧
        ∀ v, exec (.leaf v) s = .refused .tokenMismatch) ∧
      ∀ (v : Byte) (rest : List Bool), unread s = (encode (.leaf v)).bits ++ rest →
        (∃ t, exec (.leaf v) s = .next t ∧ t.node = attached ++ [.leaf v 0] ∧ t.stk = waits ∧
          t.root = (if waits = [] then some 0 else s.root) ∧ unread t = rest ∧
          Only [.racc, .rdCursor, .srcPos, .draws, .node, .stk, .root] s t) ∧
        exec .internal s = .refused .tokenMismatch ∧ ∀ w, w ≠ v → exec (.leaf w) s = .refused .tokenMismatch) ∧
    (∀ i, i = .internal ∨ (∃ v, i = .leaf v) → s.phase = .dTree →
      (s.stk = [] ∧ s.node = []) ∨
        (∃ p d st w l r, s.stk = .build p d :: st ∧ s.node[p]? = some (.internal w l r)) →
      (unread s = [] → ∃ t, exec i s = .next (abort .endOfInput t) ∧ Only [.draws] s t) ∧
      (∀ rest, unread s = true :: rest → rest.length < 8 → s.node.length < 511 →
        ∃ t, exec i s = .next (abort .endOfInput t) ∧ unread t = [] ∧
          Only [.racc, .rdCursor, .srcPos, .draws, .node, .stk] s t) ∧
      (∀ b rest, unread s = b :: rest → s.node.length = 511 →
        ∃ t, exec i s = .next (abort .nodeStoreOverflow t) ∧ unread t = rest ∧
          Only [.racc, .rdCursor, .srcPos, .draws] s t)) ∧
    (∀ (x : Nat) (t : Tree), s.phase = .dWalk → s.root = some x → Holds s.node x t →
      (∀ (p rest : List Bool) (v : Byte), t.follow p = some (.leaf v) → unread s = (encode (.code p)).bits ++ rest →
        (∃ u, exec (.code p) s = .next u ∧ u.sink = s.sink ++ [v] ∧ unread u = rest ∧
          Only [.racc, .rdCursor, .srcPos, .draws, .cur, .sink, .wrTotal, .outcnt] s u) ∧
        ∀ q, q ≠ p → exec (.code q) s = .refused .tokenMismatch) ∧
      ((∀ p v, t.follow p = some (.leaf v) → ¬ p <+: unread s) → ∀ q,
        ∃ u, exec (.code q) s = .next (abort .endOfInput u) ∧ unread u = [] ∧
          Only [.racc, .rdCursor, .srcPos, .draws, .cur] s u)) ∧
    ∀ z, s.phase = .dLen ∨ s.phase = .dTree ∨ s.phase = .dWalk → exec (.pad z) s = .next s

/-- A token where the container has none is refused: in a phase of DECOMPRESS only the token that phase reads is one,
and after the tree is complete no node token follows (the model's choice: log entry 4; 30_encoding.md R98, R100). -/
def Obligations.TokensOutOfPlace : Prop :=
  ∀ s : State,
    (s.phase = .dTree ∨ s.phase = .dWalk → ∀ l, exec (.len l) s = .refused .outOfOrder) ∧
    (s.phase = .dLen ∨ s.phase = .dWalk ∨ (s.phase = .dTree ∧ s.stk = [] ∧ s.node ≠ []) →
      exec .internal s = .refused .outOfOrder ∧ ∀ v, exec (.leaf v) s = .refused .outOfOrder) ∧
    (s.phase = .dLen ∨ s.phase = .dTree → ∀ p, exec (.code p) s = .refused .outOfOrder)

/-! ### Errors -/

/-- `IOError` on the reading side and at the rewind: the operation stops at the transfer the host fails, the one after `m`
that it served, with everything done before it kept. `FREQ.SCAN` has counted the bytes read; `ENC.BODY` has read nothing;
the reader's operations have made `m` refills and consumed every bit they gave, where a refill fails, and `DEC.WALK` has
consumed the code, and no more, where the write of its symbol fails. What a failed write left in SINK is not the core's to
say (60_exceptions.md R237, R243; 40_bitchannel.md R137; 45_encoder_decoder.md R214; 93_implementation_defined.md U8; the
list of the host's answers is log entries 8, 9). -/
def Obligations.HostFailureAborts : Prop :=
  (∀ (s : State) (r : List Byte) (ds : List HostDraw), s.draws = .fails r :: ds →
    exec .encBody s = .next (abort .ioError { s with draws := ds }) ∧
    (s.phase = .cCodes → advance s = abort .ioError { s with draws := ds })) ∧
  ∀ (s : State) (r : List Byte) (ds : List HostDraw) (m : Nat), s.draws = List.replicate m .serves ++ .fails r :: ds →
    (m ≤ (s.src.drop s.srcPos).length → m < 2 ^ 32 →
      ∃ f, f.length = 256 ∧ (∀ v : Byte, f[v.toNat]? = some (((s.src.drop s.srcPos).take m).count v)) ∧
        exec .freqScan s =
          .next (abort .ioError { s with draws := ds, freq := f, total := m, srcPos := s.srcPos + m })) ∧
    (s.rdCursor ≤ s.racc.length → 8 * m < (s.src.drop s.srcPos).length + 8 →
      (bitsServed m s = [] → exec .rdPopBit s = .next (abort .ioError (stoppedReading m 0 ds s))) ∧
      ((bitsServed m s).length < 8 → exec .rdPopByte s = .next (abort .ioError (stoppedReading m 0 ds s))) ∧
      ((bitsServed m s).length < 32 → exec .decLen s = .next (abort .ioError (stoppedReading m 0 ds s))) ∧
      ((∀ t : Tree, t.size ≤ 511 → ¬ t.bits <+: bitsServed m s) → ¬ Overflows (bitsServed m s) →
        ∃ nodes stk, exec .tcDeserialize s =
          .next (abort .ioError { stoppedReading m 0 ds s with node := nodes, stk := stk })) ∧
      ∀ (x : Nat) (t : Tree), s.root = some x → Holds s.node x t →
        ((∀ p v, t.follow p = some (.leaf v) → ¬ p <+: bitsServed m s) →
          ∃ y, (∃ w l r, s.node[y]? = some (.internal w l r)) ∧
            exec .decWalk s = .next (abort .ioError { stoppedReading m 0 ds s with cur := some y })) ∧
        ∀ p v, t.follow p = some (.leaf v) → p <+: bitsServed m s →
          (m ≠ 0 → (bitsServed (m - 1) s).length < p.length) →
          ∃ y w, s.node[y]? = some (.leaf v w) ∧ exec .decWalk s = .next (abort .ioError
            { stoppedReading m ((bitsServed m s).length - p.length) ds s with
              cur := some y, sink := s.sink ++ r }))

/-- `IOError` on the writing side: where the host serves `m` flushes and fails the next, the bits of the sequence up to
that flush have been pushed and the rest have not, `WR_TOTAL` counts the `m` flushes, and the accumulator still holds the
bits of the failed one. So for WR.WRITEBITS, WR.WRITEBYTE, ENC.LEN, the tokens written (log entry 4), TC.SERIALIZE and
ENC.BODY, whose symbol is then not counted; WR.FINISH has pushed its padding (40_bitchannel.md R129, R131;
60_exceptions.md R237, R243; 43_treecodec.md R181; 45_encoder_decoder.md R207, R208; 93_implementation_defined.md U8; log
entries 8, 9). WR.FLUSH is in `WriterFlush`. -/
def Obligations.WriterFailureAborts : Prop :=
  ∀ (s : State) (r : List Byte) (ds : List HostDraw) (m : Nat), s.wacc.length < 64 →
    (s.draws = List.replicate m .serves ++ .fails r :: ds →
      (∀ (i : Instr) (seq : List Bool),
        i = .wrWriteBits seq ∨ (∃ v, i = .wrWriteByte v ∧ seq = (List.range 8).map fun k => v.getLsbD k) ∨
          (i = .encLen ∧ seq = (List.range 32).map fun k => s.l.getLsbD k) ∨
          (s.phase ≠ .dLen ∧ s.phase ≠ .dTree ∧ s.phase ≠ .dWalk ∧ seq = (encode i).bits ∧
            ((∃ l, i = .len l) ∨ i = .internal ∨ (∃ v, i = .leaf v) ∨ ∃ p, i = .code p)) →
        64 * (m + 1) ≤ s.wacc.length + seq.length →
        exec i s = .next (abort .ioError (stoppedWriting seq m r ds s))) ∧
      ∀ (x : Nat) (t : Tree), s.root = some x → Holds s.node x t → t.size ≤ s.node.length →
        64 * (m + 1) ≤ s.wacc.length + t.bits.length →
        ∃ stk, exec .tcSerialize s =
          .next (abort .ioError { stoppedWriting t.bits m r ds s with stk := stk })) ∧
    (s.draws = .serves :: List.replicate m .serves ++ .fails r :: ds →
      ∀ (v : Byte) (p : List Bool), s.src[s.srcPos]? = some v → s.code[v.toNat]? = some (some p) →
        64 * (m + 1) ≤ s.wacc.length + p.length →
        exec .encBody s = .next (abort .ioError { stoppedWriting p m r ds s with srcPos := s.srcPos + 1 })) ∧
    (s.draws = .fails r :: ds → s.wacc ≠ [] →
      exec .wrFinish s = .next (abort .ioError { s with
        wacc := s.wacc ++ List.replicate ((8 - s.wacc.length % 8) % 8) false, sink := s.sink ++ r, draws := ds }))

/-- An error is the only thing an operation does to what the host sees of the run: for every instruction, `PHASE`,
`STATUS.err` and `RESULT` are unchanged, or the operation was aborted, with the error's code, `RESULT` = `WR_TOTAL` and
`PHASE` = `ERROR`, or a command was accepted (60_exceptions.md R243, R245). -/
def Obligations.OnlyAbortsEnd : Prop :=
  ∀ (i : Instr) (s t : State), exec i s = .next t → SameOrAborted s t ∨
    ((i = .compress ∧ t = commandStart .cFreq s ∨ i = .decompress ∧ t = commandStart .dLen s) ∧
      (s.phase = .idle ∨ s.phase = .done ∨ s.phase = .error))

/-! ### Frames -/

/-- SRC is read-only and SINK only grows: for every instruction, every address of SRC and every address of SINK below
`SNK_LEN` reads as before (10_state.md R55, R56). -/
def Obligations.SourceAndSinkKept : Prop :=
  ∀ (i : Instr) (s t : State), exec i s = .next t →
    (∀ a, srcByte a t = srcByte a s) ∧ (∀ a, a < s.sink.length → sinkByte a t = sinkByte a s) ∧
    s.sink.length ≤ t.sink.length

/-- The frame of the operations that store nothing: the accumulator, the reader, the frequency pass, the tree builder,
the deserializer, the code table and DEC.LEN, and the tokens `LEN`, `INTERNAL`, `LEAF` and `PAD` in the phases that read
them (log entry 4). Every field but those named is unchanged, and every address of SINK reads as before; `PHASE`, `err`
and `RESULT` change only by an abort (40_bitchannel.md, 41_frequency.md, 42_treebuilder.md, 43_treecodec.md,
44_codetable.md, 45_encoder_decoder.md). -/
def Obligations.FrameOfNonStoring : Prop :=
  ∀ (i : Instr) (fs : List Field) (s t : State),
    (∃ a, fs = [accField a] ∧ (i = .accClear a ∨ ∃ b, i = .accPushBit a b)) ∨
    (fs = [.ret] ∧ ∃ a, i = .accIsFull a ∨ ∃ n, i = .accBitAt a n) ∨
    (fs = [.racc, .rdCursor, .srcPos, .draws] ∧ i = .rdRefill) ∨
    (fs = [.racc, .rdCursor, .srcPos, .draws, .ret] ∧ (i = .rdPopBit ∨ i = .rdPopByte)) ∨
    (fs = [.freq, .total, .srcPos, .draws] ∧ i = .freqScan) ∨
    (fs = [.heap] ∧ ∃ x, i = .heapInsert x) ∨
    (fs = [.heap, .ret] ∧ i = .heapExtractMin) ∨
    (fs = [.node, .heap, .n] ∧ i = .tbLeaves) ∨
    (fs = [.node, .heap] ∧ i = .tbMerge) ∨
    (fs = [.node, .heap, .n, .root] ∧ i = .tbBuild) ∨
    (fs = [.racc, .rdCursor, .srcPos, .draws, .node, .stk, .root] ∧ i = .tcDeserialize) ∨
    (fs = [.stk, .code] ∧ i = .ctDerive) ∨
    (fs = [.racc, .rdCursor, .srcPos, .draws, .l] ∧ (i = .decLen ∨ s.phase = .dLen ∧ ∃ l, i = .len l)) ∨
    (fs = [.racc, .rdCursor, .srcPos, .draws, .node, .stk, .root] ∧ s.phase = .dTree ∧
      (i = .internal ∨ ∃ v, i = .leaf v)) ∨
    (fs = [] ∧ (s.phase = .dLen ∨ s.phase = .dTree ∨ s.phase = .dWalk) ∧ ∃ z, i = .pad z) →
    exec i s = .next t → Only ([.phase, .err, .result] ++ fs) s t ∧ SameOrAborted s t ∧
      ∀ a, sinkByte a t = sinkByte a s

/-- The frame of the operations that store to SINK: the writer, TC.SERIALIZE, ENC.LEN, ENC.BODY, DEC.WALK, and the
tokens, written outside DECOMPRESS and `CODE` walked in it (log entry 4). Every field but those named is unchanged; the
address stored to is `SNK_LEN`, the length of SINK, so that every address below it reads as before; where no transfer
fails, as many bytes are stored there as `WR_TOTAL` grows by, and exactly the addresses from there on hold none
(40_bitchannel.md, 43_treecodec.md, 45_encoder_decoder.md, 10_state.md R56). -/
def Obligations.FrameOfStoring : Prop :=
  ∀ (i : Instr) (fs : List Field) (s t : State),
    (fs = [.wacc, .sink, .wrTotal, .draws] ∧
      (i = .wrFlush ∨ (∃ seq, i = .wrWriteBits seq) ∨ (∃ v, i = .wrWriteByte v) ∨ i = .encLen)) ∨
    (fs = [.wacc, .sink, .wrTotal, .draws, .ret] ∧ i = .wrFinish) ∨
    (fs = [.wacc, .sink, .wrTotal, .draws, .stk] ∧ i = .tcSerialize) ∨
    (fs = [.wacc, .sink, .wrTotal, .draws, .srcPos, .outcnt] ∧ i = .encBody) ∨
    (fs = [.racc, .rdCursor, .srcPos, .draws, .cur, .sink, .wrTotal, .outcnt] ∧
      (i = .decWalk ∨ s.phase = .dWalk ∧ ∃ p, i = .code p)) ∨
    (fs = [.wacc, .sink, .wrTotal, .draws] ∧ s.phase ≠ .dLen ∧ s.phase ≠ .dTree ∧ s.phase ≠ .dWalk ∧
      ((∃ l, i = .len l) ∨ i = .internal ∨ (∃ v, i = .leaf v) ∨ (∃ p, i = .code p) ∨ ∃ z, i = .pad z)) →
    exec i s = .next t → Only ([.phase, .err, .result] ++ fs) s t ∧ SameOrAborted s t ∧
      (∀ a, a < s.sink.length → sinkByte a t = sinkByte a s) ∧
      (Serves s → s.wrTotal ≤ t.wrTotal ∧
        ∀ a, sinkByte a t = none ↔ s.sink.length + (t.wrTotal - s.wrTotal) ≤ a)

/-! ### Invariants -/

/-- The ranges of the registers and tables, and how `STATUS` and `RESULT` hang together, hold after reset
(10_state.md R22 to R26, R28, R31, R45, R46, R48 to R53; 41_frequency.md R153). -/
def Obligations.InvariantAtReset : Prop := Inv State.reset

/-- Every step keeps them, from every state in which they hold, whatever the host does and whatever is issued: counts and
weights stay below 2^32, `N` and `HN` at most 256, `NN` and `SP` at most 511, the bits held and `RD_CURSOR` at most C, a
code at most 255 bits long, and `ROOT`, `CUR`, the entries of HEAP and STK and the children of a node are indices of NODE
(45_encoder_decoder.md R226; 10_state.md R22 to R26, R28, R31, R45, R46, R48 to R53; 41_frequency.md R153). `OUTCNT`,
`SRC_POS`, `WR_TOTAL` and `RESULT` are numbers without a bound (log entry 7). -/
def Obligations.InvariantKept : Prop :=
  ∀ s t : State, Inv s → step s = .next t → Inv t

/-- SRC and SINK as cells are always in the canonical form: addresses strictly rising, and an address lists its byte
exactly where the space holds one (10_state.md R55, R56; the form is the model's, log entry 29). -/
def Obligations.MemoryCanonical : Prop :=
  ∀ s : State, Memory.wf (spaceCells s.src) ∧ Memory.wf (spaceCells s.sink) ∧
    ∀ (a : Nat) (v : Byte), ((a, v) ∈ spaceCells s.src ↔ srcByte a s = some v) ∧
      ((a, v) ∈ spaceCells s.sink ↔ sinkByte a s = some v)

/-! ### Whole commands -/

/-- COMPRESS writes the container: for every source of at most 2^32 − 1 bytes, the run ends in `DONE` with the container
of the source appended to SINK, made with a tree the tie-break relation allows of the source's counts, and `RESULT` is
its size; the empty source gives the four bytes 00 00 00 00 (45_encoder_decoder.md R205, R209, R211; 30_encoding.md R98,
R106). -/
def Obligations.CompressWritesTheContainer : Prop :=
  ∀ s : State, Undisturbed s → s.phase = .idle ∨ s.phase = .done ∨ s.phase = .error → s.src.length ≤ 2 ^ 32 - 1 →
    ∃ u t bytes, exec .compress s = .next u ∧ Reaches u t ∧ t.phase = .done ∧ t.err = none ∧
      t.sink = s.sink ++ bytes ∧ t.result = bytes.length ∧
      (s.src = [] → bytes = [0#8, 0#8, 0#8, 0#8]) ∧
      (s.src ≠ [] → ∃ tree, LegalTree s.src tree ∧ tree.leaves.Nodup ∧ (∀ v, v ∈ tree.leaves ↔ v ∈ s.src) ∧
        bytes = container tree s.src)

/-- DECOMPRESS of any source: where the stream decodes, it ends in `DONE` with exactly the symbols it decodes to appended
to SINK, and `RESULT` their number; otherwise in `ERROR`, with the symbols decoded before appended to SINK, `RESULT` their
number, and `NodeStoreOverflow` where a 512th node is begun, `EndOfInput` everywhere else (45_encoder_decoder.md R212 to
R217, 43_treecodec.md R187, 60_exceptions.md R238, R239, R242, R246). -/
def Obligations.DecompressDecodesTheStream : Prop :=
  ∀ s : State, Undisturbed s → s.phase = .idle ∨ s.phase = .done ∨ s.phase = .error →
    ∃ u t, exec .decompress s = .next u ∧ Reaches u t ∧
      (∀ out, Decodes (bytesBits s.src) out →
        t.phase = .done ∧ t.err = none ∧ t.sink = s.sink ++ out ∧ t.result = out.length) ∧
      (∀ out e, Fails (bytesBits s.src) out e →
        t.phase = .error ∧ t.err = some e ∧ t.sink = s.sink ++ out ∧ t.result = out.length) ∧
      ((∀ out, ¬ Decodes (bytesBits s.src) out) → ∃ out e, Fails (bytesBits s.src) out e)

/-- A container made with any strict binary tree whose leaves have the symbols of the input, whatever merges made the
tree and whatever bytes follow, decompresses to the input (45_encoder_decoder.md R222, 42_treebuilder.md R175). -/
def Obligations.AnyTreeDecompresses : Prop :=
  ∀ (s : State) (tree : Tree) (input after : List Byte), Undisturbed s →
    s.phase = .idle ∨ s.phase = .done ∨ s.phase = .error → tree.size ≤ 511 → input.length ≤ 2 ^ 32 - 1 →
    (∀ v ∈ input, v ∈ tree.leaves) → s.src = container tree input ++ after →
    ∃ u t, exec .decompress s = .next u ∧ Reaches u t ∧ t.phase = .done ∧ t.err = none ∧
      t.sink = s.sink ++ input ∧ t.result = input.length

/-- The round trip: COMPRESS of any source of at most 2^32 − 1 bytes into an empty sink, then DECOMPRESS of that sink,
gives the source back, when no transfer fails (45_encoder_decoder.md R222). C is 64 and the tie-break is `reference`
here; `AnyTreeDecompresses` says the same of every tree. -/
def Obligations.RoundTrip : Prop :=
  ∀ s r : State, Undisturbed s → Undisturbed r → s.phase = .idle ∨ s.phase = .done ∨ s.phase = .error →
    r.phase = .idle ∨ r.phase = .done ∨ r.phase = .error → s.src.length ≤ 2 ^ 32 - 1 → s.sink = [] →
    ∃ u t, exec .compress s = .next u ∧ Reaches u t ∧ t.phase = .done ∧ t.result = t.sink.length ∧
      (r.src = t.sink → ∃ v w, exec .decompress r = .next v ∧ Reaches v w ∧ w.phase = .done ∧
        w.sink = r.sink ++ s.src ∧ w.result = s.src.length)

/-- Every command ends, in `DONE` or in `ERROR`, whatever the host answers and whatever SRC holds, and the run never
stops with a fault or a refusal of the model: COMPRESS only in `DONE` or with `IOError`, DECOMPRESS in `DONE` or with
`IOError`, `EndOfInput` or `NodeStoreOverflow`, and `IOError` only where the host failed a transfer
(45_encoder_decoder.md R221, 60_exceptions.md R238). -/
def Obligations.EveryCommandEnds : Prop :=
  ∀ s : State, s.script = [] → s.phase = .idle ∨ s.phase = .done ∨ s.phase = .error →
    (s.src.length ≤ 2 ^ 32 - 1 → ∃ u t, exec .compress s = .next u ∧ Reaches u t ∧ SafeRun u ∧
      ((t.phase = .done ∧ t.err = none) ∨
        (t.phase = .error ∧ t.err = some .ioError ∧ ∃ r, HostDraw.fails r ∈ s.draws))) ∧
    ∃ u t, exec .decompress s = .next u ∧ Reaches u t ∧ SafeRun u ∧
      ((t.phase = .done ∧ t.err = none) ∨
        (t.phase = .error ∧ (t.err = some .endOfInput ∨ t.err = some .nodeStoreOverflow)) ∨
        (t.phase = .error ∧ t.err = some .ioError ∧ ∃ r, HostDraw.fails r ∈ s.draws))
end

