-- ==== Sys2Proof/Laws/Bits.lean ====
section
/-! SUPPORT. The laws of bit order and byte order: numbers and bits, bytes and bits, full bytes. -/

namespace Sys2Proof

theorem bitsOfNat_length (w n : Nat) : (bitsOfNat w n).length = w := by
  induction w generalizing n with
  | zero => rfl
  | succ w ih => simp [bitsOfNat, ih]

theorem natOfBits_bitsOfNat (w n : Nat) : natOfBits (bitsOfNat w n) = n % 2 ^ w := by
  induction w generalizing n with
  | zero => simp [bitsOfNat, natOfBits, Nat.mod_one]
  | succ w ih =>
    have hb : (decide (n % 2 = 1)).toNat = n % 2 := by
      rcases Nat.mod_two_eq_zero_or_one n with h | h <;> simp [h]
    simp only [bitsOfNat, natOfBits, ih, hb]
    rw [Nat.pow_succ, Nat.mul_comm (2 ^ w) 2, Nat.mod_mul]

theorem natOfBits_lt (bs : List Bool) : natOfBits bs < 2 ^ bs.length := by
  induction bs with
  | nil => simp [natOfBits]
  | cons b bs ih =>
    have hb := Bool.toNat_lt b
    simp only [natOfBits, List.length_cons, Nat.pow_succ]
    omega

theorem bitsOfNat_natOfBits (bs : List Bool) : bitsOfNat bs.length (natOfBits bs) = bs := by
  induction bs with
  | nil => rfl
  | cons b bs ih =>
    have h1 : (b.toNat + 2 * natOfBits bs) / 2 = natOfBits bs := by
      have := Bool.toNat_lt b; omega
    have h2 : decide ((b.toNat + 2 * natOfBits bs) % 2 = 1) = b := by
      cases b <;> simp [Nat.add_mod]
    simp only [List.length_cons, bitsOfNat, natOfBits, h1, h2, ih]

/-- A sequence of bits of a given length is told by its number. -/
theorem bitsOfNat_natOfBits_of_length {w : Nat} {bs : List Bool} (h : bs.length = w) :
    bitsOfNat w (natOfBits bs) = bs := by
  subst h; exact bitsOfNat_natOfBits bs

theorem bitsOfNat_add (a b n : Nat) : bitsOfNat (a + b) n = bitsOfNat a n ++ bitsOfNat b (n / 2 ^ a) := by
  induction a generalizing n with
  | zero => simp [bitsOfNat]
  | succ a ih =>
    rw [Nat.add_right_comm, bitsOfNat, ih]
    simp only [bitsOfNat, List.cons_append, List.cons.injEq, true_and]
    rw [Nat.div_div_eq_div_mul, Nat.pow_succ, Nat.mul_comm 2]

theorem bitsOfNat_mod (w n : Nat) : bitsOfNat w (n % 2 ^ w) = bitsOfNat w n := by
  have h := bitsOfNat_natOfBits_of_length (bitsOfNat_length w n)
  rwa [natOfBits_bitsOfNat] at h

theorem byteBits_length (v : Byte) : (byteBits v).length = 8 := bitsOfNat_length 8 _

theorem wordBits_length (l : BitVec 32) : (wordBits l).length = 32 := bitsOfNat_length 32 _

theorem byteOfBits_byteBits (v : Byte) : byteOfBits (byteBits v) = v := by
  apply BitVec.eq_of_toNat_eq
  have hv := v.isLt
  simp only [byteOfBits, byteBits, natOfBits_bitsOfNat, BitVec.toNat_ofNat]
  omega

theorem byteBits_byteOfBits {bs : List Bool} (h : bs.length = 8) : byteBits (byteOfBits bs) = bs := by
  have hlt := natOfBits_lt bs
  rw [h] at hlt
  simp only [byteBits, byteOfBits, BitVec.toNat_ofNat, Nat.mod_eq_of_lt hlt]
  exact bitsOfNat_natOfBits_of_length h

theorem lenBits_ofNat (n : Nat) : wordBits (BitVec.ofNat 32 n) = bitsOfNat 32 n := by
  simp only [wordBits, BitVec.toNat_ofNat]; exact bitsOfNat_mod 32 n

/-- The 32 bits of the length are its four bytes, low byte first (20_memory.md R63). -/
theorem wordBits_eq_bytes (l : BitVec 32) :
    wordBits l = byteBits (lenByte l 0) ++ (byteBits (lenByte l 1) ++
      (byteBits (lenByte l 2) ++ byteBits (lenByte l 3))) := by
  have h : ∀ k, byteBits (lenByte l k) = bitsOfNat 8 (l.toNat / 2 ^ (8 * k)) := by
    intro k
    simp only [byteBits, lenByte, BitVec.toNat_ofNat]
    exact bitsOfNat_mod 8 _
  rw [h, h, h, h, wordBits]
  generalize l.toNat = n
  rw [show 32 = 8 + (8 + (8 + 8)) from rfl, bitsOfNat_add, bitsOfNat_add, bitsOfNat_add]
  simp [Nat.div_div_eq_div_mul]

/-- The length read back from its four bytes (30_encoding.md R107). -/
theorem lenOfBytes_lenByte (l : BitVec 32) :
    lenOfBytes (lenByte l 0) (lenByte l 1) (lenByte l 2) (lenByte l 3) = l := by
  apply BitVec.eq_of_toNat_eq
  have hl := l.isLt
  simp only [lenOfBytes, lenByte, BitVec.toNat_ofNat]
  omega

theorem bytesBits_append (a b : List Byte) : bytesBits (a ++ b) = bytesBits a ++ bytesBits b := by
  induction a with
  | nil => rfl
  | cons v a ih => simp [bytesBits, ih]

theorem bytesBits_length (a : List Byte) : (bytesBits a).length = 8 * a.length := by
  induction a with
  | nil => rfl
  | cons v a ih => simp [bytesBits, byteBits_length, ih]; omega

theorem fullBytes_byteBits_append (v : Byte) (bs : List Bool) :
    fullBytes (byteBits v ++ bs) = v :: fullBytes bs := by
  have h := byteOfBits_byteBits v
  simp only [byteBits, bitsOfNat, List.cons_append, List.nil_append] at h ⊢
  rw [fullBytes, h]

theorem exists_byte_of_length {bs : List Bool} (h : 8 ≤ bs.length) :
    ∃ v rest, bs = byteBits v ++ rest := by
  refine ⟨byteOfBits (bs.take 8), bs.drop 8, ?_⟩
  rw [byteBits_byteOfBits (by simp [h]), List.take_append_drop]

theorem fullBytes_short {bs : List Bool} (h : bs.length < 8) : fullBytes bs = [] := by
  match bs, h with
  | [], _ => rfl
  | [_], _ => rfl
  | [_, _], _ => rfl
  | [_, _, _], _ => rfl
  | [_, _, _, _], _ => rfl
  | [_, _, _, _, _], _ => rfl
  | [_, _, _, _, _, _], _ => rfl
  | [_, _, _, _, _, _, _], _ => rfl
  | _ :: _ :: _ :: _ :: _ :: _ :: _ :: _ :: _, h => simp only [List.length_cons] at h; omega

/-- Full bytes of a whole number of bytes, then of the rest. -/
theorem fullBytes_append {a : List Bool} (b : List Bool) (h : 8 ∣ a.length) :
    fullBytes (a ++ b) = fullBytes a ++ fullBytes b := by
  obtain ⟨k, hk⟩ := h
  induction k generalizing a with
  | zero => simp_all [fullBytes]
  | succ k ih =>
    obtain ⟨v, rest, rfl⟩ := exists_byte_of_length (bs := a) (by omega)
    have hr : rest.length = 8 * k := by simp [byteBits_length] at hk; omega
    rw [List.append_assoc, fullBytes_byteBits_append, fullBytes_byteBits_append, ih hr, List.cons_append]

theorem fullBytes_length (bs : List Bool) : (fullBytes bs).length = bs.length / 8 := by
  induction h : bs.length using Nat.strong_induction_on generalizing bs with
  | _ n ih =>
    subst h
    by_cases hb : bs.length < 8
    · rw [fullBytes_short hb, Nat.div_eq_of_lt hb]; rfl
    · obtain ⟨v, rest, rfl⟩ := exists_byte_of_length (Nat.le_of_not_lt hb)
      rw [fullBytes_byteBits_append, List.length_cons, ih rest.length (by simp [byteBits_length]) rest rfl]
      simp [byteBits_length]

/-- The bits of the full bytes of a whole number of bytes are the bits. -/
theorem bytesBits_fullBytes {bs : List Bool} (h : 8 ∣ bs.length) : bytesBits (fullBytes bs) = bs := by
  obtain ⟨k, hk⟩ := h
  induction k generalizing bs with
  | zero => simp_all [fullBytes, bytesBits]
  | succ k ih =>
    obtain ⟨v, rest, rfl⟩ := exists_byte_of_length (bs := bs) (by omega)
    have hr : rest.length = 8 * k := by simp [byteBits_length] at hk; omega
    rw [fullBytes_byteBits_append, bytesBits, ih hr]

theorem fullBytes_bytesBits (a : List Byte) : fullBytes (bytesBits a) = a := by
  induction a with
  | nil => rfl
  | cons v a ih => rw [bytesBits, fullBytes_byteBits_append, ih]

/-- Byte k of a bit sequence is Σ bit(8k + j) · 2^j (40_bitchannel.md R120). -/
theorem fullBytes_getElem? (bs : List Bool) (k : Nat) (h : k < bs.length / 8) :
    (fullBytes bs)[k]? = some (byteOfBits ((bs.drop (8 * k)).take 8)) := by
  induction k generalizing bs with
  | zero =>
    obtain ⟨v, rest, rfl⟩ := exists_byte_of_length (bs := bs) (by omega)
    rw [fullBytes_byteBits_append]
    have : (byteBits v ++ rest).take 8 = byteBits v := List.take_left' (byteBits_length v)
    simp [this, byteOfBits_byteBits]
  | succ k ih =>
    obtain ⟨v, rest, rfl⟩ := exists_byte_of_length (bs := bs) (by omega)
    have hr : k < rest.length / 8 := by simp [byteBits_length] at h; omega
    have hdrop : (byteBits v ++ rest).drop (8 * (k + 1)) = rest.drop (8 * k) := by
      rw [show 8 * (k + 1) = (byteBits v).length + 8 * k by rw [byteBits_length]; omega, List.drop_append,
        List.drop_of_length_le (by omega), Nat.add_sub_cancel_left, List.nil_append]
    rw [fullBytes_byteBits_append, List.getElem?_cons_succ, ih rest hr, hdrop]

theorem bitsOfNat_getElem? (w n j : Nat) (h : j < w) : (bitsOfNat w n)[j]? = some (n.testBit j) := by
  induction w generalizing n j with
  | zero => omega
  | succ w ih =>
    cases j with
    | zero => simp [bitsOfNat, Nat.testBit_zero]
    | succ j => rw [bitsOfNat, List.getElem?_cons_succ, ih _ _ (by omega), Nat.testBit_succ]

/-- Bit j of the eight bits of a byte is bit j of the byte (20_memory.md R62). -/
theorem byteBits_getElem? (v : Byte) (j : Nat) (h : j < 8) : (byteBits v)[j]? = some (v.getLsbD j) :=
  bitsOfNat_getElem? 8 v.toNat j h

/-- Bit k of a stream is bit k mod 8 of its byte k div 8 (20_memory.md R60, 40_bitchannel.md R141). -/
theorem bytesBits_getElem? (bytes : List Byte) (k : Nat) :
    (bytesBits bytes)[k]? = bytes[k / 8]?.map fun v => v.getLsbD (k % 8) := by
  induction bytes generalizing k with
  | nil => simp [bytesBits]
  | cons v bytes ih =>
    rw [bytesBits]
    by_cases h : k < 8
    · rw [List.getElem?_append_left (by rw [byteBits_length]; exact h), byteBits_getElem? v k h,
        Nat.div_eq_of_lt h, Nat.mod_eq_of_lt h]
      rfl
    · rw [List.getElem?_append_right (by rw [byteBits_length]; omega), byteBits_length, ih,
        show k / 8 = (k - 8) / 8 + 1 by omega, List.getElem?_cons_succ, show k % 8 = (k - 8) % 8 by omega]

theorem padCount_lt (t : Nat) : padCount t < 8 := by unfold padCount; omega

theorem padCount_dvd (t : Nat) : 8 ∣ t + padCount t := by unfold padCount; omega

/-- The number of bytes a padded stream fills, ⌈t/8⌉ (40_bitchannel.md R134). -/
theorem padded_div (t : Nat) : (t + padCount t) / 8 = (t + 7) / 8 := by unfold padCount; omega

namespace Machine

theorem bytesBits_packed (bits : List Bool) :
    bytesBits (packed bits) = bits ++ List.replicate (padCount bits.length) false :=
  bytesBits_fullBytes (by simpa using padCount_dvd bits.length)

theorem packed_length (bits : List Bool) : (packed bits).length = (bits.length + 7) / 8 := by
  rw [packed, fullBytes_length, List.length_append, List.length_replicate, padded_div]

end Machine

/-- The eight bits of a byte, one by one (20_memory.md R62). -/
theorem byteBits_eq (v : Byte) : byteBits v = [v.getLsbD 0, v.getLsbD 1, v.getLsbD 2, v.getLsbD 3, v.getLsbD 4,
    v.getLsbD 5, v.getLsbD 6, v.getLsbD 7] := by
  apply List.ext_getElem?
  intro j
  by_cases hj : j < 8
  · rw [byteBits_getElem? v j hj]
    interval_cases j <;> rfl
  · rw [List.getElem?_eq_none (by rw [byteBits_length]; omega), List.getElem?_eq_none (by simp; omega)]

/-- The 32 bits of the length, one by one (30_encoding.md R99). -/
theorem wordBits_eq (l : BitVec 32) : wordBits l = (List.range 32).map fun i => l.getLsbD i := by
  apply List.ext_getElem?
  intro j
  by_cases hj : j < 32
  · rw [wordBits, bitsOfNat_getElem? _ _ _ hj]
    simp [hj]
    rfl
  · rw [List.getElem?_eq_none (by rw [wordBits_length]; omega), List.getElem?_eq_none (by simp; omega)]

/-- The length of four bytes has their bits (30_encoding.md R107). -/
theorem wordBits_lenOfBytes (b0 b1 b2 b3 : Byte) : wordBits (lenOfBytes b0 b1 b2 b3) = bytesBits [b0, b1, b2, b3] := by
  have hb : lenByte (lenOfBytes b0 b1 b2 b3) 0 = b0 ∧ lenByte (lenOfBytes b0 b1 b2 b3) 1 = b1 ∧
      lenByte (lenOfBytes b0 b1 b2 b3) 2 = b2 ∧ lenByte (lenOfBytes b0 b1 b2 b3) 3 = b3 := by
    have h0 := b0.isLt
    have h1 := b1.isLt
    have h2 := b2.isLt
    have h3 := b3.isLt
    refine ⟨?_, ?_, ?_, ?_⟩ <;> apply BitVec.eq_of_toNat_eq <;>
      simp only [lenByte, lenOfBytes, BitVec.toNat_ofNat] <;> omega
  obtain ⟨e0, e1, e2, e3⟩ := hb
  rw [wordBits_eq_bytes, e0, e1, e2, e3]
  simp [bytesBits]

end Sys2Proof
end

