-- ==== Sys2Proof/Laws/Res.lean ====
section
/-! SUPPORT. The laws of outcomes inside the core: how statements follow one another, and one rule for reasoning
about an operation that either ends with a value or raises an error, and never stops the model. -/

namespace Sys2Proof.Machine

namespace Res

variable {α β γ : Type}

@[simp] theorem bind_ok (a : α) (s : State) (k : α → State → Res β) : (Res.ok a s).bind k = k a s := rfl
@[simp] theorem bind_raise (e : Err) (s : State) (k : α → State → Res β) :
    (Res.raise e s : Res α).bind k = .raise e s := rfl
@[simp] theorem bind_fault (f : Fault) (k : α → State → Res β) : (Res.fault f : Res α).bind k = .fault f := rfl
@[simp] theorem bind_refused (r : Refusal) (k : α → State → Res β) :
    (Res.refused r : Res α).bind k = .refused r := rfl

theorem bind_assoc (x : Res α) (k : α → State → Res β) (j : β → State → Res γ) :
    (x.bind k).bind j = x.bind fun a s => (k a s).bind j := by
  cases x <;> rfl

@[simp] theorem outcome_ok (a : α) (s : State) : (Res.ok a s).outcome = .next s := rfl
@[simp] theorem outcome_raise (e : Err) (s : State) : (Res.raise e s : Res α).outcome = .next (abort e s) := rfl
@[simp] theorem outcome_fault (f : Fault) : (Res.fault f : Res α).outcome = .fault f := rfl
@[simp] theorem outcome_refused (r : Refusal) : (Res.refused r : Res α).outcome = .refused r := rfl

@[simp] theorem outcomeRet_ok (f : α → Ret) (a : α) (s : State) :
    (Res.ok a s).outcomeRet f = .next { s with ret := f a } := rfl
@[simp] theorem outcomeRet_raise (f : α → Ret) (e : Err) (s : State) :
    (Res.raise e s : Res α).outcomeRet f = .next (abort e s) := rfl
@[simp] theorem outcomeRet_fault (g : α → Ret) (f : Fault) : (Res.fault f : Res α).outcomeRet g = .fault f := rfl
@[simp] theorem outcomeRet_refused (g : α → Ret) (r : Refusal) :
    (Res.refused r : Res α).outcomeRet g = .refused r := rfl

/-- The operation ends with a value and a state for which `Q` holds, or raises an error with `R`; it does not stop
the model. -/
def Meets (x : Res α) (Q : α → State → Prop) (R : Err → State → Prop) : Prop :=
  match x with
  | .ok a s => Q a s
  | .raise e s => R e s
  | .fault _ => False
  | .refused _ => False

variable {x : Res α} {Q Q' : α → State → Prop} {R R' : Err → State → Prop} {k : α → State → Res β}
  {P : β → State → Prop}

@[simp] theorem meets_ok {a : α} {s : State} : (Res.ok a s).Meets Q R ↔ Q a s := Iff.rfl
@[simp] theorem meets_raise {e : Err} {s : State} : (Res.raise e s : Res α).Meets Q R ↔ R e s := Iff.rfl
@[simp] theorem meets_fault {f : Fault} : ¬ (Res.fault f : Res α).Meets Q R := fun h => h
@[simp] theorem meets_refused {r : Refusal} : ¬ (Res.refused r : Res α).Meets Q R := fun h => h

theorem Meets.mono (h : x.Meets Q R) (hQ : ∀ a s, Q a s → Q' a s) (hR : ∀ e s, R e s → R' e s) :
    x.Meets Q' R' := by
  cases x with
  | ok a s => exact hQ a s h
  | raise e s => exact hR e s h
  | fault f => exact h
  | refused r => exact h

theorem Meets.bind (h : x.Meets Q R) (hk : ∀ a s, Q a s → (k a s).Meets P R) : (x.bind k).Meets P R := by
  cases x with
  | ok a s => exact hk a s h
  | raise e s => exact h
  | fault f => exact h.elim
  | refused r => exact h.elim

/-- An operation that raises nothing ends with a value. -/
theorem Meets.exists_ok (h : x.Meets Q fun _ _ => False) : ∃ a s, x = .ok a s ∧ Q a s := by
  cases x with
  | ok a s => exact ⟨a, s, rfl, h⟩
  | raise e s => exact h.elim
  | fault f => exact h.elim
  | refused r => exact h.elim

/-- What is known of an operation's end, with the end itself. -/
theorem Meets.witness (h : x.Meets Q R) :
    x.Meets (fun a s => x = .ok a s ∧ Q a s) fun e s => x = .raise e s ∧ R e s := by
  cases x with
  | ok a s => exact ⟨rfl, h⟩
  | raise e s => exact ⟨rfl, h⟩
  | fault f => exact h
  | refused r => exact h

/-- How an operation ended, with what is known of it. -/
theorem Meets.cases (h : x.Meets Q R) :
    (∃ a s, x = .ok a s ∧ Q a s) ∨ ∃ e s, x = .raise e s ∧ R e s := by
  cases x with
  | ok a s => exact .inl ⟨a, s, rfl, h⟩
  | raise e s => exact .inr ⟨e, s, rfl, h⟩
  | fault f => exact h.elim
  | refused r => exact h.elim

end Res

end Sys2Proof.Machine
end

