-- ==== Sys2Proof/Laws/State.lean ====
section
/-! SUPPORT. The fields of a state after each named update, one lemma per field, each true by computation. -/

namespace Sys2Proof.Machine

/-! ### The abort (60_exceptions.md R243) -/

@[simp] theorem abort_phase (e : Err) (s : State) : (abort e s).phase = .error := rfl
@[simp] theorem abort_err (e : Err) (s : State) : (abort e s).err = some e := rfl
@[simp] theorem abort_result (e : Err) (s : State) : (abort e s).result = s.wrTotal := rfl
@[simp] theorem abort_l (e : Err) (s : State) : (abort e s).l = s.l := rfl
@[simp] theorem abort_total (e : Err) (s : State) : (abort e s).total = s.total := rfl
@[simp] theorem abort_n (e : Err) (s : State) : (abort e s).n = s.n := rfl
@[simp] theorem abort_root (e : Err) (s : State) : (abort e s).root = s.root := rfl
@[simp] theorem abort_cur (e : Err) (s : State) : (abort e s).cur = s.cur := rfl
@[simp] theorem abort_outcnt (e : Err) (s : State) : (abort e s).outcnt = s.outcnt := rfl
@[simp] theorem abort_srcPos (e : Err) (s : State) : (abort e s).srcPos = s.srcPos := rfl
@[simp] theorem abort_wrTotal (e : Err) (s : State) : (abort e s).wrTotal = s.wrTotal := rfl
@[simp] theorem abort_stk (e : Err) (s : State) : (abort e s).stk = s.stk := rfl
@[simp] theorem abort_freq (e : Err) (s : State) : (abort e s).freq = s.freq := rfl
@[simp] theorem abort_node (e : Err) (s : State) : (abort e s).node = s.node := rfl
@[simp] theorem abort_heap (e : Err) (s : State) : (abort e s).heap = s.heap := rfl
@[simp] theorem abort_code (e : Err) (s : State) : (abort e s).code = s.code := rfl
@[simp] theorem abort_wacc (e : Err) (s : State) : (abort e s).wacc = s.wacc := rfl
@[simp] theorem abort_racc (e : Err) (s : State) : (abort e s).racc = s.racc := rfl
@[simp] theorem abort_rdCursor (e : Err) (s : State) : (abort e s).rdCursor = s.rdCursor := rfl
@[simp] theorem abort_src (e : Err) (s : State) : (abort e s).src = s.src := rfl
@[simp] theorem abort_sink (e : Err) (s : State) : (abort e s).sink = s.sink := rfl
@[simp] theorem abort_script (e : Err) (s : State) : (abort e s).script = s.script := rfl
@[simp] theorem abort_draws (e : Err) (s : State) : (abort e s).draws = s.draws := rfl
@[simp] theorem abort_ret (e : Err) (s : State) : (abort e s).ret = s.ret := rfl

/-! ### The end of a command -/

@[simp] theorem complete_phase (s : State) : (complete s).phase = .done := rfl
@[simp] theorem complete_err (s : State) : (complete s).err = s.err := rfl
@[simp] theorem complete_result (s : State) : (complete s).result = s.wrTotal := rfl
@[simp] theorem complete_l (s : State) : (complete s).l = s.l := rfl
@[simp] theorem complete_total (s : State) : (complete s).total = s.total := rfl
@[simp] theorem complete_n (s : State) : (complete s).n = s.n := rfl
@[simp] theorem complete_root (s : State) : (complete s).root = s.root := rfl
@[simp] theorem complete_cur (s : State) : (complete s).cur = s.cur := rfl
@[simp] theorem complete_outcnt (s : State) : (complete s).outcnt = s.outcnt := rfl
@[simp] theorem complete_srcPos (s : State) : (complete s).srcPos = s.srcPos := rfl
@[simp] theorem complete_wrTotal (s : State) : (complete s).wrTotal = s.wrTotal := rfl
@[simp] theorem complete_stk (s : State) : (complete s).stk = s.stk := rfl
@[simp] theorem complete_freq (s : State) : (complete s).freq = s.freq := rfl
@[simp] theorem complete_node (s : State) : (complete s).node = s.node := rfl
@[simp] theorem complete_heap (s : State) : (complete s).heap = s.heap := rfl
@[simp] theorem complete_code (s : State) : (complete s).code = s.code := rfl
@[simp] theorem complete_wacc (s : State) : (complete s).wacc = s.wacc := rfl
@[simp] theorem complete_racc (s : State) : (complete s).racc = s.racc := rfl
@[simp] theorem complete_rdCursor (s : State) : (complete s).rdCursor = s.rdCursor := rfl
@[simp] theorem complete_src (s : State) : (complete s).src = s.src := rfl
@[simp] theorem complete_sink (s : State) : (complete s).sink = s.sink := rfl
@[simp] theorem complete_script (s : State) : (complete s).script = s.script := rfl
@[simp] theorem complete_draws (s : State) : (complete s).draws = s.draws := rfl
@[simp] theorem complete_ret (s : State) : (complete s).ret = s.ret := rfl

/-! ### The reset and the command start (70_reset_and_hazards.md R267) -/

@[simp] theorem hardReset_phase (s : State) : (hardReset s).phase = .idle := rfl
@[simp] theorem hardReset_err (s : State) : (hardReset s).err = none := rfl
@[simp] theorem hardReset_result (s : State) : (hardReset s).result = 0 := rfl
@[simp] theorem hardReset_l (s : State) : (hardReset s).l = 0#32 := rfl
@[simp] theorem hardReset_total (s : State) : (hardReset s).total = 0 := rfl
@[simp] theorem hardReset_n (s : State) : (hardReset s).n = 0 := rfl
@[simp] theorem hardReset_root (s : State) : (hardReset s).root = none := rfl
@[simp] theorem hardReset_cur (s : State) : (hardReset s).cur = none := rfl
@[simp] theorem hardReset_outcnt (s : State) : (hardReset s).outcnt = 0 := rfl
@[simp] theorem hardReset_srcPos (s : State) : (hardReset s).srcPos = 0 := rfl
@[simp] theorem hardReset_wrTotal (s : State) : (hardReset s).wrTotal = 0 := rfl
@[simp] theorem hardReset_stk (s : State) : (hardReset s).stk = [] := rfl
@[simp] theorem hardReset_freq (s : State) : (hardReset s).freq = [] := rfl
@[simp] theorem hardReset_node (s : State) : (hardReset s).node = [] := rfl
@[simp] theorem hardReset_heap (s : State) : (hardReset s).heap = [] := rfl
@[simp] theorem hardReset_code (s : State) : (hardReset s).code = [] := rfl
@[simp] theorem hardReset_wacc (s : State) : (hardReset s).wacc = [] := rfl
@[simp] theorem hardReset_racc (s : State) : (hardReset s).racc = [] := rfl
@[simp] theorem hardReset_rdCursor (s : State) : (hardReset s).rdCursor = 0 := rfl
@[simp] theorem hardReset_src (s : State) : (hardReset s).src = s.src := rfl
@[simp] theorem hardReset_sink (s : State) : (hardReset s).sink = s.sink := rfl
@[simp] theorem hardReset_script (s : State) : (hardReset s).script = s.script := rfl
@[simp] theorem hardReset_draws (s : State) : (hardReset s).draws = s.draws := rfl
@[simp] theorem hardReset_ret (s : State) : (hardReset s).ret = .nothing := rfl

@[simp] theorem commandStart_phase (p : Phase) (s : State) : (commandStart p s).phase = p := rfl
@[simp] theorem commandStart_err (p : Phase) (s : State) : (commandStart p s).err = none := rfl
@[simp] theorem commandStart_result (p : Phase) (s : State) : (commandStart p s).result = 0 := rfl
@[simp] theorem commandStart_l (p : Phase) (s : State) : (commandStart p s).l = 0#32 := rfl
@[simp] theorem commandStart_total (p : Phase) (s : State) : (commandStart p s).total = 0 := rfl
@[simp] theorem commandStart_n (p : Phase) (s : State) : (commandStart p s).n = 0 := rfl
@[simp] theorem commandStart_root (p : Phase) (s : State) : (commandStart p s).root = none := rfl
@[simp] theorem commandStart_cur (p : Phase) (s : State) : (commandStart p s).cur = none := rfl
@[simp] theorem commandStart_outcnt (p : Phase) (s : State) : (commandStart p s).outcnt = 0 := rfl
@[simp] theorem commandStart_srcPos (p : Phase) (s : State) : (commandStart p s).srcPos = 0 := rfl
@[simp] theorem commandStart_wrTotal (p : Phase) (s : State) : (commandStart p s).wrTotal = 0 := rfl
@[simp] theorem commandStart_stk (p : Phase) (s : State) : (commandStart p s).stk = [] := rfl
@[simp] theorem commandStart_freq (p : Phase) (s : State) : (commandStart p s).freq = List.replicate Config.nsym 0 := rfl
@[simp] theorem commandStart_node (p : Phase) (s : State) : (commandStart p s).node = [] := rfl
@[simp] theorem commandStart_heap (p : Phase) (s : State) : (commandStart p s).heap = [] := rfl
@[simp] theorem commandStart_code (p : Phase) (s : State) : (commandStart p s).code = List.replicate Config.nsym none := rfl
@[simp] theorem commandStart_wacc (p : Phase) (s : State) : (commandStart p s).wacc = [] := rfl
@[simp] theorem commandStart_racc (p : Phase) (s : State) : (commandStart p s).racc = [] := rfl
@[simp] theorem commandStart_rdCursor (p : Phase) (s : State) : (commandStart p s).rdCursor = 0 := rfl
@[simp] theorem commandStart_src (p : Phase) (s : State) : (commandStart p s).src = s.src := rfl
@[simp] theorem commandStart_sink (p : Phase) (s : State) : (commandStart p s).sink = s.sink := rfl
@[simp] theorem commandStart_script (p : Phase) (s : State) : (commandStart p s).script = s.script := rfl
@[simp] theorem commandStart_draws (p : Phase) (s : State) : (commandStart p s).draws = s.draws := rfl
@[simp] theorem commandStart_ret (p : Phase) (s : State) : (commandStart p s).ret = .nothing := rfl

/-! ### The host's answer -/

@[simp] theorem answered_phase (s : State) : (answered s).phase = s.phase := rfl
@[simp] theorem answered_err (s : State) : (answered s).err = s.err := rfl
@[simp] theorem answered_result (s : State) : (answered s).result = s.result := rfl
@[simp] theorem answered_l (s : State) : (answered s).l = s.l := rfl
@[simp] theorem answered_total (s : State) : (answered s).total = s.total := rfl
@[simp] theorem answered_n (s : State) : (answered s).n = s.n := rfl
@[simp] theorem answered_root (s : State) : (answered s).root = s.root := rfl
@[simp] theorem answered_cur (s : State) : (answered s).cur = s.cur := rfl
@[simp] theorem answered_outcnt (s : State) : (answered s).outcnt = s.outcnt := rfl
@[simp] theorem answered_srcPos (s : State) : (answered s).srcPos = s.srcPos := rfl
@[simp] theorem answered_wrTotal (s : State) : (answered s).wrTotal = s.wrTotal := rfl
@[simp] theorem answered_stk (s : State) : (answered s).stk = s.stk := rfl
@[simp] theorem answered_freq (s : State) : (answered s).freq = s.freq := rfl
@[simp] theorem answered_node (s : State) : (answered s).node = s.node := rfl
@[simp] theorem answered_heap (s : State) : (answered s).heap = s.heap := rfl
@[simp] theorem answered_code (s : State) : (answered s).code = s.code := rfl
@[simp] theorem answered_wacc (s : State) : (answered s).wacc = s.wacc := rfl
@[simp] theorem answered_racc (s : State) : (answered s).racc = s.racc := rfl
@[simp] theorem answered_rdCursor (s : State) : (answered s).rdCursor = s.rdCursor := rfl
@[simp] theorem answered_src (s : State) : (answered s).src = s.src := rfl
@[simp] theorem answered_sink (s : State) : (answered s).sink = s.sink := rfl
@[simp] theorem answered_script (s : State) : (answered s).script = s.script := rfl
@[simp] theorem answered_draws (s : State) : (answered s).draws = s.draws.tail := rfl
@[simp] theorem answered_ret (s : State) : (answered s).ret = s.ret := rfl

/-! ### The accumulators -/

@[simp] theorem acc_setAcc (a : Acc) (bits : List Bool) (s : State) : acc a (setAcc a bits s) = bits := by
  cases a <;> rfl

@[simp] theorem setAcc_phase (a : Acc) (bits : List Bool) (s : State) : (setAcc a bits s).phase = s.phase := by
  cases a <;> rfl
@[simp] theorem setAcc_err (a : Acc) (bits : List Bool) (s : State) : (setAcc a bits s).err = s.err := by
  cases a <;> rfl
@[simp] theorem setAcc_result (a : Acc) (bits : List Bool) (s : State) : (setAcc a bits s).result = s.result := by
  cases a <;> rfl
@[simp] theorem setAcc_l (a : Acc) (bits : List Bool) (s : State) : (setAcc a bits s).l = s.l := by
  cases a <;> rfl
@[simp] theorem setAcc_total (a : Acc) (bits : List Bool) (s : State) : (setAcc a bits s).total = s.total := by
  cases a <;> rfl
@[simp] theorem setAcc_n (a : Acc) (bits : List Bool) (s : State) : (setAcc a bits s).n = s.n := by
  cases a <;> rfl
@[simp] theorem setAcc_root (a : Acc) (bits : List Bool) (s : State) : (setAcc a bits s).root = s.root := by
  cases a <;> rfl
@[simp] theorem setAcc_cur (a : Acc) (bits : List Bool) (s : State) : (setAcc a bits s).cur = s.cur := by
  cases a <;> rfl
@[simp] theorem setAcc_outcnt (a : Acc) (bits : List Bool) (s : State) : (setAcc a bits s).outcnt = s.outcnt := by
  cases a <;> rfl
@[simp] theorem setAcc_srcPos (a : Acc) (bits : List Bool) (s : State) : (setAcc a bits s).srcPos = s.srcPos := by
  cases a <;> rfl
@[simp] theorem setAcc_wrTotal (a : Acc) (bits : List Bool) (s : State) : (setAcc a bits s).wrTotal = s.wrTotal := by
  cases a <;> rfl
@[simp] theorem setAcc_stk (a : Acc) (bits : List Bool) (s : State) : (setAcc a bits s).stk = s.stk := by
  cases a <;> rfl
@[simp] theorem setAcc_freq (a : Acc) (bits : List Bool) (s : State) : (setAcc a bits s).freq = s.freq := by
  cases a <;> rfl
@[simp] theorem setAcc_node (a : Acc) (bits : List Bool) (s : State) : (setAcc a bits s).node = s.node := by
  cases a <;> rfl
@[simp] theorem setAcc_heap (a : Acc) (bits : List Bool) (s : State) : (setAcc a bits s).heap = s.heap := by
  cases a <;> rfl
@[simp] theorem setAcc_code (a : Acc) (bits : List Bool) (s : State) : (setAcc a bits s).code = s.code := by
  cases a <;> rfl
@[simp] theorem setAcc_rdCursor (a : Acc) (bits : List Bool) (s : State) : (setAcc a bits s).rdCursor = s.rdCursor := by
  cases a <;> rfl
@[simp] theorem setAcc_src (a : Acc) (bits : List Bool) (s : State) : (setAcc a bits s).src = s.src := by
  cases a <;> rfl
@[simp] theorem setAcc_sink (a : Acc) (bits : List Bool) (s : State) : (setAcc a bits s).sink = s.sink := by
  cases a <;> rfl
@[simp] theorem setAcc_script (a : Acc) (bits : List Bool) (s : State) : (setAcc a bits s).script = s.script := by
  cases a <;> rfl
@[simp] theorem setAcc_draws (a : Acc) (bits : List Bool) (s : State) : (setAcc a bits s).draws = s.draws := by
  cases a <;> rfl
@[simp] theorem setAcc_ret (a : Acc) (bits : List Bool) (s : State) : (setAcc a bits s).ret = s.ret := by
  cases a <;> rfl

@[simp] theorem acc_writer (s : State) : acc .writer s = s.wacc := rfl
@[simp] theorem acc_reader (s : State) : acc .reader s = s.racc := rfl
@[simp] theorem setAcc_writer (bits : List Bool) (s : State) : setAcc .writer bits s = { s with wacc := bits } := rfl
@[simp] theorem setAcc_reader (bits : List Bool) (s : State) : setAcc .reader bits s = { s with racc := bits } := rfl

/-! ### Answers -/

theorem hostFails_nil {s : State} (h : s.draws = []) : hostFails s = none := by simp [hostFails, h]

theorem answered_nil {s : State} (h : s.draws = []) : answered s = s := by
  cases s; simp_all [answered]

end Sys2Proof.Machine
end

