-- ==== Sys2Proof/Laws/Writer.lean ====
section
/-! SUPPORT. The laws of the primitives and of the writer (40_bitchannel.md R128 to R134). Each operation's law
says everything it can do: its state if no transfer fails, and that only the host can make it fail. -/

namespace Sys2Proof.Machine

/-- An error that only the host can cause (60_exceptions.md R237). -/
def HostFault (s : State) (e : Err) (_ : State) : Prop := e = .ioError ∧ ∃ r, HostDraw.fails r ∈ s.draws

theorem HostFault.of_suffix {s s' t : State} {e : Err} (h : HostFault s' e t) (hs : s'.draws <:+ s.draws) :
    HostFault s e t :=
  ⟨h.1, h.2.imp fun _ hr => hs.subset hr⟩

theorem HostFault.not_serves {s t : State} {e : Err} (h : Serves s) : ¬ HostFault s e t := by
  rintro ⟨-, r, hr⟩
  cases h _ hr

theorem Serves.of_suffix {s t : State} (h : Serves s) (hs : t.draws <:+ s.draws) : Serves t :=
  fun d hd => h d (hs.subset hd)

/-- Where the host serves every transfer, an operation that only the host can make fail ends with a value. -/
theorem Res.Meets.served {α : Type} {x : Res α} {Q : α → State → Prop} {s : State} (h : x.Meets Q (HostFault s))
    (hs : Serves s) : ∃ a t, x = .ok a t ∧ Q a t :=
  Res.Meets.exists_ok (h.mono (fun _ _ h => h) fun _ _ hf => (HostFault.not_serves hs hf).elim)

theorem hostFails_draws {s : State} {v : List Byte} (h : hostFails s = some v) :
    ∃ r, HostDraw.fails r ∈ s.draws := by
  unfold hostFails at h
  split at h
  · rename_i r ds hd
    exact ⟨r, by rw [hd]; exact List.mem_cons_self ..⟩
  · cases h

theorem memRead_meets (addr n : Nat) (s : State) :
    (memRead addr n s).Meets (fun d t => d = srcBytes addr n s ∧ t = answered s) (HostFault s) := by
  unfold memRead
  cases h : hostFails s with
  | none => simp
  | some v => exact ⟨rfl, hostFails_draws h⟩

theorem srcRead_meets (n : Nat) (s : State) :
    (srcRead n s).Meets
      (fun d t => d = srcBytes s.srcPos n s ∧ t = { answered s with srcPos := s.srcPos + d.length })
      (HostFault s) := by
  refine (memRead_meets s.srcPos n s).bind fun d t h => ?_
  obtain ⟨rfl, rfl⟩ := h
  simp

theorem srcRewind_meets (s : State) :
    (srcRewind s).Meets (fun _ t => t = { answered s with srcPos := 0 }) (HostFault s) := by
  unfold srcRewind
  cases h : hostFails s with
  | none => simp
  | some v => exact ⟨rfl, hostFails_draws h⟩

theorem sinkWrite_meets (v : List Byte) (s : State) :
    (sinkWrite v s).Meets (fun _ t => t = { answered s with sink := s.sink ++ v }) (HostFault s) := by
  unfold sinkWrite
  cases h : hostFails s with
  | none => simp
  | some v => exact ⟨rfl, hostFails_draws h⟩

theorem tail_suffix (s : State) : (answered s).draws <:+ s.draws := List.tail_suffix _

theorem flush_meets (s : State) :
    (flush s).Meets
      (fun _ t => t.draws <:+ s.draws ∧
        t = { s with
          wacc := []
          sink := s.sink ++ fullBytes s.wacc
          wrTotal := s.wrTotal + (fullBytes s.wacc).length
          draws := t.draws })
      (HostFault s) := by
  unfold flush
  cases h : fullBytes s.wacc with
  | nil => simp [accClear]
  | cons v vs =>
    refine (sinkWrite_meets (v :: vs) s).bind fun _ t ht => ?_
    subst ht
    simp [accClear, answered, List.tail_suffix]

/-! ### What has been written -/

/-- The writer after `bits` more, no transfer failing: whole accumulators have gone to SINK, K = C/8 · ⌊t/C⌋ bytes,
and the rest is held (40_bitchannel.md R134). -/
def afterWriting (bits : List Bool) (s : State) : State :=
  { s with
    wacc := (s.wacc ++ bits).drop (Config.accCap * ((s.wacc ++ bits).length / Config.accCap))
    sink := s.sink ++ fullBytes ((s.wacc ++ bits).take (Config.accCap * ((s.wacc ++ bits).length / Config.accCap)))
    wrTotal := s.wrTotal + Config.accCap / 8 * ((s.wacc ++ bits).length / Config.accCap) }

theorem afterWriting_nil (s : State) (h : s.wacc.length < Config.accCap) : afterWriting [] s = s := by
  cases s
  simp_all [afterWriting, Nat.div_eq_of_lt, fullBytes]

@[simp] theorem afterWriting_draws (bits : List Bool) (s : State) : (afterWriting bits s).draws = s.draws := rfl

theorem afterWriting_wacc_lt (bits : List Bool) (s : State) :
    (afterWriting bits s).wacc.length < Config.accCap := by
  simp only [afterWriting, Config.accCap, List.length_drop]
  omega

/-- Writing in two parts is writing the parts together. -/
theorem afterWriting_append (a b : List Bool) (s : State) :
    afterWriting b (afterWriting a s) = afterWriting (a ++ b) s := by
  have key : ∀ (A B : List Bool) (k K : Nat), k = 64 * (A.length / 64) → K = 64 * ((A ++ B).length / 64) →
      A.drop k ++ B = (A ++ B).drop k ∧
      64 * ((A.drop k ++ B).length / 64) = K - k ∧
      (A ++ B).take K = A.take k ++ ((A ++ B).drop k).take (K - k) ∧
      ((A ++ B).drop k).drop (K - k) = (A ++ B).drop K ∧ 8 ∣ (A.take k).length ∧
      8 * (A.length / 64) + 8 * ((A.drop k ++ B).length / 64) = 8 * ((A ++ B).length / 64) := by
    intro A B k K hk hK
    have hkA : k ≤ A.length := by omega
    have h1 : A.drop k ++ B = (A ++ B).drop k := by rw [List.drop_append_of_le_length hkA]
    have hKk : k ≤ K := by simp only [List.length_append] at hK; omega
    refine ⟨h1, ?_, ?_, ?_, ?_, ?_⟩
    · simp only [List.length_append, List.length_drop] at hK ⊢; omega
    · conv_lhs => rw [← Nat.add_sub_cancel' hKk, List.take_add]
      rw [List.take_append_of_le_length hkA]
    · rw [List.drop_drop, Nat.add_sub_cancel' hKk]
    · rw [List.length_take]; omega
    · simp only [List.length_append, List.length_drop] at hK ⊢; omega
  obtain ⟨h1, h2, h3, h4, h5, h6⟩ := key (s.wacc ++ a) b _ _ rfl rfl
  unfold afterWriting
  simp only [Config.accCap] at *
  rw [← List.append_assoc, h2, h1, h3, h4, fullBytes_append _ h5, ← List.append_assoc, ← h1]
  simp only [State.mk.injEq, true_and, and_true]
  omega

theorem writeBit_meets (b : Bool) (s : State) (hw : s.wacc.length < Config.accCap) :
    (writeBit b s).Meets
      (fun _ t => t.draws <:+ s.draws ∧ t = { afterWriting [b] s with draws := t.draws }) (HostFault s) := by
  have hne : ¬ s.wacc.length = 64 := by simp only [Config.accCap] at hw; omega
  simp only [writeBit, accPushBit, isFull, acc_writer, Config.accCap, hne, decide_false, setAcc_writer,
    Bool.false_eq_true, if_false, Res.bind_ok, List.length_append, List.length_singleton]
  by_cases h64 : s.wacc.length + 1 = 64
  · simp only [h64, decide_true, if_true]
    refine (flush_meets _).mono (fun _ t ht => ⟨ht.1, ?_⟩) (fun e t ht => ht)
    obtain ⟨-, ht⟩ := ht
    rw [ht]
    simp [afterWriting, Config.accCap, h64, fullBytes_length, List.take_of_length_le, List.drop_of_length_le]
  · have hlt : (s.wacc.length + 1) / 64 = 0 := by simp only [Config.accCap] at hw; omega
    simp [h64, afterWriting, Config.accCap, hlt, fullBytes]

/-- Everything `writeBits` can do (40_bitchannel.md R129, R134). -/
theorem writeBits_meets (bits : List Bool) (s : State) (hw : s.wacc.length < Config.accCap) :
    (writeBits bits s).Meets
      (fun _ t => t.draws <:+ s.draws ∧ t = { afterWriting bits s with draws := t.draws }) (HostFault s) := by
  induction bits generalizing s with
  | nil => simp [writeBits, afterWriting_nil s hw]
  | cons b bits ih =>
    rw [writeBits]
    refine (writeBit_meets b s hw).bind fun _ t ht => ?_
    obtain ⟨hd, ht⟩ := ht
    have hw' : t.wacc.length < Config.accCap := by rw [ht]; exact afterWriting_wacc_lt [b] s
    refine (ih t hw').mono (fun _ u hu => ⟨hu.1.trans hd, ?_⟩) (fun e u hu => hu.of_suffix hd)
    rw [hu.2, ht]
    have := afterWriting_append [b] bits s
    simp only [List.singleton_append] at this
    rw [← this]
    rfl

theorem afterWriting_appended (bits : List Bool) (s : State) : Appended bits s (afterWriting bits s) := by
  have hk : 64 * ((s.wacc ++ bits).length / 64) ≤ (s.wacc ++ bits).length := by omega
  refine ⟨?_, afterWriting_wacc_lt bits s, (s.wacc ++ bits).length / 64, ?_, rfl⟩
  · simp only [afterWriting, Config.accCap, bytesBits_append]
    rw [bytesBits_fullBytes (by rw [List.length_take, Nat.min_eq_left hk]; omega), List.append_assoc,
      List.take_append_drop, List.append_assoc]
  · simp only [afterWriting, Config.accCap, List.length_append, fullBytes_length, List.length_take] at *
    omega

/-- The same in the words of the statements. -/
theorem writeBits_appended (bits : List Bool) (s : State) (hw : s.wacc.length < Config.accCap) :
    (writeBits bits s).Meets (fun _ t => t.draws <:+ s.draws ∧ Appended bits s t) (HostFault s) :=
  (writeBits_meets bits s hw).mono (fun _ t ht => ⟨ht.1, by rw [ht.2]; exact afterWriting_appended bits s⟩)
    fun _ _ h => h

theorem accPushBits_eq (a : Acc) (bits : List Bool) (s : State)
    (h : (acc a s).length + bits.length ≤ Config.accCap) :
    accPushBits a bits s = .ok () (setAcc a (acc a s ++ bits) s) := by
  induction bits generalizing s with
  | nil => cases a <;> simp [accPushBits]
  | cons b bits ih =>
    simp only [List.length_cons] at h
    have hne : ¬ (acc a s).length = Config.accCap := by omega
    rw [accPushBits, accPushBit, isFull]
    simp only [hne, decide_false, Bool.false_eq_true, if_false, Res.bind_ok]
    rw [ih _ (by simp; omega)]
    cases a <;> simp

/-- Everything `finish` can do (40_bitchannel.md R131): the held bits go out padded, and the count is `WR_TOTAL`. -/
theorem finish_meets (s : State) (hw : s.wacc.length < Config.accCap) :
    (finish s).Meets
      (fun c t => t.draws <:+ s.draws ∧ c = s.wrTotal + (s.wacc.length + 7) / 8 ∧
        t = { s with wacc := [], sink := s.sink ++ packed s.wacc, wrTotal := c, draws := t.draws })
      (HostFault s) := by
  have hp := padCount_dvd s.wacc.length
  have hl := padCount_lt s.wacc.length
  rw [finish, accPushBits_eq .writer _ s (by simp [Config.accCap] at *; omega)]
  simp only [Res.bind_ok]
  refine (flush_meets _).bind fun _ t ht => ?_
  obtain ⟨hd, ht⟩ := ht
  have hlen : (packed s.wacc).length = (s.wacc.length + 7) / 8 := packed_length _
  simp only [setAcc_writer, acc_writer] at ht hd
  simp only [Res.meets_ok]
  refine ⟨hd, ?_, ?_⟩
  · rw [ht, ← hlen]; rfl
  · rw [ht]; rfl

end Sys2Proof.Machine
end

