-- ==== Sys2Proof/Laws/Reader.lean ====
section
/-! SUPPORT. The laws of the reader (40_bitchannel.md R136 to R142): what a pop returns, and when it cannot. -/

namespace Sys2Proof.Machine

/-- From `s` to `t` only the reader has moved: `RACC`, `RD_CURSOR`, `SRC_POS` and the host's answers; the cursor is
within the accumulator. -/
def ReaderMoved (s t : State) : Prop :=
  t = { s with racc := t.racc, rdCursor := t.rdCursor, srcPos := t.srcPos, draws := t.draws } ∧
  t.draws <:+ s.draws ∧ t.rdCursor ≤ t.racc.length

theorem ReaderMoved.refl {s : State} (h : s.rdCursor ≤ s.racc.length) : ReaderMoved s s :=
  ⟨rfl, List.suffix_rfl, h⟩

theorem ReaderMoved.trans {s t u : State} (h : ReaderMoved s t) (h' : ReaderMoved t u) : ReaderMoved s u := by
  refine ⟨?_, h'.2.1.trans h.2.1, h'.2.2⟩
  have h1 := h.1
  have h2 := h'.1
  rw [h1] at h2
  exact h2

/-- How reading `k` bits can fail: the host fails a transfer, or fewer than `k` bits are left, all of which are then
consumed (40_bitchannel.md R140). -/
def ReadFault (k : Nat) (s : State) (e : Err) (t : State) : Prop :=
  HostFault s e t ∨ (e = .endOfInput ∧ (unread s).length < k ∧ ReaderMoved s t ∧ unread t = [])

theorem ReadFault.mono {j k : Nat} {s t : State} {e : Err} (h : ReadFault j s e t) (hjk : j ≤ k) :
    ReadFault k s e t :=
  h.imp id fun h => ⟨h.1, lt_of_lt_of_le h.2.1 hjk, h.2.2⟩

theorem ReadFault.after {j k : Nat} {s s' t : State} {e : Err} {bs : List Bool} (h : ReadFault j s' e t)
    (hm : ReaderMoved s s') (hu : unread s = bs ++ unread s') (hk : bs.length + j ≤ k) : ReadFault k s e t := by
  refine h.imp (fun h => h.of_suffix hm.2.1) fun h => ⟨h.1, ?_, hm.trans h.2.2.1, h.2.2.2⟩
  have := h.2.1
  rw [hu, List.length_append]
  omega

/-- Everything RD.REFILL can do, whatever the accumulator holds (40_bitchannel.md R137). -/
theorem refill_cases (s : State) :
    (refill s).Meets
      (fun _ t => srcBytes s.srcPos 8 s ≠ [] ∧ t = { answered s with
        racc := bytesBits (srcBytes s.srcPos 8 s)
        rdCursor := 0
        srcPos := s.srcPos + (srcBytes s.srcPos 8 s).length })
      (fun e t => HostFault s e t ∨ (e = .endOfInput ∧ srcBytes s.srcPos 8 s = [] ∧ t = answered s)) := by
  refine ((srcRead_meets Config.refillBytes s).mono (fun _ _ h => h) (fun e t h => Or.inl h)).bind fun d t h => ?_
  obtain ⟨rfl, rfl⟩ := h
  have h8 : Config.refillBytes = 8 := rfl
  rw [h8]
  have hlen : (srcBytes s.srcPos 8 s).length ≤ 8 := by rw [srcBytes, List.length_take]; omega
  cases hd : srcBytes s.srcPos 8 s with
  | nil =>
    refine Or.inr ⟨rfl, rfl, ?_⟩
    simp [answered]
  | cons v vs =>
    rw [hd] at hlen
    have hp := accPushBits_eq .reader (bytesBits (v :: vs))
      (accClear .reader { answered s with srcPos := s.srcPos + (v :: vs).length }) (by
        simp only [accClear, acc_setAcc, List.length_nil, bytesBits_length, Config.accCap]; omega)
    dsimp only at hp ⊢
    rw [hp]
    simp [accClear]

theorem refill_meets (s : State) (hc : s.rdCursor = s.racc.length) :
    (refill s).Meets
      (fun _ t => ReaderMoved s t ∧ unread t = unread s ∧ t.rdCursor < t.racc.length)
      (ReadFault 1 s) := by
  have hu : unread s = bytesBits (s.src.drop s.srcPos) := by simp [unread, hc]
  refine ((srcRead_meets Config.refillBytes s).mono (fun _ _ h => h) (fun e t h => Or.inl h)).bind fun d t h => ?_
  obtain ⟨rfl, rfl⟩ := h
  generalize hd : srcBytes s.srcPos Config.refillBytes s = d
  have hd' : d = (s.src.drop s.srcPos).take 8 := by rw [← hd]; rfl
  cases d with
  | nil =>
    have hnil : s.src.drop s.srcPos = [] := by
      rcases List.take_eq_nil_iff.mp hd'.symm with h | h
      · exact absurd h (by decide)
      · exact h
    refine Or.inr ⟨rfl, by simp [hu, hnil, bytesBits], ⟨rfl, tail_suffix s, by simp [hc]⟩, ?_⟩
    simp [unread, hc, hnil, bytesBits]
  | cons v vs =>
    have hlen : (v :: vs).length ≤ 8 := by rw [hd', List.length_take]; omega
    have hrest : (s.src.drop s.srcPos).drop (v :: vs).length = (s.src.drop s.srcPos).drop 8 := by
      rw [hd', List.length_take]
      rcases Nat.le_total 8 (s.src.drop s.srcPos).length with h | h
      · rw [Nat.min_eq_left h]
      · rw [Nat.min_eq_right h, List.drop_length, List.drop_of_length_le h]
    have hp := accPushBits_eq .reader (bytesBits (v :: vs))
      (accClear .reader { answered s with srcPos := s.srcPos + (v :: vs).length }) (by
        simp only [accClear, acc_setAcc, List.length_nil, bytesBits_length, Config.accCap]; omega)
    dsimp only at hp ⊢
    rw [hp]
    simp only [Res.bind_ok, Res.meets_ok]
    refine ⟨⟨rfl, tail_suffix s, Nat.zero_le _⟩, ?_, ?_⟩
    · simp only [unread, accClear, acc_reader, setAcc_reader, List.nil_append, List.drop_zero, answered_src]
      rw [← List.drop_drop, hrest, hd', ← bytesBits_append, List.take_append_drop]
      simp [hc]
    · simp [accClear, bytesBits_length]

/-- Everything `popBit` can do (40_bitchannel.md R138, R140, R141). -/
theorem popBit_meets (s : State) (hc : s.rdCursor ≤ s.racc.length) :
    (popBit s).Meets (fun b t => ReaderMoved s t ∧ unread s = b :: unread t) (ReadFault 1 s) := by
  have pop : ∀ t : State, ReaderMoved s t → unread t = unread s → t.rdCursor < t.racc.length →
      ((accBitAt .reader t.rdCursor t).bind fun b s => .ok b { s with rdCursor := s.rdCursor + 1 }).Meets
        (fun b u => ReaderMoved s u ∧ unread s = b :: unread u) (ReadFault 1 s) := by
    intro t hm hu hlt
    have hget : t.racc[t.rdCursor]? = some t.racc[t.rdCursor] := List.getElem?_eq_getElem hlt
    simp only [accBitAt, acc_reader, hget, Res.bind_ok, Res.meets_ok]
    refine ⟨hm.trans ⟨rfl, List.suffix_rfl, hlt⟩, ?_⟩
    rw [← hu]
    simp only [unread]
    rw [List.drop_eq_getElem_cons hlt]
    rfl
  rw [popBit, readerEmpty]
  by_cases he : s.rdCursor = s.racc.length
  · simp only [he, decide_true, if_true]
    exact (refill_meets s he).bind fun _ t h => pop t h.1 h.2.1 h.2.2
  · simp only [he, decide_false, Bool.false_eq_true, if_false, Res.bind_ok]
    exact pop s (ReaderMoved.refl hc) rfl (by omega)

/-- Everything `k` pops can do. -/
theorem popBits_meets (k : Nat) (s : State) (hc : s.rdCursor ≤ s.racc.length) :
    (popBits k s).Meets
      (fun bs t => ReaderMoved s t ∧ bs.length = k ∧ unread s = bs ++ unread t) (ReadFault k s) := by
  induction k generalizing s with
  | zero => exact ⟨ReaderMoved.refl hc, rfl, rfl⟩
  | succ k ih =>
    rw [popBits]
    refine ((popBit_meets s hc).mono (fun _ _ h => h) (fun e t h => h.mono (by omega))).bind fun b t hb => ?_
    refine ((ih t hb.1.2.2).mono (fun _ _ h => h)
      (fun e u h => h.after (bs := [b]) hb.1 hb.2 (by simp; omega))).bind fun bs u hu => ?_
    exact ⟨hb.1.trans hu.1, by simp [hu.2.1], by rw [hb.2, hu.2.2]; rfl⟩

/-- Everything `popByte` can do (40_bitchannel.md R139). -/
theorem popByte_meets (s : State) (hc : s.rdCursor ≤ s.racc.length) :
    (popByte s).Meets
      (fun v t => ReaderMoved s t ∧ unread s = byteBits v ++ unread t) (ReadFault 8 s) := by
  refine (popBits_meets 8 s hc).bind fun bs t h => ?_
  refine ⟨h.1, ?_⟩
  rw [byteBits_byteOfBits h.2.1]
  exact h.2.2

/-- Everything DEC.LEN can do (45_encoder_decoder.md R212). -/
theorem readLength_meets (s : State) (hc : s.rdCursor ≤ s.racc.length) :
    (readLength s).Meets
      (fun _ t => ∃ u, ReaderMoved s u ∧ unread s = wordBits t.l ++ unread u ∧ t = { u with l := t.l })
      (ReadFault 32 s) := by
  rw [readLength]
  refine ((popByte_meets s hc).mono (fun _ _ h => h) (fun e t h => h.mono (by omega))).bind fun b0 s1 h1 => ?_
  have l1 : (byteBits b0).length = 8 := byteBits_length b0
  refine ((popByte_meets s1 h1.1.2.2).mono (fun _ _ h => h)
    (fun e t h => h.after h1.1 h1.2 (by omega))).bind fun b1 s2 h2 => ?_
  have m2 := h1.1.trans h2.1
  have u2 : unread s = (byteBits b0 ++ byteBits b1) ++ unread s2 := by rw [h1.2, h2.2, List.append_assoc]
  refine ((popByte_meets s2 h2.1.2.2).mono (fun _ _ h => h)
    (fun e t h => h.after m2 u2 (by simp [byteBits_length]))).bind fun b2 s3 h3 => ?_
  have m3 := m2.trans h3.1
  have u3 : unread s = (byteBits b0 ++ byteBits b1 ++ byteBits b2) ++ unread s3 := by
    rw [u2, h3.2, List.append_assoc, List.append_assoc, List.append_assoc]
  refine ((popByte_meets s3 h3.1.2.2).mono (fun _ _ h => h)
    (fun e t h => h.after m3 u3 (by simp [byteBits_length]))).bind fun b3 s4 h4 => ?_
  refine ⟨s4, m3.trans h4.1, ?_, rfl⟩
  rw [wordBits_eq_bytes, u3, h4.2]
  simp only [List.append_assoc]
  have hb : ∀ a b c d : Byte, lenByte (lenOfBytes a b c d) 0 = a ∧ lenByte (lenOfBytes a b c d) 1 = b ∧
      lenByte (lenOfBytes a b c d) 2 = c ∧ lenByte (lenOfBytes a b c d) 3 = d := by
    intro a b c d
    have ha := a.isLt; have hb := b.isLt; have hc := c.isLt; have hd := d.isLt
    refine ⟨?_, ?_, ?_, ?_⟩ <;> apply BitVec.eq_of_toNat_eq <;>
      simp only [lenByte, lenOfBytes, BitVec.toNat_ofNat] <;> omega
  obtain ⟨e0, e1, e2, e3⟩ := hb b0 b1 b2 b3
  simp only [e0, e1, e2, e3]

end Sys2Proof.Machine
end

