-- ==== Sys2Proof/Laws/Codec.lean ====
section
/-! SUPPORT. The laws of the traversals: what TC.SERIALIZE writes, what CT.DERIVE fills, what TC.DESERIALIZE builds
and where DEC.WALK ends, for a store that holds a tree (43_treecodec.md, 44_codetable.md, 45_encoder_decoder.md). -/

namespace Sys2Proof.Machine

theorem Tree.size_pos (t : Tree) : 0 < t.size := by cases t <;> simp only [Tree.size] <;> omega

theorem Tree.size_eq_leaves (t : Tree) : t.size + 1 = 2 * t.leaves.length := by
  induction t with
  | leaf v => rfl
  | node l r ihl ihr => simp only [Tree.size, Tree.leaves, List.length_append]; omega

/-- A tree with n leaves serializes to 10n − 1 bits (30_encoding.md R103). -/
theorem Tree.bits_length (t : Tree) : t.bits.length + 1 = 10 * t.leaves.length := by
  induction t with
  | leaf v => simp [Tree.bits, Tree.leaves, byteBits_length]
  | node l r ihl ihr =>
    simp only [Tree.bits, Tree.leaves, List.length_append, List.length_cons] at *
    omega

/-! ### Serialization -/

/-- From `s` to `t` only the writer and the stack have moved, by writing `bits`. -/
def Wrote (bits : List Bool) (s t : State) : Prop :=
  t.draws <:+ s.draws ∧ t = { afterWriting bits s with stk := t.stk, draws := t.draws }

theorem Wrote.trans {a b : List Bool} {s t u : State} (h : Wrote a s t) (h' : Wrote b t u) :
    Wrote (a ++ b) s u := by
  refine ⟨h'.1.trans h.1, ?_⟩
  have h2 := h'.2
  have h1 := h.2
  rw [h1] at h2
  rw [h2, ← afterWriting_append]
  rfl

theorem Wrote.wacc_lt {bits : List Bool} {s t : State} (h : Wrote bits s t) : t.wacc.length < Config.accCap := by
  rw [h.2]; exact afterWriting_wacc_lt bits s

theorem Wrote.node_eq {bits : List Bool} {s t : State} (h : Wrote bits s t) : t.node = s.node := by
  rw [h.2]; rfl

/-- `writeBits` with any stack in place. -/
theorem writeBits_wrote (bits : List Bool) (s : State) (st : List StkEntry) (hw : s.wacc.length < Config.accCap) :
    (writeBits bits { s with stk := st }).Meets (fun _ t => Wrote bits s t ∧ t.stk = st) (HostFault s) := by
  refine (writeBits_meets bits { s with stk := st } hw).mono (fun _ t h => ?_) (fun _ _ h => h)
  refine ⟨⟨h.1, ?_⟩, ?_⟩
  · rw [h.2]; rfl
  · rw [h.2]; rfl

/-- Everything the loop of TC.SERIALIZE can do on a stack of subtrees (43_treecodec.md R182). -/
theorem serLoop_meets (fuel : Nat) (s : State) (xs : List Nat) (ts : List Tree)
    (hstk : s.stk = xs.map .visit) (hx : List.Forall₂ (Holds s.node) xs ts)
    (hf : (ts.map Tree.size).sum ≤ fuel) (hw : s.wacc.length < Config.accCap) :
    (serLoop fuel s).Meets (fun _ t => Wrote (ts.flatMap Tree.bits) s t ∧ t.stk = []) (HostFault s) := by
  induction fuel generalizing s xs ts with
  | zero =>
    cases hx with
    | nil =>
      rw [serLoop, hstk]
      refine ⟨⟨List.suffix_rfl, ?_⟩, hstk⟩
      simp [afterWriting_nil s hw]
    | cons h hs => simp only [List.map_cons, List.sum_cons] at hf; have := Tree.size_pos; grind
  | succ fuel ih =>
    cases hx with
    | nil =>
      rw [serLoop, hstk]
      refine ⟨⟨List.suffix_rfl, ?_⟩, hstk⟩
      simp [afterWriting_nil s hw]
    | @cons x t xs ts h hs =>
      simp only [List.map_cons, List.sum_cons] at hf
      rw [serLoop, hstk]
      simp only [List.map_cons]
      cases t with
      | leaf v =>
        obtain ⟨w, hg⟩ := h
        simp only [hg]
        simp only [Tree.size] at hf
        refine (writeBits_wrote [true] s (xs.map .visit) hw).bind fun _ s1 h1 => ?_
        refine ((writeBits_wrote (byteBits v) s1 s1.stk h1.1.wacc_lt).mono (fun _ _ h => h)
          (fun e t h => h.of_suffix h1.1.1)).bind fun _ s2 h2 => ?_
        have hn : s2.node = s.node := by rw [h2.1.node_eq, h1.1.node_eq]
        refine (ih s2 xs ts (by rw [h2.2, h1.2]) (by rw [hn]; exact hs) (by omega) h2.1.wacc_lt).mono
          (fun _ u hu => ⟨?_, hu.2⟩) (fun e u hu => hu.of_suffix (h2.1.1.trans h1.1.1))
        have := (h1.1.trans h2.1).trans hu.1
        simpa [Tree.bits] using this
      | node l r =>
        obtain ⟨w, a, b, hg, ha, hb⟩ := h
        simp only [hg]
        simp only [Tree.size] at hf
        refine (writeBits_wrote [false] s (xs.map .visit) hw).bind fun _ s1 h1 => ?_
        have hn : s1.node = s.node := h1.1.node_eq
        refine (ih { s1 with stk := .visit a :: .visit b :: s1.stk } (a :: b :: xs) (l :: r :: ts)
          (by simp [h1.2]) (by simp only [hn]; exact .cons ha (.cons hb hs))
          (by simp only [List.map_cons, List.sum_cons]; omega) h1.1.wacc_lt).mono
          (fun _ u hu => ⟨?_, hu.2⟩) (fun e u hu => hu.of_suffix h1.1.1)
        have hu1 : Wrote (List.flatMap Tree.bits (l :: r :: ts)) s1 u := hu.1
        have := h1.1.trans hu1
        simpa [Tree.bits] using this

/-- Everything TC.SERIALIZE can do on a store that holds a tree under ROOT (43_treecodec.md R181). -/
theorem serialize_meets (s : State) (x : Nat) (t : Tree) (hr : s.root = some x) (hx : Holds s.node x t)
    (hs : t.size ≤ s.node.length) (hw : s.wacc.length < Config.accCap) :
    (serialize s).Meets (fun _ u => Wrote t.bits s u ∧ u.stk = []) (HostFault s) := by
  have he : serialize s = serLoop s.node.length { s with stk := [.visit x] } := by
    unfold serialize; split <;> simp_all
  rw [he]
  refine (serLoop_meets s.node.length { s with stk := [.visit x] } [x] [t] rfl (.cons hx .nil)
    (by simpa using hs) hw).mono (fun _ u hu => ⟨?_, hu.2⟩) (fun _ _ h => h)
  have hu1 := hu.1
  simp only [List.flatMap_cons, List.flatMap_nil, List.append_nil] at hu1
  exact hu1

/-! ### The code table -/

/-- The table after the codes of a list are bound, in order. -/
def bindCodes (code : List (Option (List Bool))) : List (Byte × List Bool) → List (Option (List Bool))
  | [] => code
  | c :: cs => bindCodes (code.set c.1.toNat (some c.2)) cs

theorem bindCodes_append (code : List (Option (List Bool))) (a b : List (Byte × List Bool)) :
    bindCodes code (a ++ b) = bindCodes (bindCodes code a) b := by
  induction a generalizing code with
  | nil => rfl
  | cons c a ih => simp [bindCodes, ih]

theorem bindCodes_length (code : List (Option (List Bool))) (cs : List (Byte × List Bool)) :
    (bindCodes code cs).length = code.length := by
  induction cs generalizing code with
  | nil => rfl
  | cons c cs ih => simp [bindCodes, ih]

/-- Everything the loop of CT.DERIVE does on a stack of subtrees with their paths (44_codetable.md R197). -/
theorem ctLoop_eq (fuel : Nat) (s : State) (xs : List (Nat × List Bool)) (ts : List Tree)
    (hstk : s.stk = xs.map fun x => .path x.1 x.2)
    (hx : List.Forall₂ (fun x t => Holds s.node x.1 t) xs ts) (hf : (ts.map Tree.size).sum ≤ fuel) :
    ctLoop fuel s = .ok () { s with
      stk := []
      code := bindCodes s.code ((xs.zip ts).flatMap fun x => x.2.codes x.1.2) } := by
  induction fuel generalizing s xs ts with
  | zero =>
    cases hx with
    | nil => rw [ctLoop, hstk]; cases s; simp_all [bindCodes]
    | cons h hs => simp only [List.map_cons, List.sum_cons] at hf; have := Tree.size_pos; grind
  | succ fuel ih =>
    cases hx with
    | nil => rw [ctLoop, hstk]; cases s; simp_all [bindCodes]
    | @cons x t xs ts h hs =>
      simp only [List.map_cons, List.sum_cons] at hf
      rw [ctLoop, hstk]
      simp only [List.map_cons]
      cases t with
      | leaf v =>
        obtain ⟨w, hg⟩ := h
        simp only [hg]
        simp only [Tree.size] at hf
        rw [ih { s with
            stk := (xs.map fun x => .path x.1 x.2), code := s.code.set v.toNat (some x.2) } xs ts rfl hs (by omega)]
        simp [Tree.codes, bindCodes]
      | node l r =>
        obtain ⟨w, a, b, hg, ha, hb⟩ := h
        simp only [hg]
        simp only [Tree.size] at hf
        rw [ih { s with stk := .path a (x.2 ++ [false]) :: .path b (x.2 ++ [true]) ::
            (xs.map fun x => .path x.1 x.2) } ((a, x.2 ++ [false]) :: (b, x.2 ++ [true]) :: xs) (l :: r :: ts) rfl
          (.cons ha (.cons hb hs)) (by simp only [List.map_cons, List.sum_cons]; omega)]
        simp [Tree.codes]

/-- Everything CT.DERIVE does on a store that holds a tree under ROOT (44_codetable.md R196). -/
theorem derive_eq (s : State) (x : Nat) (t : Tree) (hr : s.root = some x) (hx : Holds s.node x t)
    (hs : t.size ≤ s.node.length) :
    derive s = .ok () { s with
      stk := []
      code := bindCodes (List.replicate Config.nsym none) (t.codes []) } := by
  have he : derive s =
      ctLoop s.node.length { s with stk := [.path x []], code := List.replicate Config.nsym none } := by
    unfold derive; split <;> simp_all
  rw [he, ctLoop_eq s.node.length { s with stk := [.path x []], code := List.replicate Config.nsym none }
    [(x, [])] [t] rfl (.cons hx .nil) (by simpa using hs)]
  simp

/-! ### Paths -/

theorem Tree.codes_fst (p : List Bool) (t : Tree) : (t.codes p).map Prod.fst = t.leaves := by
  induction t generalizing p with
  | leaf v => rfl
  | node l r ihl ihr => simp [Tree.codes, Tree.leaves, ihl, ihr]

theorem Tree.mem_codes_iff {t : Tree} {p : List Bool} {v : Byte} {q : List Bool} :
    (v, q) ∈ t.codes p ↔ ∃ k, q = p ++ k ∧ t.follow k = some (.leaf v) := by
  induction t generalizing p with
  | leaf w =>
    simp only [Tree.codes, List.mem_singleton, Prod.mk.injEq]
    constructor
    · rintro ⟨rfl, rfl⟩; exact ⟨[], by simp, rfl⟩
    · rintro ⟨k, rfl, hk⟩
      cases k with
      | nil => simp only [Tree.follow, Option.some.injEq, Tree.leaf.injEq] at hk; simp [hk]
      | cons b k => simp [Tree.follow] at hk
  | node l r ihl ihr =>
    simp only [Tree.codes, List.mem_append, ihl, ihr]
    constructor
    · rintro (⟨k, rfl, hk⟩ | ⟨k, rfl, hk⟩)
      · exact ⟨false :: k, by simp, by simpa [Tree.follow] using hk⟩
      · exact ⟨true :: k, by simp, by simpa [Tree.follow] using hk⟩
    · rintro ⟨k, rfl, hk⟩
      cases k with
      | nil => simp [Tree.follow] at hk
      | cons b k =>
        cases b with
        | false => exact .inl ⟨k, by simp, by simpa [Tree.follow] using hk⟩
        | true => exact .inr ⟨k, by simp, by simpa [Tree.follow] using hk⟩

/-- A symbol's code leads from the root to a leaf of that symbol (44_codetable.md R199). -/
theorem Tree.follow_codeOf {t : Tree} {v : Byte} {p : List Bool} (h : t.codeOf v = some p) :
    t.follow p = some (.leaf v) := by
  rw [Tree.codeOf, Option.map_eq_some_iff] at h
  obtain ⟨c, hc, rfl⟩ := h
  have hm := List.mem_of_find?_eq_some hc
  have hv := List.find?_some hc
  simp only [decide_eq_true_eq] at hv
  have : (v, c.2) ∈ t.codes [] := by rw [← hv]; exact hm
  obtain ⟨k, hk, hf⟩ := Tree.mem_codes_iff.mp this
  simp only [List.nil_append] at hk
  rw [hk]; exact hf

theorem Tree.codeOf_isSome {t : Tree} {v : Byte} (h : v ∈ t.leaves) : ∃ p, t.codeOf v = some p := by
  rw [← Tree.codes_fst [], List.mem_map] at h
  obtain ⟨c, hc, rfl⟩ := h
  have : ((t.codes []).find? fun d => d.1 = c.1).isSome := by
    rw [List.find?_isSome]; exact ⟨c, hc, by simp⟩
  obtain ⟨d, hd⟩ := Option.isSome_iff_exists.mp this
  exact ⟨d.2, by simp [Tree.codeOf, hd]⟩

/-- The depth of a leaf is below the number of leaves (00_scope.md R13). -/
theorem Tree.follow_length {t : Tree} {p : List Bool} {v : Byte} (h : t.follow p = some (.leaf v)) :
    p.length < t.leaves.length := by
  have pos : ∀ t : Tree, 0 < t.leaves.length := fun t => by have := t.size_eq_leaves; have := t.size_pos; omega
  induction t generalizing p with
  | leaf w =>
    cases p with
    | nil => simp [Tree.leaves]
    | cons b p => simp [Tree.follow] at h
  | node l r ihl ihr =>
    have hl := pos l; have hr := pos r
    cases p with
    | nil => simp only [Tree.leaves, List.length_append, List.length_nil]; omega
    | cons b p =>
      cases b with
      | false =>
        have := ihl (by simpa [Tree.follow] using h)
        simp only [Tree.leaves, List.length_append, List.length_cons]; omega
      | true =>
        have := ihr (by simpa [Tree.follow] using h)
        simp only [Tree.leaves, List.length_append, List.length_cons]; omega

theorem bindCodes_get_of_notMem (code : List (Option (List Bool))) (cs : List (Byte × List Bool)) (v : Byte)
    (h : ∀ c ∈ cs, c.1 ≠ v) : (bindCodes code cs)[v.toNat]? = code[v.toNat]? := by
  induction cs generalizing code with
  | nil => rfl
  | cons c cs ih =>
    have hc : c.1.toNat ≠ v.toNat := fun he => h c (by simp) (BitVec.eq_of_toNat_eq he)
    rw [bindCodes, ih _ fun d hd => h d (by simp [hd]), List.getElem?_set_ne hc]

/-- Where no symbol is bound twice, the entry of a bound symbol is its path. -/
theorem bindCodes_get (code : List (Option (List Bool))) (cs : List (Byte × List Bool)) (v : Byte) (p : List Bool)
    (hl : code.length = Config.nsym) (hn : (cs.map Prod.fst).Nodup) (h : (v, p) ∈ cs) :
    (bindCodes code cs)[v.toNat]? = some (some p) := by
  induction cs generalizing code with
  | nil => simp at h
  | cons c cs ih =>
    simp only [List.map_cons, List.nodup_cons] at hn
    rw [bindCodes]
    rcases List.mem_cons.mp h with rfl | h
    · rw [bindCodes_get_of_notMem _ _ _ fun d hd he => hn.1 (by
        have := List.mem_map_of_mem (f := Prod.fst) hd; rwa [he] at this)]
      exact List.getElem?_set_self (by rw [hl]; exact v.isLt)
    · exact ih _ (by simpa using hl) hn.2 h

/-- After CT.DERIVE of a tree without repeated symbols, CODE holds exactly the codes of the tree (44_codetable.md
R199). -/
theorem codeTable_get {t : Tree} (hn : t.leaves.Nodup) (v : Byte) :
    (bindCodes (List.replicate Config.nsym none) (t.codes []))[v.toNat]? = some (t.codeOf v) := by
  have hn' : ((t.codes []).map Prod.fst).Nodup := by rw [Tree.codes_fst]; exact hn
  cases h : t.codeOf v with
  | some p =>
    refine bindCodes_get _ _ v p (by simp) hn' ?_
    exact Tree.mem_codes_iff.mpr ⟨p, by simp, Tree.follow_codeOf h⟩
  | none =>
    rw [bindCodes_get_of_notMem]
    · rw [List.getElem?_replicate]
      simp [show v.toNat < Config.nsym from v.isLt]
    · intro c hc he
      obtain ⟨p, hp⟩ := Tree.codeOf_isSome (t := t) (v := v)
        (by rw [← Tree.codes_fst [], ← he]; exact List.mem_map_of_mem hc)
      simp [hp] at h

/-! ### The decoder's walk -/

/-- No code is a prefix of another (30_encoding.md R105). -/
theorem Tree.follow_unique {t : Tree} {p q a b : List Bool} {v w : Byte} (hp : t.follow p = some (.leaf v))
    (hq : t.follow q = some (.leaf w)) (h : p ++ a = q ++ b) : p = q ∧ v = w := by
  induction t generalizing p q with
  | leaf u =>
    cases p with
    | cons b p => simp [Tree.follow] at hp
    | nil =>
      cases q with
      | cons b q => simp [Tree.follow] at hq
      | nil => rw [hp] at hq; simpa using hq
  | node l r ihl ihr =>
    cases p with
    | nil => simp [Tree.follow] at hp
    | cons c p =>
      cases q with
      | nil => simp [Tree.follow] at hq
      | cons d q =>
        simp only [List.cons_append, List.cons.injEq] at h
        obtain ⟨rfl, h⟩ := h
        cases c with
        | false => obtain ⟨rfl, hv⟩ := ihl hp hq h; exact ⟨rfl, hv⟩
        | true => obtain ⟨rfl, hv⟩ := ihr hp hq h; exact ⟨rfl, hv⟩

/-- How a walk can fail: by the host, or because the unread bits begin with no code of the tree. -/
def WalkFault (t : Tree) (s : State) (e : Err) (u : State) : Prop :=
  HostFault s e u ∨ (e = .endOfInput ∧ (∀ p v, t.follow p = some (.leaf v) → ¬ p <+: unread s) ∧ unread u = [] ∧
    (∃ m, ReaderMoved s m ∧ u = { m with cur := u.cur }) ∧
    ∃ y w l r, u.cur = some y ∧ s.node[y]? = some (.internal w l r))

/-- Everything the descent can do on a store that holds a tree (45_encoder_decoder.md R214). -/
theorem descend_meets (fuel : Nat) (s : State) (x : Nat) (t : Tree) (hc : s.rdCursor ≤ s.racc.length)
    (hcur : s.cur = some x) (hx : Holds s.node x t) (hf : (unread s).length < fuel) :
    (descend fuel s).Meets
      (fun pv u => t.follow pv.1 = some (.leaf pv.2) ∧ unread s = pv.1 ++ unread u ∧
        (∃ y w, u.cur = some y ∧ s.node[y]? = some (.leaf pv.2 w)) ∧
        ∃ m, ReaderMoved s m ∧ u = { m with cur := u.cur })
      (WalkFault t s) := by
  induction fuel generalizing s x t with
  | zero => omega
  | succ fuel ih =>
    rw [descend, hcur]
    cases t with
    | leaf v =>
      obtain ⟨w, hg⟩ := hx
      simp only [hg]
      exact ⟨rfl, rfl, ⟨x, w, hcur, hg⟩, s, ReaderMoved.refl hc, rfl⟩
    | node l r =>
      obtain ⟨w, a, c, hg, ha, hb⟩ := hx
      simp only [hg]
      refine ((popBit_meets s hc).mono (fun _ _ h => h) (fun e t h => ?_)).bind fun b s1 h1 => ?_
      · rcases h with h | h
        · exact .inl h
        · refine .inr ⟨h.1, fun p v hp hpre => ?_, h.2.2.2, ⟨t, h.2.2.1, rfl⟩, x, w, _, _, ?_, hg⟩
          have hu : unread s = [] := List.length_eq_zero_iff.mp (by have := h.2.1; omega)
          rw [hu, List.prefix_nil] at hpre
          rw [hpre] at hp
          simp [Tree.follow] at hp
          rw [h.2.2.1.1]; exact hcur
      · obtain ⟨hm, hu1⟩ := h1
        have hn : s1.node = s.node := by rw [hm.1]
        have key : ∀ (y : Nat) (t' : Tree), Holds s.node y t' →
            (∀ p, (Tree.node l r).follow (b :: p) = t'.follow p) →
            ((descend fuel { s1 with cur := some y }).bind fun pv s => .ok (b :: pv.1, pv.2) s).Meets
              (fun pv u => (Tree.node l r).follow pv.1 = some (.leaf pv.2) ∧ unread s = pv.1 ++ unread u ∧
                (∃ y w, u.cur = some y ∧ s.node[y]? = some (.leaf pv.2 w)) ∧
                ∃ m, ReaderMoved s m ∧ u = { m with cur := u.cur }) (WalkFault (.node l r) s) := by
          intro y t' hy hfol
          have hlen : (unread s1).length < fuel := by
            have := congrArg List.length hu1
            simp only [List.length_cons] at this
            omega
          refine ((ih { s1 with cur := some y } y t' hm.2.2 rfl (by simp only [hn]; exact hy) hlen).mono
            (fun _ _ h => h) fun e u h => ?_).bind fun pv u h => ?_
          · have back : ∀ m, ReaderMoved { s1 with cur := some y } m → u = { m with cur := u.cur } →
                ∃ m, ReaderMoved s m ∧ u = { m with cur := u.cur } := by
              intro m hm' hu'
              refine ⟨{ m with cur := s1.cur }, hm.trans ⟨?_, hm'.2⟩, by rw [hu']⟩
              have := hm'.1
              rw [this]
            rcases h with h | ⟨he, h, hun, ⟨m, hm', hu'⟩, z, w', l', r', hz, hg'⟩
            · exact .inl (HostFault.of_suffix (s' := { s1 with cur := some y }) h hm.2.1)
            · refine .inr ⟨he, fun p v hp hpre => ?_, hun, back m hm' hu', z, w', l', r', hz, by rw [← hn]; exact hg'⟩
              rw [hu1] at hpre
              cases p with
              | nil => simp [Tree.follow] at hp
              | cons d p =>
                rw [List.cons_prefix_cons] at hpre
                obtain ⟨rfl, hpre⟩ := hpre
                exact h p v (by rw [← hfol]; exact hp) hpre
          · obtain ⟨h1, h2, ⟨y', w', hy1, hy2⟩, m, hm', hu'⟩ := h
            have h2' : unread s1 = pv.1 ++ unread u := h2
            have hy2' : s1.node[y']? = some (.leaf pv.2 w') := hy2
            refine ⟨by rw [← h1]; exact hfol pv.1, by rw [hu1, h2']; rfl, ⟨y', w', hy1, by rw [← hn]; exact hy2'⟩, { m with cur := s1.cur },
              hm.trans ⟨?_, hm'.2⟩, by rw [hu']⟩
            have := hm'.1
            rw [this]
        cases b with
        | false => exact key a l ha fun p => rfl
        | true => exact key c r hb fun p => rfl

theorem bitsLeft_eq (s : State) : bitsLeft s = (unread s).length := by
  simp only [bitsLeft, unread, List.length_append, bytesBits_length, List.length_drop]
  omega

/-- Everything DEC.WALK can do on a store that holds a tree under ROOT (45_encoder_decoder.md R214): it consumes the
code of a leaf and writes the leaf's symbol. -/
theorem walk_meets (s : State) (x : Nat) (t : Tree) (hc : s.rdCursor ≤ s.racc.length) (hr : s.root = some x)
    (hx : Holds s.node x t) :
    (walk s).Meets
      (fun q u => ∃ v, t.follow q = some (.leaf v) ∧ unread s = q ++ unread u ∧
        (∃ y w, u.cur = some y ∧ s.node[y]? = some (.leaf v w)) ∧
        ∃ m, ReaderMoved s m ∧ u.draws <:+ m.draws ∧ u = { m with
          cur := u.cur, sink := s.sink ++ [v], wrTotal := s.wrTotal + 1, outcnt := s.outcnt + 1, draws := u.draws })
      (WalkFault t s) := by
  have he : walk s = (descend (bitsLeft s + 1) { s with cur := some x }).bind fun pv s =>
      (sinkWrite [pv.2] s).bind fun _ s =>
        .ok pv.1 { s with wrTotal := s.wrTotal + 1, outcnt := s.outcnt + 1 } := by
    unfold walk; split <;> simp_all
  rw [he]
  have hd := descend_meets (bitsLeft s + 1) { s with cur := some x } x t hc rfl hx (by rw [bitsLeft_eq]; exact Nat.lt_succ_self _)
  refine (hd.mono (fun _ _ h => h) (fun e u h => ?_)).bind fun pv s1 h1 => ?_
  · rcases h with h | ⟨he, h, hun, ⟨m, hm, hu⟩, hint⟩
    · exact .inl h
    · refine .inr ⟨he, h, hun, ⟨{ m with cur := s.cur }, ⟨?_, hm.2⟩, by rw [hu]⟩, hint⟩
      have := hm.1; rw [this]
  obtain ⟨hf, hu1, hcur, m, hm, h1⟩ := h1
  have hsuf : s1.draws <:+ s.draws := by rw [h1]; exact hm.2.1
  refine ((sinkWrite_meets [pv.2] s1).mono (fun _ _ h => h) (fun e t h => .inl (h.of_suffix hsuf))).bind fun _ s2 h2 => ?_
  subst h2
  refine ⟨pv.2, hf, hu1, hcur, { m with cur := s.cur }, ⟨?_, hm.2⟩, ?_, ?_⟩
  · have := hm.1; rw [this]
  · rw [h1]; exact List.tail_suffix _
  · rw [h1, hm.1]; rfl

/-! ### Deserialization -/

theorem treeNodes_length (base : Nat) (t : Tree) : (treeNodes base t).length = t.size := by
  induction t generalizing base with
  | leaf v => rfl
  | node l r ihl ihr => simp only [treeNodes, Tree.size, List.length_cons, List.length_append, ihl, ihr]; omega

theorem holds_treeNodes (nodes : List Node) (base : Nat) (t : Tree)
    (h : ∀ j, j < t.size → nodes[base + j]? = (treeNodes base t)[j]?) : Holds nodes base t := by
  induction t generalizing base with
  | leaf v => exact ⟨0, by simpa [treeNodes] using h 0 (by simp [Tree.size])⟩
  | node l r ihl ihr =>
    have h0 := h 0 (by simp only [Tree.size]; omega)
    simp only [treeNodes, Nat.add_zero, List.getElem?_cons_zero] at h0
    refine ⟨0, base + 1, base + 1 + l.size, h0, ihl _ fun j hj => ?_, ihr _ fun j hj => ?_⟩
    · have := h (1 + j) (by simp only [Tree.size]; omega)
      rw [← Nat.add_assoc] at this
      rw [this, treeNodes, Nat.add_comm 1 j, List.getElem?_cons_succ,
        List.getElem?_append_left (by rw [treeNodes_length]; exact hj)]
    · have := h (1 + l.size + j) (by simp only [Tree.size]; omega)
      rw [show base + (1 + l.size + j) = base + 1 + l.size + j by omega] at this
      rw [this, treeNodes, show 1 + l.size + j = (l.size + j) + 1 by omega, List.getElem?_cons_succ,
        List.getElem?_append_right (by rw [treeNodes_length]; omega), treeNodes_length,
        Nat.add_sub_cancel_left]

/-- The node store once node `i` has been attached to the node waiting on top of the stack. -/
def attachNodes (i : Nat) (nodes : List Node) : List StkEntry → List Node
  | .build p leftDone :: _ =>
    match nodes[p]? with
    | some (.internal w l r) =>
      if leftDone then nodes.set p (.internal w l (some i)) else nodes.set p (.internal w (some i) r)
    | _ => nodes
  | _ => nodes

/-- The stack after it. -/
def attachStk : List StkEntry → List StkEntry
  | .build p leftDone :: st => if leftDone then st else .build p true :: st
  | st => st

/-- No node waits, or the one on top is an internal node of the store. -/
def Waiting (nodes : List Node) : List StkEntry → Prop
  | [] => True
  | .build p _ :: _ => ∃ w l r, nodes[p]? = some (.internal w l r)
  | _ :: _ => False

theorem attachNodes_length (i : Nat) (nodes : List Node) (st : List StkEntry) :
    (attachNodes i nodes st).length = nodes.length := by
  unfold attachNodes
  repeat' split
  all_goals simp

theorem attach_eq (i : Nat) (s : State) (d : Node) (h : Waiting s.node s.stk) :
    attach i { s with node := s.node ++ [d] } =
      .ok () { s with node := attachNodes i s.node s.stk ++ [d], stk := attachStk s.stk } := by
  unfold attach
  cases hs : s.stk with
  | nil => cases s; simp_all [attachNodes, attachStk]
  | cons e st =>
    cases e with
    | visit x => rw [hs] at h; exact h.elim
    | path x p => rw [hs] at h; exact h.elim
    | build p leftDone =>
      rw [hs] at h
      obtain ⟨w, l, r, hg⟩ := h
      have hlt : p < s.node.length := (List.getElem?_eq_some_iff.mp hg).1
      simp only [List.getElem?_append_left hlt, hg, attachNodes, attachStk]
      cases leftDone <;> simp [List.set_append_left _ _ hlt]

/-- How one round of the deserializer can fail: by the host, by the stream's end, or by a full node store
(43_treecodec.md R187, R189). -/
def NodeFault (s : State) (e : Err) (u : State) : Prop :=
  HostFault s e u ∨
  (e = .endOfInput ∧ unread u = [] ∧
    (unread s = [] ∨ ∃ r, unread s = true :: r ∧ r.length < 8 ∧ s.node.length ≠ Config.nodeCap)) ∨
  (e = .nodeStoreOverflow ∧ unread s ≠ [] ∧ s.node.length = Config.nodeCap ∧ u.node = s.node)

/-- Everything one round of the deserializer can do (43_treecodec.md R188). -/
theorem readNode_meets (s : State) (hc : s.rdCursor ≤ s.racc.length) (hw : Waiting s.node s.stk) :
    (readNode s).Meets
      (fun tok u => ∃ m, ReaderMoved s m ∧ s.node.length ≠ Config.nodeCap ∧
        ((tok = none ∧ unread s = false :: unread m ∧ u = { m with
            node := attachNodes s.node.length s.node s.stk ++ [.internal 0 none none]
            stk := .build s.node.length false :: attachStk s.stk }) ∨
        ∃ v, tok = some v ∧ unread s = true :: (byteBits v ++ unread m) ∧ u = { m with
            node := attachNodes s.node.length s.node s.stk ++ [.leaf v 0]
            stk := attachStk s.stk }))
      (NodeFault s) := by
  rw [readNode]
  refine ((popBit_meets s hc).mono (fun _ _ h => h) (fun e t h => ?_)).bind fun b s1 h1 => ?_
  · rcases h with h | h
    · exact .inl h
    · refine .inr (.inl ⟨h.1, h.2.2.2, .inl ?_⟩)
      have := h.2.1
      exact List.length_eq_zero_iff.mp (by omega)
  obtain ⟨hm, hu1⟩ := h1
  have hn1 : s1.node = s.node := by rw [hm.1]
  have hk1 : s1.stk = s.stk := by rw [hm.1]
  by_cases hcap : s.node.length = Config.nodeCap
  · rw [if_pos (by rw [hn1]; exact hcap)]
    exact .inr (.inr ⟨rfl, by simp [hu1], hcap, hn1⟩)
  rw [if_neg (by rw [hn1]; exact hcap), attach_eq _ s1 .fresh (by rw [hn1, hk1]; exact hw)]
  simp only [Res.bind_ok, hn1, hk1]
  have hl := attachNodes_length s.node.length s.node s.stk
  have hset : ∀ d : Node, (attachNodes s.node.length s.node s.stk ++ [Node.fresh]).set s.node.length d =
      attachNodes s.node.length s.node s.stk ++ [d] := by
    intro d
    rw [List.set_append_right _ _ (by rw [hl]), hl, Nat.sub_self]; rfl
  cases b with
  | false =>
    simp only [Bool.false_eq_true, if_false, Res.meets_ok, hset]
    exact ⟨s1, hm, hcap, .inl ⟨trivial, hu1, rfl⟩⟩
  | true =>
    simp only [if_true]
    refine ((popByte_meets { s1 with
        node := attachNodes s.node.length s.node s.stk ++ [.fresh], stk := attachStk s.stk } hm.2.2).mono
      (fun _ _ h => h) (fun e t h => ?_)).bind fun v s2 h2 => ?_
    · rcases h with h | h
      · exact .inl (HostFault.of_suffix h hm.2.1)
      · have h' : (unread s1).length < 8 := h.2.1
        exact .inr (.inl ⟨h.1, h.2.2.2, .inr ⟨_, hu1, h', hcap⟩⟩)
    · obtain ⟨hm2, hu2⟩ := h2
      have hu2' : unread s1 = byteBits v ++ unread s2 := hu2
      refine ⟨{ s2 with node := s.node, stk := s.stk }, hm.trans ⟨?_, hm2.2⟩, hcap,
        .inr ⟨v, rfl, by rw [hu1, hu2']; rfl, ?_⟩⟩
      · have := hm2.1
        rw [this]
        simp only [← hn1, ← hk1]
      · have := hm2.1
        rw [this]
        simp only [hset]

/-- From `s` to `u` a whole subtree has been read from the stream and attached. -/
def ReadTree (t : Tree) (rest : List Bool) (s u : State) : Prop :=
  ∃ m, ReaderMoved s m ∧ unread m = rest ∧ u = { m with
    node := attachNodes s.node.length s.node s.stk ++ treeNodes s.node.length t
    stk := attachStk s.stk }

/-- How the loop goes on after a round. -/
def desRest (fuel : Nat) (s : State) : Res Unit :=
  match s.stk with
  | [] => .ok () (closeTree s)
  | _ :: _ => desLoop fuel s

/-- The loop of TC.DESERIALIZE reads a subtree where the unread bits begin with one, and then goes on
(43_treecodec.md R188). -/
theorem desLoop_meets {Q : Unit → State → Prop} {R : Err → State → Prop} (t : Tree) (rest : List Bool) (fuel : Nat)
    (s : State) (hc : s.rdCursor ≤ s.racc.length) (hu : unread s = t.bits ++ rest)
    (hn : s.node.length + t.size ≤ Config.nodeCap) (hw : Waiting s.node s.stk)
    (hR : ∀ e u, HostFault s e u → R e u)
    (hk : ∀ u, ReadTree t rest s u → (desRest fuel u).Meets Q R) :
    (desLoop (t.size + fuel) s).Meets Q R := by
  induction t generalizing rest fuel s with
  | leaf v =>
    simp only [Tree.size] at hn ⊢
    rw [Nat.add_comm, desLoop]
    refine ((readNode_meets s hc hw).mono (fun _ _ h => h) fun e u h => ?_).bind fun tok u h => ?_
    · rcases h with h | ⟨-, -, h | ⟨r, h, hl, -⟩⟩ | ⟨-, -, h, -⟩
      · exact hR e u h
      · rw [hu] at h; simp [Tree.bits] at h
      · rw [hu] at h
        simp only [Tree.bits, List.cons_append, List.cons.injEq, true_and] at h
        rw [← h, List.length_append, byteBits_length] at hl
        omega
      · omega
    obtain ⟨m, hm, -, h1⟩ := h
    rw [hu] at h1
    rcases h1 with ⟨-, h, -⟩ | ⟨w, -, h, rfl⟩
    · simp [Tree.bits] at h
    simp only [Tree.bits, List.cons_append, List.cons.injEq, true_and] at h
    have hb := List.append_inj h (by simp [byteBits_length])
    have hvw : v = w := by rw [← byteOfBits_byteBits v, hb.1, byteOfBits_byteBits]
    exact hk _ ⟨m, hm, hb.2.symm, by rw [hvw]; rfl⟩
  | node l r ihl ihr =>
    simp only [Tree.size] at hn ⊢
    rw [show 1 + l.size + r.size + fuel = l.size + (r.size + fuel) + 1 by omega, desLoop]
    refine ((readNode_meets s hc hw).mono (fun _ _ h => h) fun e u h => ?_).bind fun tok u h => ?_
    · rcases h with h | ⟨-, -, h | ⟨r, h, hl, -⟩⟩ | ⟨-, -, h, -⟩
      · exact hR e u h
      · rw [hu] at h; simp [Tree.bits] at h
      · rw [hu] at h; simp [Tree.bits] at h
      · omega
    obtain ⟨m, hm, -, h1⟩ := h
    rw [hu] at h1
    obtain ⟨hu1, rfl⟩ : unread m = l.bits ++ (r.bits ++ rest) ∧ u = { m with
        node := attachNodes s.node.length s.node s.stk ++ [.internal 0 none none]
        stk := .build s.node.length false :: attachStk s.stk } := by
      rcases h1 with ⟨-, h, hu'⟩ | ⟨w, -, h, -⟩
      · simp only [Tree.bits, List.cons_append, List.append_assoc, List.cons.injEq, true_and] at h
        exact ⟨h.symm, hu'⟩
      · simp [Tree.bits] at h
    have hl := attachNodes_length s.node.length s.node s.stk
    generalize hA : attachNodes s.node.length s.node s.stk = A at hl hk ⊢
    generalize hS : attachStk s.stk = S at hk ⊢
    have gA : ∀ (d : Node) (B : List Node), (A ++ d :: B)[s.node.length]? = some d := by
      intro d B; rw [← hl, List.getElem?_append_right (Nat.le_refl _)]; simp
    have sA : ∀ (d e : Node) (B : List Node), (A ++ d :: B).set s.node.length e = A ++ e :: B := by
      intro d e B; rw [← hl, List.set_append_right _ _ (Nat.le_refl _)]; simp
    refine ihl (r.bits ++ rest) (r.size + fuel)
      { m with node := A ++ [.internal 0 none none], stk := .build s.node.length false :: S }
      hm.2.2 hu1 (by simp only [List.length_append, List.length_singleton]; omega) ⟨0, none, none, gA _ _⟩
      (fun e u h => hR e u (HostFault.of_suffix h hm.2.1)) fun u h => ?_
    obtain ⟨m1, hm1, hu2, rfl⟩ := h
    have hlen : (A ++ [Node.internal 0 none none]).length = s.node.length + 1 := by simp [hl]
    simp only [attachNodes, attachStk, gA, sA, hlen, Bool.false_eq_true, if_false, desRest] at hm1 ⊢
    have hlen1 : (A ++ Node.internal 0 (some (s.node.length + 1)) none ::
        treeNodes (s.node.length + 1) l).length = s.node.length + 1 + l.size := by
      simp only [List.length_append, List.length_cons, treeNodes_length, hl]; omega
    rw [List.append_assoc, List.singleton_append]
    have hd1 : m1.draws <:+ s.draws := hm1.2.1.trans hm.2.1
    refine ihr rest fuel
      { m1 with
        node := A ++ Node.internal 0 (some (s.node.length + 1)) none :: treeNodes (s.node.length + 1) l
        stk := .build s.node.length true :: S }
      hm1.2.2 hu2 (by simp only [hlen1]; omega) ⟨0, _, _, gA _ _⟩
      (fun e u h => hR e u (HostFault.of_suffix h hd1)) fun u h => ?_
    obtain ⟨m2, hm2, hu3, rfl⟩ := h
    have hd2 : m2.draws <:+ s.draws := hm2.2.1.trans hd1
    simp only [attachNodes, attachStk, hlen1, if_true, gA, sA, List.append_assoc, List.cons_append] at hm2 ⊢
    refine hk _ ⟨{ m2 with node := s.node, stk := s.stk }, ⟨?_, hd2, hm2.2.2⟩, hu3, ?_⟩
    · have e2 := hm2.1
      have e1 := hm1.1
      have e0 := hm.1
      rw [e2]
      simp only
      rw [e1]
      simp only
      rw [e0]
    · rw [hA, hS, treeNodes]

/-- Everything TC.DESERIALIZE can do where the unread bits begin with the encoding of a tree of at most 511 nodes
(43_treecodec.md R185, R186, R191). -/
theorem deserialize_meets (s : State) (t : Tree) (rest : List Bool) (hc : s.rdCursor ≤ s.racc.length)
    (hu : unread s = t.bits ++ rest) (hn : t.size ≤ Config.nodeCap) :
    (deserialize s).Meets
      (fun _ u => unread u = rest ∧ ∃ m, ReaderMoved s m ∧
        u = { m with node := treeNodes 0 t, stk := [], root := some 0 })
      (HostFault s) := by
  have hf : Config.nodeCap + 1 = t.size + (Config.nodeCap + 1 - t.size) := by omega
  rw [deserialize, hf]
  refine desLoop_meets t rest _ { s with node := [], stk := [] } hc hu (by simpa using hn) trivial
    (fun _ _ h => h) fun u h => ?_
  obtain ⟨m, hm, hu1, rfl⟩ := h
  simp only [desRest, attachStk, attachNodes, closeTree, List.length_nil, List.nil_append, Res.meets_ok]
  refine ⟨hu1, { m with node := s.node, stk := s.stk }, ⟨?_, hm.2⟩, rfl⟩
  have := hm.1
  rw [this]

/-! ### Any stream -/

/-- Every entry of the stack is an internal node that waits for a child. -/
def AllWaiting (nodes : List Node) (st : List StkEntry) : Prop :=
  ∀ e ∈ st, ∃ p d w l r, e = .build p d ∧ nodes[p]? = some (.internal w l r)

theorem AllWaiting.waiting {nodes : List Node} {st : List StkEntry} (h : AllWaiting nodes st) : Waiting nodes st := by
  cases st with
  | nil => trivial
  | cons e st =>
    obtain ⟨p, d, w, l, r, rfl, hg⟩ := h e (List.mem_cons_self ..)
    exact ⟨w, l, r, hg⟩

/-- How many subtrees the nodes on the stack still wait for. -/
def missing : List StkEntry → Nat
  | [] => 0
  | .build _ d :: st => (if d then 1 else 2) + missing st
  | _ :: st => missing st

/-- How many subtrees a deserializer still reads: one where nothing waits. -/
def needed (st : List StkEntry) : Nat := match st with
  | [] => 1
  | _ :: _ => missing st

theorem missing_attachStk {nodes : List Node} {st : List StkEntry} (h : AllWaiting nodes st) :
    missing (attachStk st) + 1 = needed st := by
  cases st with
  | nil => rfl
  | cons e st =>
    obtain ⟨p, d, w, l, r, rfl, -⟩ := h e (List.mem_cons_self ..)
    cases d <;> simp only [attachStk, needed, missing, if_true, Bool.false_eq_true, if_false] <;> omega

theorem AllWaiting.after {nodes : List Node} {st : List StkEntry} (h : AllWaiting nodes st) (i : Nat) (d : Node) :
    AllWaiting (attachNodes i nodes st ++ [d]) (attachStk st) := by
  have keep : ∀ (p : Nat) (w : Nat) (l r : Option Nat), nodes[p]? = some (.internal w l r) →
      ∃ w l r, (attachNodes i nodes st ++ [d])[p]? = some (.internal w l r) := by
    intro p w l r hp
    have hlt : p < nodes.length := (List.getElem?_eq_some_iff.mp hp).1
    rw [List.getElem?_append_left (by rw [attachNodes_length]; exact hlt)]
    unfold attachNodes
    split
    · split
      · split
        · rw [List.getElem?_set]; split
          · rename_i hq; subst hq; simp [hlt]
          · exact ⟨w, l, r, hp⟩
        · rw [List.getElem?_set]; split
          · rename_i hq; subst hq; simp [hlt]
          · exact ⟨w, l, r, hp⟩
      · exact ⟨w, l, r, hp⟩
    · exact ⟨w, l, r, hp⟩
  intro e he
  have : ∃ p d', e = .build p d' ∧ ∃ w l r, nodes[p]? = some (.internal w l r) := by
    cases st with
    | nil => simp [attachStk] at he
    | cons f st =>
      obtain ⟨p, d', w, l, r, rfl, hg⟩ := h f (List.mem_cons_self ..)
      cases d' with
      | true =>
        obtain ⟨p', d'', w', l', r', rfl, hg'⟩ := h e (List.mem_cons_of_mem _ (by simpa [attachStk] using he))
        exact ⟨p', d'', rfl, w', l', r', hg'⟩
      | false =>
        simp only [attachStk, Bool.false_eq_true, if_false, List.mem_cons] at he
        rcases he with rfl | he
        · exact ⟨p, true, rfl, w, l, r, hg⟩
        · obtain ⟨p', d'', w', l', r', rfl, hg'⟩ := h e (List.mem_cons_of_mem _ he)
          exact ⟨p', d'', rfl, w', l', r', hg'⟩
  obtain ⟨p, d', rfl, w, l, r, hg⟩ := this
  obtain ⟨w', l', r', hg'⟩ := keep p w l r hg
  exact ⟨p, d', w', l', r', rfl, hg'⟩

/-- How reading `k` subtrees can fail: by the host, by a stream that has no `k` subtrees, or because the next ones
are too large for the node store (43_treecodec.md R187, R189). -/
def TreeFault (k : Nat) (s : State) (e : Err) (u : State) : Prop :=
  HostFault s e u ∨
  (e = .endOfInput ∧ unread u = [] ∧ (∀ ts : List Tree, ts.length = k → ¬ ts.flatMap Tree.bits <+: unread s) ∧
    ¬ OverflowsFrom k (Config.nodeCap - s.node.length) (unread s)) ∨
  (e = .nodeStoreOverflow ∧ u.node.length = Config.nodeCap ∧
    OverflowsFrom k (Config.nodeCap - s.node.length) (unread s) ∧
    ∀ ts : List Tree, ts.length = k → ts.flatMap Tree.bits <+: unread s →
      Config.nodeCap < s.node.length + (ts.map Tree.size).sum)

/-- A node token read takes one from the tokens to come (30_encoding.md R100). -/
theorem overflowsFrom_internal {k n : Nat} {bits : List Bool} (hk : 1 ≤ k) :
    OverflowsFrom k (n + 1) (false :: bits) ↔ OverflowsFrom (k + 1) n bits := by
  constructor
  · rintro ⟨toks, flag, rest, hn, ho, hb⟩
    match toks, hn with
    | none :: toks, hn =>
      exact ⟨toks, flag, rest, by simpa using hn, ho.2, by simpa [nodeTokenBits] using hb⟩
    | some v :: toks, hn => simp [nodeTokenBits] at hb
  · rintro ⟨toks, flag, rest, hn, ho, rfl⟩
    exact ⟨none :: toks, flag, rest, by simpa using hn, ⟨hk, ho⟩, by simp [nodeTokenBits]⟩

theorem overflowsFrom_leaf {k n : Nat} {v : Byte} {bits : List Bool} :
    OverflowsFrom (k + 1) (n + 1) (true :: (byteBits v ++ bits)) ↔ OverflowsFrom k n bits := by
  constructor
  · rintro ⟨toks, flag, rest, hn, ho, hb⟩
    match toks, hn with
    | none :: toks, hn => simp [nodeTokenBits] at hb
    | some w :: toks, hn =>
      simp only [List.flatMap_cons, nodeTokenBits, List.cons_append, List.append_assoc, List.cons.injEq, true_and] at hb
      exact ⟨toks, flag, rest, by simpa using hn, ho.2, (List.append_inj hb (by simp [byteBits_length])).2⟩
  · rintro ⟨toks, flag, rest, hn, ho, rfl⟩
    exact ⟨some v :: toks, flag, rest, by simpa using hn, ⟨by omega, ho⟩, by simp [nodeTokenBits]⟩

theorem not_overflowsFrom_nil (k n : Nat) : ¬ OverflowsFrom k n [] := by
  rintro ⟨toks, flag, rest, -, -, hb⟩
  simp at hb

theorem overflowsFrom_zero {k : Nat} {bits : List Bool} (hk : 1 ≤ k) (hb : bits ≠ []) : OverflowsFrom k 0 bits := by
  obtain ⟨flag, rest, rfl⟩ := List.exists_cons_of_ne_nil hb
  exact ⟨[], flag, rest, rfl, hk, rfl⟩

/-- A tree that is read needs no node more than the store has. -/
theorem not_overflowsFrom {k n : Nat} {bits : List Bool} {ts : List Tree} (hk : ts.length = k)
    (hz : (ts.map Tree.size).sum ≤ n) (hp : ts.flatMap Tree.bits <+: bits) : ¬ OverflowsFrom k n bits := by
  rintro ⟨toks, flag, rest, hn, ho, rfl⟩
  induction toks generalizing k n ts with
  | nil =>
    cases ts with
    | nil => simp only [List.length_nil] at hk; subst hk; exact absurd ho (by simp [StillOpen])
    | cons t ts =>
      have := t.size_pos
      simp only [List.map_cons, List.sum_cons, List.length_nil] at *
      omega
  | cons tok toks ih =>
    cases ts with
    | nil =>
      simp only [List.length_nil] at hk
      subst hk
      cases tok <;> exact absurd ho.1 (by omega)
    | cons t ts =>
      simp only [List.length_cons, List.map_cons, List.sum_cons] at *
      cases tok with
      | none =>
        cases t with
        | leaf v => simp [Tree.bits, nodeTokenBits] at hp
        | node l r =>
          simp only [Tree.size] at hz
          refine ih (k := k + 1) (n := n - 1) (ts := l :: r :: ts) (by simp; omega) (by simp; omega) (by omega) ho.2 ?_
          simpa [Tree.bits, nodeTokenBits] using hp
      | some v =>
        cases t with
        | node l r => simp [Tree.bits, nodeTokenBits] at hp
        | leaf w =>
          simp only [Tree.size] at hz
          refine ih (k := k - 1) (n := n - 1) (ts := ts) (by omega) (by omega) (by omega) ho.2 ?_
          simp only [List.flatMap_cons, Tree.bits, nodeTokenBits, List.cons_append, List.append_assoc,
            List.cons_prefix_cons, true_and] at hp
          obtain ⟨x, hx⟩ := hp
          rw [List.append_assoc] at hx
          exact ⟨x, (List.append_inj hx (by simp [byteBits_length])).2⟩

theorem TreeFault.step {k j : Nat} {s m u u' : State} {e : Err} (h : TreeFault k u e u') (hm : ReaderMoved s m)
    (hud : u.draws = m.draws) (hn : u.node.length = s.node.length + 1)
    (hcons : ∀ ts : List Tree, ts.length = j → ts.flatMap Tree.bits <+: unread s →
      ∃ ts' : List Tree, ts'.length = k ∧ ts'.flatMap Tree.bits <+: unread u ∧
        (ts.map Tree.size).sum = (ts'.map Tree.size).sum + 1)
    (hover : OverflowsFrom j (Config.nodeCap - s.node.length) (unread s) ↔
      OverflowsFrom k (Config.nodeCap - u.node.length) (unread u)) : TreeFault j s e u' := by
  rcases h with h | ⟨he, hu, h, ho⟩ | ⟨he, hl, ho, h⟩
  · exact .inl (h.of_suffix (by rw [hud]; exact hm.2.1))
  · refine .inr (.inl ⟨he, hu, fun ts hts hp => ?_, mt hover.mp ho⟩)
    obtain ⟨ts', h1, h2, -⟩ := hcons ts hts hp
    exact h ts' h1 h2
  · refine .inr (.inr ⟨he, hl, hover.mpr ho, fun ts hts hp => ?_⟩)
    obtain ⟨ts', h1, h2, h3⟩ := hcons ts hts hp
    have := h ts' h1 h2
    omega

theorem desLoop_total (fuel : Nat) (s : State) (hc : s.rdCursor ≤ s.racc.length) (hw : AllWaiting s.node s.stk)
    (hf : Config.nodeCap < fuel + s.node.length) (hn : s.node.length ≤ Config.nodeCap) :
    (desLoop fuel s).Meets
      (fun _ u => ∃ ts : List Tree, ts.length = needed s.stk ∧ unread s = ts.flatMap Tree.bits ++ unread u ∧
        s.node.length + (ts.map Tree.size).sum ≤ Config.nodeCap)
      (TreeFault (needed s.stk) s) := by
  induction fuel generalizing s with
  | zero => omega
  | succ fuel ih =>
    have hmiss := missing_attachStk hw
    have hl := attachNodes_length s.node.length s.node s.stk
    have hne : ∀ ts : List Tree, ts.length = needed s.stk → ∃ t ts', ts = t :: ts' ∧ ts'.length = missing (attachStk s.stk) := by
      intro ts hts
      cases ts with
      | nil => simp only [List.length_nil] at hts; omega
      | cons t ts' => exact ⟨t, ts', rfl, by simp only [List.length_cons] at hts; omega⟩
    have hbits : ∀ t : Tree, t.bits ≠ [] := fun t => by cases t <;> simp [Tree.bits]
    rw [desLoop]
    refine ((readNode_meets s hc hw.waiting).mono (fun _ _ h => h) fun e u h => ?_).bind fun tok u h => ?_
    · rcases h with h | ⟨he, hend, h⟩ | ⟨he, h, hcap, hu⟩
      · exact .inl h
      · refine .inr (.inl ⟨he, hend, fun ts hts hp => ?_, ?_⟩)
        rotate_left
        · rcases h with h | ⟨r, h, hr, hcap⟩
          · rw [h]; exact not_overflowsFrom_nil _ _
          · rw [h, show Config.nodeCap - s.node.length = Config.nodeCap - s.node.length - 1 + 1 by omega]
            rintro ⟨toks, flag, rest, hn', ho, hb⟩
            match toks, hn' with
            | none :: toks, _ => simp [nodeTokenBits] at hb
            | some v :: toks, _ =>
              have := congrArg List.length hb
              simp [nodeTokenBits, byteBits_length] at this
              omega
        obtain ⟨t, ts', rfl, -⟩ := hne ts hts
        rcases h with h | ⟨r, h, hr, -⟩
        · rw [h] at hp
          have := List.prefix_nil.mp hp
          simp [hbits] at this
        · rw [h] at hp
          cases t with
          | leaf v =>
            simp only [List.flatMap_cons, Tree.bits, List.cons_append, List.cons_prefix_cons, true_and] at hp
            have := hp.length_le
            rw [List.length_append, byteBits_length] at this
            omega
          | node a b => simp [Tree.bits] at hp
      · refine .inr (.inr ⟨he, by rw [hu, hcap], by rw [hcap, Nat.sub_self]; exact overflowsFrom_zero (by omega) h,
          fun ts hts _ => ?_⟩)
        obtain ⟨t, ts', rfl, -⟩ := hne ts hts
        have := t.size_pos
        simp only [List.map_cons, List.sum_cons]
        omega
    · obtain ⟨m, hm, hcap, h⟩ := h
      have go : ∀ u : State, u.rdCursor ≤ u.racc.length → u.draws = m.draws → u.node.length = s.node.length + 1 →
          AllWaiting u.node u.stk →
          (∀ ts : List Tree, ts.length = needed s.stk → ts.flatMap Tree.bits <+: unread s →
            ∃ ts' : List Tree, ts'.length = missing u.stk ∧ ts'.flatMap Tree.bits <+: unread u ∧
              (ts.map Tree.size).sum = (ts'.map Tree.size).sum + 1) →
          (OverflowsFrom (needed s.stk) (Config.nodeCap - s.node.length) (unread s) ↔
            OverflowsFrom (missing u.stk) (Config.nodeCap - u.node.length) (unread u)) →
          (∀ (ts : List Tree) (rest : List Bool), ts.length = missing u.stk →
            unread u = ts.flatMap Tree.bits ++ rest → ∃ ts' : List Tree, ts'.length = needed s.stk ∧
              unread s = ts'.flatMap Tree.bits ++ rest ∧ (ts'.map Tree.size).sum = (ts.map Tree.size).sum + 1) →
          (match u.stk with | [] => Res.ok () (closeTree u) | _ :: _ => desLoop fuel u).Meets
            (fun _ u => ∃ ts : List Tree, ts.length = needed s.stk ∧ unread s = ts.flatMap Tree.bits ++ unread u ∧
              s.node.length + (ts.map Tree.size).sum ≤ Config.nodeCap)
            (TreeFault (needed s.stk) s) := by
        intro u huc hud hun huw hcons hover hback
        cases hst : u.stk with
        | nil =>
          obtain ⟨ts', h1, h2, h3⟩ := hback [] (unread u) (by simp [hst, missing]) (by simp)
          refine ⟨ts', h1, by rw [h2]; simp [closeTree, hst]; rfl, ?_⟩
          rw [h3]; simp; omega
        | cons e st =>
          have hneed : needed u.stk = missing u.stk := by rw [hst]; rfl
          refine (ih u huc huw (by omega) (by omega)).mono (fun _ w hw' => ?_) (fun e w hw' => ?_)
          · obtain ⟨ts, h1, h2, h3⟩ := hw'
            obtain ⟨ts', h1', h2', h3'⟩ := hback ts (unread w) (by rw [h1, hneed]) h2
            exact ⟨ts', h1', h2', by omega⟩
          · rw [hneed] at hw'
            exact hw'.step hm hud hun hcons hover
      have hlast : ∀ d : Node, (attachNodes s.node.length s.node s.stk ++ [d])[s.node.length]? = some d := by
        intro d
        rw [List.getElem?_append_right (by omega), hl, Nat.sub_self]; rfl
      rcases h with ⟨-, hu, hue⟩ | ⟨v, -, hu, hue⟩
      · have hus : u.stk = .build s.node.length false :: attachStk s.stk := by rw [hue]
        have hun : u.node = attachNodes s.node.length s.node s.stk ++ [.internal 0 none none] := by rw [hue]
        have hur : unread u = unread m := by rw [hue]; rfl
        refine go u (by rw [hue]; exact hm.2.2) (by rw [hue]) (by rw [hun, List.length_append, hl]; rfl) ?_ ?_ ?_ ?_
        · intro e he
          rw [hus] at he
          rw [hun]
          rcases List.mem_cons.mp he with rfl | he
          · exact ⟨_, _, 0, none, none, rfl, hlast _⟩
          · exact hw.after _ _ e he
        · intro ts hts hp
          obtain ⟨t, ts', rfl, hl'⟩ := hne ts hts
          rw [hu] at hp
          cases t with
          | leaf v => simp [Tree.bits] at hp
          | node a b =>
            refine ⟨a :: b :: ts', ?_, ?_, ?_⟩
            · rw [hus]; simp [missing, hl']; omega
            · rw [hur]; simpa [Tree.bits] using hp
            · simp only [List.map_cons, List.sum_cons, Tree.size]; omega
        · rw [hur, hu, hus, hun, List.length_append, hl, List.length_singleton,
            show Config.nodeCap - s.node.length = Config.nodeCap - (s.node.length + 1) + 1 by omega,
            overflowsFrom_internal (by omega), ← hmiss]
          have : missing (.build s.node.length false :: attachStk s.stk) = missing (attachStk s.stk) + 1 + 1 := by
            simp only [missing, Bool.false_eq_true, if_false]; omega
          rw [this]
        · intro ts rest hts hr
          rw [hus] at hts
          rw [hur] at hr
          match ts, hts with
          | [], hts => simp [missing] at hts; omega
          | [_], hts => simp [missing] at hts; omega
          | a :: b :: ts', hts =>
            refine ⟨.node a b :: ts', by simp [missing] at hts ⊢; omega, ?_, ?_⟩
            · rw [hu, hr]; simp [Tree.bits]
            · simp only [List.map_cons, List.sum_cons, Tree.size]; omega
      · have hus : u.stk = attachStk s.stk := by rw [hue]
        have hun : u.node = attachNodes s.node.length s.node s.stk ++ [.leaf v 0] := by rw [hue]
        have hur : unread u = unread m := by rw [hue]; rfl
        refine go u (by rw [hue]; exact hm.2.2) (by rw [hue]) (by rw [hun, List.length_append, hl]; rfl)
          (by rw [hus, hun]; exact hw.after _ _) ?_ ?_ ?_
        · intro ts hts hp
          obtain ⟨t, ts', rfl, hl'⟩ := hne ts hts
          rw [hu] at hp
          cases t with
          | node a b => simp [Tree.bits] at hp
          | leaf w =>
            simp only [List.flatMap_cons, Tree.bits, List.cons_append, List.cons_prefix_cons, true_and] at hp
            refine ⟨ts', by rw [hus, hl'], ?_, ?_⟩
            · obtain ⟨r, hr⟩ := hp
              rw [List.append_assoc] at hr
              exact ⟨r, by rw [hur]; exact (List.append_inj hr (by simp [byteBits_length])).2⟩
            · simp only [List.map_cons, List.sum_cons, Tree.size]; omega
        · rw [hur, hu, hus, hun, List.length_append, hl, List.length_singleton, ← hmiss,
            show Config.nodeCap - s.node.length = Config.nodeCap - (s.node.length + 1) + 1 by omega]
          exact overflowsFrom_leaf
        · intro ts rest hts hr
          rw [hus] at hts
          rw [hur] at hr
          refine ⟨.leaf v :: ts, by simp only [List.length_cons]; omega, ?_, ?_⟩
          · rw [hu, hr]; simp [Tree.bits]
          · simp only [List.map_cons, List.sum_cons, Tree.size]; omega

/-- How TC.DESERIALIZE can fail: by the host, because the stream ends, or because a 512th node is begun. -/
def NoTree (s : State) (e : Err) (u : State) : Prop :=
  HostFault s e u ∨
  (e = .endOfInput ∧ unread u = [] ∧ (∀ t : Tree, ¬ t.bits <+: unread s) ∧ ¬ Overflows (unread s)) ∨
  (e = .nodeStoreOverflow ∧ u.node.length = Config.nodeCap ∧ Overflows (unread s))

/-- TC.DESERIALIZE on any stream: a tree of at most 511 nodes that the stream begins with, or an error, and never a
stop of the model (43_treecodec.md R185, R187, R189). -/
theorem deserialize_total (s : State) (hc : s.rdCursor ≤ s.racc.length) :
    (deserialize s).Meets
      (fun _ u => ∃ t : Tree, t.size ≤ Config.nodeCap ∧ unread s = t.bits ++ unread u ∧ ∃ m, ReaderMoved s m ∧
        u = { m with node := treeNodes 0 t, stk := [], root := some 0 })
      (NoTree s) := by
  have h := desLoop_total (Config.nodeCap + 1) { s with node := [], stk := [] } hc (by simp [AllWaiting])
    (by simp) (by simp)
  rw [deserialize]
  cases hx : desLoop (Config.nodeCap + 1) { s with node := [], stk := [] } with
  | ok a u =>
    rw [hx] at h
    obtain ⟨ts, h1, h2, h3⟩ := h
    obtain ⟨t, rfl⟩ := List.length_eq_one_iff.mp h1
    simp only [List.map_cons, List.map_nil, List.sum_cons, List.sum_nil, List.length_nil] at h3
    have h2' : unread s = t.bits ++ unread u := by
      have : unread { s with node := [], stk := [] } = unread s := rfl
      rw [this] at h2; simpa using h2
    have h4 := deserialize_meets s t (unread u) hc h2' (by omega)
    rw [deserialize, hx] at h4
    exact ⟨t, by omega, h2', h4.2⟩
  | raise e u =>
    rw [hx] at h
    rcases h with h | ⟨he, hu, hno, ho⟩ | ⟨he, hl, ho, -⟩
    · exact .inl h
    · exact .inr (.inl ⟨he, hu, fun t ht => hno [t] rfl (show [t].flatMap Tree.bits <+: unread s by simpa using ht), ho⟩)
    · exact .inr (.inr ⟨he, hl, ho⟩)
  | fault f => rw [hx] at h; exact h.elim
  | refused r => rw [hx] at h; exact h.elim

/-- A tree of more than 511 nodes needs a 512th. -/
theorem overflows_of_large {t : Tree} {bits : List Bool} (h : t.bits <+: bits) (hz : Config.nodeCap < t.size) :
    Overflows bits := by
  have key : ∀ (n : Nat) (ts : List Tree) (k : Nat) (bits : List Bool), ts.length = k → 1 ≤ k →
      n < (ts.map Tree.size).sum → ts.flatMap Tree.bits <+: bits → OverflowsFrom k n bits := by
    intro n
    induction n with
    | zero =>
      intro ts k bits hl hk hs hp
      refine overflowsFrom_zero hk fun hb => ?_
      rw [hb, List.prefix_nil] at hp
      cases ts with
      | nil => simp at hs
      | cons t ts => cases t <;> simp [Tree.bits] at hp
    | succ n ih =>
      intro ts k bits hl hk hs hp
      obtain ⟨rest, rfl⟩ := hp
      cases ts with
      | nil => simp at hs
      | cons t ts =>
        simp only [List.length_cons, List.map_cons, List.sum_cons] at hl hs
        cases t with
        | leaf v =>
          simp only [Tree.size] at hs
          simp only [List.flatMap_cons, Tree.bits, List.cons_append, List.append_assoc]
          obtain rfl : k = ts.length + 1 := hl.symm
          refine overflowsFrom_leaf.mpr (ih ts ts.length _ rfl ?_ (by omega) (List.prefix_append ..))
          by_contra h0
          simp [List.length_eq_zero_iff.mp (by omega : ts.length = 0)] at hs
        | node l r =>
          simp only [Tree.size] at hs
          simp only [List.flatMap_cons, Tree.bits, List.cons_append, List.append_assoc]
          refine (overflowsFrom_internal hk).mpr (ih (l :: r :: ts) (k + 1) _ (by simp; omega) (by omega)
            (by simp; omega) ?_)
          simp
  exact key Config.nodeCap [t] 1 bits rfl (Nat.le_refl 1) (by simpa using hz) (by simpa using h)

/-- Every node read from the stream has weight 0 (43_treecodec.md R186). -/
theorem treeNodes_weight (base : Nat) (t : Tree) : ∀ d ∈ treeNodes base t, d.weight? = some 0 := by
  induction t generalizing base with
  | leaf v =>
    intro d hd
    simp only [treeNodes, List.mem_singleton] at hd
    rw [hd]
    rfl
  | node l r hl hr =>
    intro d hd
    simp only [treeNodes, List.mem_cons, List.mem_append] at hd
    rcases hd with rfl | h | h
    · rfl
    · exact hl _ _ h
    · exact hr _ _ h

end Sys2Proof.Machine
end

