-- ==== Sys2Proof/Laws/Heap.lean ====
section
/-! SUPPORT. The laws of the min-heap (42_treebuilder.md R163 to R167): sifting keeps the entries and restores the
order, and the entry taken out is of least weight. -/

namespace Sys2Proof.Machine

/-- The weight of an entry, 0 where it has none. -/
def wt (nodes : List Node) (x : Nat) : Nat := (weight? nodes x).getD 0

/-- Every entry has a weight. -/
def Weighed (nodes : List Node) (h : List Nat) : Prop := ∀ x ∈ h, (weight? nodes x).isSome

/-- The weight at a position of the heap. -/
def key (nodes : List Node) (h : List Nat) (k : Nat) : Nat := wt nodes (h.getD k 0)

/-- No entry but possibly those the exception names is lighter than its parent. -/
def OrderedBut (nodes : List Node) (h : List Nat) (ex : Nat → Prop) : Prop :=
  ∀ j, 1 ≤ j → j < h.length → ¬ ex j → key nodes h ((j - 1) / 2) ≤ key nodes h j

theorem weight?_wt {nodes : List Node} {x : Nat} (h : (weight? nodes x).isSome) :
    weight? nodes x = some (wt nodes x) := by
  obtain ⟨w, hw⟩ := Option.isSome_iff_exists.mp h
  simp [wt, hw]

theorem less_eq {nodes : List Node} {x y : Nat} (hx : (weight? nodes x).isSome) (hy : (weight? nodes y).isSome) :
    less nodes x y = some (decide (wt nodes x < wt nodes y)) := by
  simp [less, weight?_wt hx, weight?_wt hy]

theorem Weighed.perm {nodes : List Node} {g h : List Nat} (hw : Weighed nodes h) (hp : g.Perm h) :
    Weighed nodes g := fun x hx => hw x (hp.mem_iff.mp hx)

theorem getElem?_getD {h : List Nat} {k : Nat} (hk : k < h.length) : h[k]? = some (h.getD k 0) := by
  simp [List.getD_eq_getElem?_getD, List.getElem?_eq_getElem hk]

theorem getD_mem {h : List Nat} {k : Nat} (hk : k < h.length) : h.getD k 0 ∈ h := by
  rw [List.getD_eq_getElem?_getD, List.getElem?_eq_getElem hk]; exact List.getElem_mem hk

theorem swapAt_perm (h : List Nat) {i j : Nat} (hi : i < h.length) (hj : j < h.length) :
    (swapAt h i j).Perm h := by
  simp only [swapAt, List.getElem?_eq_getElem hi, List.getElem?_eq_getElem hj]
  exact List.set_set_perm hi hj

theorem swapAt_getD (h : List Nat) {i j : Nat} (hi : i < h.length) (hj : j < h.length) (m : Nat) :
    (swapAt h i j).getD m 0 = if m = j then h.getD i 0 else if m = i then h.getD j 0 else h.getD m 0 := by
  simp only [swapAt, List.getElem?_eq_getElem hi, List.getElem?_eq_getElem hj, List.getD_eq_getElem?_getD,
    List.getElem?_set, List.length_set]
  grind

theorem swapAt_length (h : List Nat) {i j : Nat} (hi : i < h.length) (hj : j < h.length) :
    (swapAt h i j).length = h.length := (swapAt_perm h hi hj).length_eq

/-- The heap invariant in positions. -/
theorem heapOrdered_iff (nodes : List Node) (h : List Nat) :
    HeapOrdered nodes h ↔ Weighed nodes h ∧ OrderedBut nodes h fun _ => False := by
  refine and_congr_right fun hw => ⟨fun ho j h1 hj _ => ?_, fun ho k p c h1 hp hc => ?_⟩
  · have hp : (j - 1) / 2 < h.length := by omega
    have := ho j _ _ h1 (getElem?_getD hp) (getElem?_getD hj)
    rw [less_eq (hw _ (getD_mem hj)) (hw _ (getD_mem hp))] at this
    simpa [key] using this
  · have hk := (List.getElem?_eq_some_iff.mp hc).1
    have hp' := (List.getElem?_eq_some_iff.mp hp).1
    have := ho k h1 hk (fun f => f)
    rw [getElem?_getD hk, Option.some.injEq] at hc
    rw [getElem?_getD hp', Option.some.injEq] at hp
    subst hc hp
    rw [less_eq (hw _ (getD_mem hk)) (hw _ (getD_mem hp'))]
    simpa [key] using this

/-- Sifting up an entry that alone may be lighter than its parent (42_treebuilder.md R165). -/
theorem siftUp_spec (nodes : List Node) (fuel : Nat) (h : List Nat) (k : Nat) (hw : Weighed nodes h)
    (hk : k < h.length) (hf : k ≤ fuel) (ho : OrderedBut nodes h (· = k))
    (hg : ∀ j, 1 ≤ j → j < h.length → (j - 1) / 2 = k → 1 ≤ k → key nodes h ((k - 1) / 2) ≤ key nodes h j) :
    ∃ h', siftUp nodes fuel h k = some h' ∧ h'.Perm h ∧ OrderedBut nodes h' fun _ => False := by
  induction fuel generalizing h k with
  | zero =>
    obtain rfl : k = 0 := by omega
    exact ⟨h, rfl, .refl h, fun j h1 hj _ => ho j h1 hj (by omega)⟩
  | succ fuel ih =>
    rw [siftUp]
    by_cases h0 : k = 0
    · subst h0
      exact ⟨h, rfl, .refl h, fun j h1 hj _ => ho j h1 hj (by omega)⟩
    · have hp : (k - 1) / 2 < h.length := by omega
      rw [if_neg h0, getElem?_getD hk, getElem?_getD hp]
      simp only [less_eq (hw _ (getD_mem hk)) (hw _ (getD_mem hp))]
      by_cases hlt : wt nodes (h.getD k 0) < wt nodes (h.getD ((k - 1) / 2) 0)
      · simp only [hlt, decide_true]
        have hperm := swapAt_perm h hk hp
        have hlen := swapAt_length h hk hp
        have hA : OrderedBut nodes (swapAt h k ((k - 1) / 2)) (· = (k - 1) / 2) := by
          intro j h1 hj hne
          rw [hlen] at hj
          have hoj := ho j h1 hj
          have hgj := hg j h1 hj
          simp only [key, swapAt_getD h hk hp] at *
          grind
        have hB : ∀ j, 1 ≤ j → j < (swapAt h k ((k - 1) / 2)).length → (j - 1) / 2 = (k - 1) / 2 →
            1 ≤ (k - 1) / 2 → key nodes (swapAt h k ((k - 1) / 2)) (((k - 1) / 2 - 1) / 2) ≤
              key nodes (swapAt h k ((k - 1) / 2)) j := by
          intro j h1 hj he h2
          rw [hlen] at hj
          have hoj := ho j h1 hj
          have hop := ho ((k - 1) / 2) h2 hp (by omega)
          simp only [key, swapAt_getD h hk hp] at *
          grind
        obtain ⟨h', e, p, o⟩ := ih _ _ (hw.perm hperm) (by omega) (by omega) hA hB
        exact ⟨h', e, p.trans hperm, o⟩
      · simp only [hlt, decide_false]
        refine ⟨h, rfl, .refl h, fun j h1 hj _ => ?_⟩
        by_cases hjk : j = k
        · subst hjk; simp only [key]; omega
        · exact ho j h1 hj hjk

/-- One comparison with a child (42_treebuilder.md R166). -/
theorem lighter_eq {nodes : List Node} {h : List Nat} {m c : Nat} (hw : Weighed nodes h) (hm : m < h.length) :
    lighter nodes h m c = some (if c < h.length ∧ key nodes h c < key nodes h m then c else m) := by
  unfold lighter
  by_cases hc : c < h.length
  · rw [getElem?_getD hc, getElem?_getD hm]
    simp only [less_eq (hw _ (getD_mem hc)) (hw _ (getD_mem hm)), hc, true_and, key]
    by_cases hlt : wt nodes (h.getD c 0) < wt nodes (h.getD m 0) <;> simp only [hlt, decide_true, decide_false, if_true, if_false]
  · rw [List.getElem?_eq_none (by omega)]
    simp [hc]

/-- Sifting down an entry that alone may be heavier than its children (42_treebuilder.md R166). -/
theorem siftDown_spec (nodes : List Node) (fuel : Nat) (h : List Nat) (k : Nat) (hw : Weighed nodes h)
    (hk : k < h.length) (hf : h.length ≤ k + fuel) (ho : OrderedBut nodes h fun j => (j - 1) / 2 = k)
    (hg : ∀ j, 1 ≤ j → j < h.length → (j - 1) / 2 = k → 1 ≤ k → key nodes h ((k - 1) / 2) ≤ key nodes h j) :
    ∃ h', siftDown nodes fuel h k = some h' ∧ h'.Perm h ∧ OrderedBut nodes h' fun _ => False := by
  induction fuel generalizing h k with
  | zero => omega
  | succ fuel ih =>
    rw [siftDown]
    simp only [lighter_eq hw hk]
    generalize hm1 : (if 2 * k + 1 < h.length ∧ key nodes h (2 * k + 1) < key nodes h k then 2 * k + 1 else k) = m1
    have hm1l : m1 < h.length := by grind
    simp only [lighter_eq hw hm1l]
    generalize hm : (if 2 * k + 2 < h.length ∧ key nodes h (2 * k + 2) < key nodes h m1 then 2 * k + 2 else m1) = m
    have hchild : ∀ j, 1 ≤ j → (j - 1) / 2 = k → j = 2 * k + 1 ∨ j = 2 * k + 2 := by intro j _ _; omega
    have hm1k : key nodes h m1 ≤ key nodes h k := by grind
    have hm1c : 2 * k + 1 < h.length → key nodes h m1 ≤ key nodes h (2 * k + 1) := by grind
    have hmm : key nodes h m ≤ key nodes h m1 := by grind
    have hmc : 2 * k + 2 < h.length → key nodes h m ≤ key nodes h (2 * k + 2) := by grind
    have hmin : ∀ j, 1 ≤ j → j < h.length → (j - 1) / 2 = k → key nodes h m ≤ key nodes h j := by
      intro j h1 hj hp
      rcases hchild j h1 hp with rfl | rfl
      · exact hmm.trans (hm1c hj)
      · exact hmc hj
    by_cases hmk : m = k
    · rw [if_pos hmk]
      refine ⟨h, rfl, .refl h, fun j h1 hj _ => ?_⟩
      by_cases hp : (j - 1) / 2 = k
      · rw [hp, ← hmk]; exact hmin j h1 hj hp
      · exact ho j h1 hj hp
    · rw [if_neg hmk]
      have hml : m < h.length := by grind
      have hmp : (m - 1) / 2 = k ∧ 1 ≤ m := by grind
      have hperm := swapAt_perm h hk hml
      have hlen := swapAt_length h hk hml
      have hmlk : key nodes h m ≤ key nodes h k := hmm.trans hm1k
      have kk : key nodes (swapAt h k m) k = key nodes h m := by
        simp only [key, swapAt_getD h hk hml, if_neg (Ne.symm hmk), if_true]
      have km : key nodes (swapAt h k m) m = key nodes h k := by
        simp only [key, swapAt_getD h hk hml, if_true]
      have kn : ∀ i, i ≠ k → i ≠ m → key nodes (swapAt h k m) i = key nodes h i := by
        intro i hi hi'
        simp only [key, swapAt_getD h hk hml, if_neg hi, if_neg hi']
      have hA : OrderedBut nodes (swapAt h k m) fun j => (j - 1) / 2 = m := by
        intro j h1 hj hne
        rw [hlen] at hj
        by_cases hjm : j = m
        · subst hjm; rw [hmp.1, kk, km]; exact hmlk
        · by_cases hjk : j = k
          · subst hjk
            rw [kk, kn ((j - 1) / 2) (by omega) (by omega)]
            exact hg m hmp.2 hml hmp.1 h1
          · rw [kn j hjk hjm]
            by_cases hpk : (j - 1) / 2 = k
            · rw [hpk, kk]; exact hmin j h1 hj hpk
            · rw [kn _ hpk hne]; exact ho j h1 hj hpk
      have hB : ∀ j, 1 ≤ j → j < (swapAt h k m).length → (j - 1) / 2 = m → 1 ≤ m →
          key nodes (swapAt h k m) ((m - 1) / 2) ≤ key nodes (swapAt h k m) j := by
        intro j h1 hj he h2
        rw [hlen] at hj
        rw [hmp.1, kk, kn j (by omega) (by omega)]
        have := ho j h1 hj (by omega)
        rwa [he] at this
      obtain ⟨h', e, p, o⟩ := ih _ _ (hw.perm hperm) (by omega) (by omega) hA hB
      exact ⟨h', e, p.trans hperm, o⟩

/-- The first entry of an ordered heap is of least weight. -/
theorem key_zero_le {nodes : List Node} {h : List Nat} (ho : OrderedBut nodes h fun _ => False) (k : Nat)
    (hk : k < h.length) : key nodes h 0 ≤ key nodes h k := by
  induction k using Nat.strong_induction_on with
  | _ k ih =>
    by_cases h0 : k = 0
    · rw [h0]
    · exact (ih ((k - 1) / 2) (by omega) (by omega)).trans (ho k (by omega) hk (fun f => f))

/-- HEAP.INSERT on an ordered heap (42_treebuilder.md R165, R167). -/
theorem siftUp_insert {nodes : List Node} {h : List Nat} (hh : HeapOrdered nodes h) {x : Nat}
    (hx : (weight? nodes x).isSome) :
    ∃ h', siftUp nodes h.length (h ++ [x]) h.length = some h' ∧ h'.Perm (x :: h) ∧ HeapOrdered nodes h' := by
  rw [heapOrdered_iff] at hh
  have hw : Weighed nodes (h ++ [x]) := by
    intro y hy
    rcases List.mem_append.mp hy with hy | hy
    · exact hh.1 y hy
    · rw [List.mem_singleton.mp hy]; exact hx
  have hget : ∀ j, j < h.length → (h ++ [x]).getD j 0 = h.getD j 0 := by
    intro j hj
    simp only [List.getD_eq_getElem?_getD, List.getElem?_append_left hj]
  have hlen : (h ++ [x]).length = h.length + 1 := by simp
  have hA : OrderedBut nodes (h ++ [x]) (· = h.length) := by
    intro j h1 hj hne
    have hj' : j < h.length := by omega
    simp only [key, hget j hj', hget ((j - 1) / 2) (by omega)]
    exact hh.2 j h1 hj' (fun f => f)
  obtain ⟨h', e, p, o⟩ := siftUp_spec nodes h.length (h ++ [x]) h.length hw (by omega) le_rfl hA
    (fun j h1 hj he _ => by omega)
  refine ⟨h', e, p.trans List.perm_append_comm, ?_⟩
  rw [heapOrdered_iff]
  exact ⟨hw.perm p, o⟩

/-- HEAP.EXTRACTMIN on an ordered heap (42_treebuilder.md R166, R167). -/
theorem heapAfterMin_spec {nodes : List Node} {x : Nat} {rest : List Nat} (hh : HeapOrdered nodes (x :: rest)) :
    (∃ h', heapAfterMin nodes rest = some h' ∧ h'.Perm rest ∧ HeapOrdered nodes h') ∧
      ∀ y ∈ rest, wt nodes x ≤ wt nodes y := by
  rw [heapOrdered_iff] at hh
  obtain ⟨hw, ho⟩ := hh
  have hwr : Weighed nodes rest := fun y hy => hw y (List.mem_cons_of_mem _ hy)
  refine ⟨?_, fun y hy => ?_⟩
  · rcases List.eq_nil_or_concat rest with rfl | ⟨ini, last, rfl⟩
    · exact ⟨[], rfl, .refl _, by rw [heapOrdered_iff]; exact ⟨hwr, fun j _ hj _ => by simp at hj⟩⟩
    · rw [List.concat_eq_append] at *
      have hp : (last :: ini).Perm (ini ++ [last]) := (List.perm_append_comm (l₁ := ini) (l₂ := [last])).symm
      have hget : ∀ j, 1 ≤ j → j < (last :: ini).length →
          (last :: ini).getD j 0 = (x :: (ini ++ [last])).getD j 0 := by
        intro j h1 hj
        obtain ⟨i, rfl⟩ := Nat.exists_eq_add_of_le' h1
        simp only [List.length_cons] at hj
        simp only [List.getD_eq_getElem?_getD, List.getElem?_cons_succ]
        rw [List.getElem?_append_left (by omega)]
      have hA : OrderedBut nodes (last :: ini) fun j => (j - 1) / 2 = 0 := by
        intro j h1 hj hne
        have h := ho j h1 (by simp at hj ⊢; omega) (fun f => f)
        simp only [key] at h ⊢
        rw [hget j h1 hj, hget _ (by omega) (by omega)]
        exact h
      obtain ⟨h', e, p, o⟩ := siftDown_spec nodes (ini ++ [last]).length (last :: ini) 0 (hwr.perm hp) (by simp)
        (by simp) hA (fun j h1 hj he h2 => by omega)
      refine ⟨h', by simpa [heapAfterMin] using e, p.trans hp, ?_⟩
      rw [heapOrdered_iff]
      exact ⟨hwr.perm (p.trans hp), o⟩
  · obtain ⟨k, hk, rfl⟩ := List.getElem_of_mem hy
    have := key_zero_le ho (k + 1) (by simpa using hk)
    simpa [key, List.getD_eq_getElem?_getD, List.getElem?_eq_getElem hk] using this

/-! ### The reference heap -/

theorem swapAt_eq {h : List Nat} {i j a b : Nat} (ha : h[i]? = some a) (hb : h[j]? = some b) :
    swapAt h i j = (h.set i b).set j a := by simp only [swapAt, ha, hb]

/-- Sifting up is R165's. -/
theorem siftUp_sifts {nodes : List Node} {fuel k : Nat} {h h' : List Nat} (hk : k < h.length) (hf : k ≤ fuel)
    (e : siftUp nodes fuel h k = some h') : SiftsUp nodes h k h' := by
  induction fuel generalizing h k with
  | zero =>
    obtain rfl : k = 0 := by omega
    cases e; exact .top _
  | succ fuel ih =>
    rw [siftUp] at e
    split at e
    · rename_i h0; subst h0; cases e; exact .top _
    · rename_i h0
      split at e
      · rename_i x p hx hp
        split at e
        · rename_i hlt
          rw [swapAt_eq hx hp] at e
          exact .moves (by omega) hx hp hlt (ih (by simp; omega) (by omega) e)
        · rename_i hle; cases e; exact .stays (by omega) hx hp hle
        · cases e
      · rename_i hn
        exact (hn _ _ (List.getElem?_eq_getElem hk) (List.getElem?_eq_getElem (by omega))).elim

/-- One comparison with a child, where it is decided. -/
theorem lighter_some {nodes : List Node} {h : List Nat} {m c m' x : Nat} (hx : h[m]? = some x)
    (e : lighter nodes h m c = some m') :
    (m' = m ∧ ∀ y, h[c]? = some y → less nodes y x = some false) ∨
      ∃ y, m' = c ∧ h[c]? = some y ∧ less nodes y x = some true := by
  unfold lighter at e
  rw [hx] at e
  cases hc : h[c]? with
  | none => simp only [hc] at e; cases e; exact .inl ⟨rfl, fun y hy => by cases hy⟩
  | some y =>
    simp only [hc] at e
    split at e
    · rename_i hl; cases e; exact .inr ⟨y, rfl, rfl, hl⟩
    · rename_i hl; cases e; exact .inl ⟨rfl, fun z hz => by cases hz; exact hl⟩
    · cases e

theorem less_some {nodes : List Node} {x y : Nat} {b : Bool} (h : less nodes x y = some b) :
    (weight? nodes x).isSome ∧ (weight? nodes y).isSome ∧ b = decide (wt nodes x < wt nodes y) := by
  unfold less at h
  split at h
  · rename_i a c ha hc; cases h; simp [ha, hc, wt]
  · cases h

/-- Sifting down is R166's. -/
theorem siftDown_sifts {nodes : List Node} {fuel k : Nat} {h h' : List Nat} (hw : Weighed nodes h) (hk : k < h.length)
    (hf : h.length ≤ k + fuel) (e : siftDown nodes fuel h k = some h') : SiftsDown nodes h k h' := by
  induction fuel generalizing h k with
  | zero => omega
  | succ fuel ih =>
    have hx : h[k]? = some h[k] := List.getElem?_eq_getElem hk
    have perm : ∀ m y, h[m]? = some y → ((h.set k y).set m h[k]).Perm h := fun m y hy => by
      rw [← swapAt_eq hx hy]; exact swapAt_perm h hk (List.getElem?_eq_some_iff.mp hy).1
    rw [siftDown] at e
    split at e
    · cases e
    · rename_i m1 h1
      split at e
      · cases e
      · rename_i m h2
        rcases lighter_some hx h1 with ⟨rfl, hl⟩ | ⟨y, rfl, hy, hl⟩
        · rcases lighter_some hx h2 with ⟨rfl, hr⟩ | ⟨z, rfl, hz, hr⟩
          · rw [if_pos rfl] at e
            cases e
            refine .stays hx fun c y hc hy => ?_
            rcases hc with rfl | rfl
            · exact hl y hy
            · exact hr y hy
          · rw [if_neg (by omega), swapAt_eq hx hz] at e
            have hp := perm _ _ hz
            refine .right hx hz hr (fun y hy => ?_) (ih (hw.perm hp) (by rw [hp.length_eq]; exact (List.getElem?_eq_some_iff.mp hz).1)
              (by rw [hp.length_eq]; omega) e)
            have a := less_some hr
            have b := less_some (hl y hy)
            rw [less_eq a.1 b.1]
            have := a.2.2; have := b.2.2
            simp only [Option.some.injEq, decide_eq_true_eq] at *
            simp only [true_eq_decide_iff, false_eq_decide_iff] at *
            omega
        · rcases lighter_some hy h2 with ⟨rfl, hr⟩ | ⟨z, rfl, hz, hr⟩
          · rw [if_neg (by omega), swapAt_eq hx hy] at e
            have hp := perm _ _ hy
            exact .left hx hy hl hr (ih (hw.perm hp) (by rw [hp.length_eq]; exact (List.getElem?_eq_some_iff.mp hy).1)
              (by rw [hp.length_eq]; omega) e)
          · rw [if_neg (by omega), swapAt_eq hx hz] at e
            have hp := perm _ _ hz
            have a := less_some hr
            have b := less_some hl
            refine .right hx hz ?_ (fun y' hy' => by rw [hy] at hy'; cases hy'; exact hr)
              (ih (hw.perm hp) (by rw [hp.length_eq]; exact (List.getElem?_eq_some_iff.mp hz).1)
                (by rw [hp.length_eq]; omega) e)
            rw [less_eq a.1 b.2.1]
            have := a.2.2; have := b.2.2
            simp only [Option.some.injEq, decide_eq_true_eq] at *
            simp only [true_eq_decide_iff] at *
            omega

/-- What lies above is not touched. -/
theorem SiftsDown.head {nodes : List Node} {h h' : List Nat} {k : Nat} (s : SiftsDown nodes h k h') (hk : 1 ≤ k) :
    h'[0]? = h[0]? := by
  induction s with
  | stays hx hle => rfl
  | left hx hy hlt hle next ih => rw [ih (by omega), List.getElem?_set_ne (by omega), List.getElem?_set_ne (by omega)]
  | right hx hz hlt hlt' next ih => rw [ih (by omega), List.getElem?_set_ne (by omega), List.getElem?_set_ne (by omega)]

end Sys2Proof.Machine
end

