-- ==== Sys2Proof/Laws/Build.lean ====
section
/-! SUPPORT. The laws of TB.LEAVES, TB.MERGE and TB.BUILD (42_treebuilder.md): the node store holds a forest with one
tree for each heap entry, every merge is a merge R170 allows, and the tree built has the counted symbols as leaves. -/

namespace Sys2Proof.Machine

/-! ### Appending an entry to the node store -/

theorem weight?_append {nodes : List Node} {x : Nat} (ds : List Node) (h : (weight? nodes x).isSome) :
    weight? (nodes ++ ds) x = weight? nodes x := by
  unfold weight? at *
  cases hx : nodes[x]? with
  | none => simp [hx] at h
  | some d =>
    have hlt := (List.getElem?_eq_some_iff.mp hx).1
    rw [List.getElem?_append_left hlt, hx]

theorem Holds.append {nodes : List Node} {x : Nat} {t : Tree} (h : Holds nodes x t) (ds : List Node) :
    Holds (nodes ++ ds) x t := by
  induction t generalizing x with
  | leaf v =>
    obtain ⟨w, hw⟩ := h
    exact ⟨w, by rw [List.getElem?_append_left (List.getElem?_eq_some_iff.mp hw).1]; exact hw⟩
  | node l r ihl ihr =>
    obtain ⟨w, a, b, hw, ha, hb⟩ := h
    exact ⟨w, a, b, by rw [List.getElem?_append_left (List.getElem?_eq_some_iff.mp hw).1]; exact hw,
      ihl ha, ihr hb⟩

theorem HeapOrdered.append {nodes : List Node} {h : List Nat} (hh : HeapOrdered nodes h) (ds : List Node) :
    HeapOrdered (nodes ++ ds) h := by
  refine ⟨fun x hx => by rw [weight?_append ds (hh.1 x hx)]; exact hh.1 x hx, fun k p c h1 hp hc => ?_⟩
  have := hh.2 k p c h1 hp hc
  unfold less at *
  rwa [weight?_append ds (hh.1 p (List.mem_of_getElem? hp)),
    weight?_append ds (hh.1 c (List.mem_of_getElem? hc))]

/-! ### The heap operations -/

theorem heapInsert_eq {s : State} {x : Nat} (hh : HeapOrdered s.node s.heap) (hx : (weight? s.node x).isSome)
    (hc : s.heap.length < Config.heapCap) :
    ∃ h', heapInsert x s = .ok () { s with heap := h' } ∧ h'.Perm (x :: s.heap) ∧ HeapOrdered s.node h' := by
  obtain ⟨h', e, p, o⟩ := siftUp_insert hh hx
  have hlt : x < s.node.length := by
    by_contra hn
    simp [weight?, List.getElem?_eq_none (Nat.le_of_not_lt hn)] at hx
  exact ⟨h', by simp [heapInsert, hlt, hc, e], p, o⟩

theorem heapExtractMin_eq {s : State} {x : Nat} {rest : List Nat} (hs : s.heap = x :: rest)
    (hh : HeapOrdered s.node s.heap) :
    ∃ h', heapExtractMin s = .ok x { s with heap := h' } ∧ h'.Perm rest ∧ HeapOrdered s.node h' ∧
      IsLeast s.node x rest := by
  rw [hs] at hh
  obtain ⟨⟨h', e, p, o⟩, hmin⟩ := heapAfterMin_spec hh
  refine ⟨h', by unfold heapExtractMin; split <;> simp_all, p, o, wt s.node x,
    weight?_wt (hh.1 x (List.mem_cons_self ..)), fun y hy => ⟨_, weight?_wt (hh.1 y (List.mem_cons_of_mem _ hy)), hmin y hy⟩⟩

theorem IsLeast.perm {nodes : List Node} {x : Nat} {g h : List Nat} (hl : IsLeast nodes x h) (hp : g.Perm h) :
    IsLeast nodes x g := by
  obtain ⟨w, hw, hm⟩ := hl
  exact ⟨w, hw, fun y hy => hm y (hp.mem_iff.mp hy)⟩

/-! ### The forest -/

/-- The node store is a forest: each heap entry is the root of a tree of the list, whose weight is the sum of its
leaves' counts, the trees share no entry and leave none over, and their leaves are the symbols. -/
structure Grown (count : Byte → Nat) (syms : List Byte) (s : State) (ps : List (Nat × Tree)) : Prop where
  roots : (ps.map Prod.fst).Perm s.heap
  holds : ∀ p ∈ ps, Holds s.node p.1 p.2 ∧ weight? s.node p.1 = some (p.2.weight count)
  sizes : (ps.map fun p => p.2.size).sum = s.node.length
  leaves : (ps.flatMap fun p => p.2.leaves).Perm syms
  ordered : HeapOrdered s.node s.heap

theorem Grown.length_eq {count : Byte → Nat} {syms : List Byte} {s : State} {ps : List (Nat × Tree)}
    (h : Grown count syms s ps) : ps.length = s.heap.length := by
  simpa using h.roots.length_eq

theorem sum_sizes (ps : List (Nat × Tree)) :
    (ps.map fun p => p.2.size).sum + ps.length = 2 * (ps.flatMap fun p => p.2.leaves).length := by
  induction ps with
  | nil => rfl
  | cons p ps ih =>
    have := p.2.size_eq_leaves
    simp only [List.map_cons, List.sum_cons, List.length_cons, List.flatMap_cons, List.length_append]
    omega

/-- The weight of a tree is the sum of the counts of its leaves (42_treebuilder.md R171). -/
theorem Tree.weight_eq_sum (count : Byte → Nat) (t : Tree) : t.weight count = (t.leaves.map count).sum := by
  induction t with
  | leaf v => simp [Tree.weight, Tree.leaves]
  | node l r hl hr => simp [Tree.weight, Tree.leaves, hl, hr]

/-- The trees of a forest weigh together what the symbols count (42_treebuilder.md R171). -/
theorem Grown.weights {count : Byte → Nat} {syms : List Byte} {s : State} {ps : List (Nat × Tree)}
    (h : Grown count syms s ps) : (ps.map fun p => p.2.weight count).sum = (syms.map count).sum := by
  rw [← (h.leaves.map count).sum_eq]
  clear h
  induction ps with
  | nil => rfl
  | cons p ps ih =>
    simp only [List.map_cons, List.sum_cons, List.flatMap_cons, List.map_append, List.sum_append]
    rw [ih, Tree.weight_eq_sum]

/-- 2n − 1 entries for n leaves under one root (42_treebuilder.md R173). -/
theorem Grown.node_length {count : Byte → Nat} {syms : List Byte} {s : State} {ps : List (Nat × Tree)}
    (h : Grown count syms s ps) : s.node.length + s.heap.length = 2 * syms.length := by
  rw [← h.sizes, ← h.length_eq, sum_sizes, h.leaves.length_eq]

/-- The tree of the entry on top of the heap, and the others. -/
theorem Grown.top {count : Byte → Nat} {syms : List Byte} {s : State} {ps : List (Nat × Tree)} {x : Nat}
    {rest : List Nat} (h : Grown count syms s ps) (hs : s.heap = x :: rest) :
    ∃ t qs, ps.Perm ((x, t) :: qs) ∧ (qs.map Prod.fst).Perm rest := by
  have hr := h.roots
  rw [hs] at hr
  have hx : x ∈ ps.map Prod.fst := hr.mem_iff.mpr (List.mem_cons_self ..)
  obtain ⟨p, hp, rfl⟩ := List.mem_map.mp hx
  refine ⟨p.2, ps.erase p, List.perm_cons_erase hp, ?_⟩
  have := ((List.perm_cons_erase hp).map Prod.fst).symm.trans hr
  exact List.Perm.cons_inv this

/-- A sum that fits its width is the sum (42_treebuilder.md R171). -/
theorem addWeights_eq {a b : Nat} (h : a + b < 2 ^ Config.cntW) : addWeights a b = a + b := if_pos h

/-- TB.MERGE on an ordered heap of at least two entries (42_treebuilder.md R169): the two least are replaced by their
parent. -/
theorem merge_ordered {s : State} (h : HeapOrdered s.node s.heap) (h2 : 2 ≤ s.heap.length)
    (hc : s.heap.length ≤ Config.heapCap) (hn : s.node.length < Config.nodeCap) :
    ∃ a b rest heap, s.heap.Perm (a :: b :: rest) ∧ s.heap.head? = some a ∧
      IsLeast s.node a (b :: rest) ∧ IsLeast s.node b rest ∧
      merge s = .ok () { s with
        node := s.node ++ [.internal (addWeights (wt s.node a) (wt s.node b)) (some a) (some b)], heap := heap } ∧
      heap.Perm (s.node.length :: rest) ∧
      HeapOrdered (s.node ++ [.internal (addWeights (wt s.node a) (wt s.node b)) (some a) (some b)]) heap := by
  match hs : s.heap with
  | [] => simp [hs] at h2
  | a :: rest =>
    obtain ⟨h1, e1, p1, o1, l1⟩ := heapExtractMin_eq hs h
    match hs1 : h1 with
    | [] => rw [hs] at h2; have := p1.length_eq; simp only [List.length_cons, List.length_nil] at *; omega
    | b :: rest1 =>
      obtain ⟨h2', e2, p2, o2, l2⟩ := heapExtractMin_eq (s := { s with heap := b :: rest1 }) rfl o1
      have wa : weight? s.node a = some (wt s.node a) := weight?_wt (h.1 a (by rw [hs]; exact List.mem_cons_self ..))
      have wb : weight? s.node b = some (wt s.node b) := weight?_wt (o1.1 b (List.mem_cons_self ..))
      generalize hd : Node.internal (addWeights (wt s.node a) (wt s.node b)) (some a) (some b) = d
      have hwd : (weight? (s.node ++ [d]) s.node.length).isSome := by simp [weight?, ← hd, Node.weight?]
      obtain ⟨h3, e3, p3, o3⟩ := heapInsert_eq (s := { s with node := s.node ++ [d], heap := h2' })
        (x := s.node.length) (HeapOrdered.append o2 [d]) hwd (by
          have a := p1.length_eq; have b := p2.length_eq
          simp only [List.length_cons, hs] at *
          omega)
      refine ⟨a, b, rest1, h3, (p1.symm).cons a, rfl, l1.perm p1, l2, ?_, p3.trans (p2.cons _), hd ▸ o3⟩
      rw [merge, if_pos h2, e1]
      simp only [Res.bind_ok, e2, weightAt, wa, wb, allocNode, hn, if_true, hd]
      exact e3

/-- TB.MERGE on a forest of at least two trees (42_treebuilder.md R169): it is a merge R170 allows. -/
theorem merge_eq {count : Byte → Nat} {syms : List Byte} {s : State} {ps : List (Nat × Tree)}
    (h : Grown count syms s ps) (h2 : 2 ≤ s.heap.length) (hn : syms.length ≤ Config.nsym)
    (hsum : (syms.map count).sum < 2 ^ Config.cntW) :
    ∃ nodes heap qs, merge s = .ok () { s with node := nodes, heap := heap } ∧
      Grown count syms { s with node := nodes, heap := heap } qs ∧ heap.length + 1 = s.heap.length ∧
      MergeAny (forest s) ⟨nodes, heap⟩ := by
  have hlen := h.node_length
  have hheap : s.heap.length ≤ syms.length := by
    have f : ps.length ≤ (ps.flatMap fun p => p.2.leaves).length := by
      have := sum_sizes ps
      have g : ∀ ps : List (Nat × Tree), ps.length ≤ (ps.map fun p => p.2.size).sum := by
        intro ps
        induction ps with
        | nil => simp
        | cons p ps ih => have := p.2.size_pos; simp only [List.length_cons, List.map_cons, List.sum_cons]; omega
      have := g ps
      omega
    rw [h.leaves.length_eq] at f
    rw [← h.length_eq]; exact f
  have hcap : s.node.length < Config.nodeCap := by simp only [Config.nodeCap, Config.nsym] at *; omega
  obtain ⟨x, y, rest, heap, hp, -, lx, ly, e, pr, o⟩ :=
    merge_ordered h.ordered h2 (by simp only [Config.heapCap, Config.nsym] at *; omega) hcap
  have wx := weight?_wt (h.ordered.1 x (hp.mem_iff.mpr (by simp)))
  have wy := weight?_wt (h.ordered.1 y (hp.mem_iff.mpr (by simp)))
  have hxy : (ps.map Prod.fst).Perm (x :: y :: rest) := h.roots.trans hp
  obtain ⟨⟨x', tx⟩, hx, rfl⟩ := List.mem_map.mp (hxy.mem_iff.mpr (List.mem_cons_self ..))
  have hq := List.perm_cons_erase hx
  generalize ps.erase (x', tx) = qs at hq
  have hqr : (qs.map Prod.fst).Perm (y :: rest) := List.Perm.cons_inv (((hq.map Prod.fst).symm).trans hxy)
  obtain ⟨⟨y', ty⟩, hy, rfl⟩ := List.mem_map.mp (hqr.mem_iff.mpr (List.mem_cons_self ..))
  have hr := List.perm_cons_erase hy
  generalize qs.erase (y', ty) = rs at hr
  have hrr : (rs.map Prod.fst).Perm rest := List.Perm.cons_inv (((hr.map Prod.fst).symm).trans hqr)
  have hall : ps.Perm ((x', tx) :: (y', ty) :: rs) := hq.trans (hr.cons _)
  obtain ⟨holdx, wx'⟩ := h.holds _ (hall.mem_iff.mpr (List.mem_cons_self ..))
  obtain ⟨holdy, wy'⟩ := h.holds _ (hall.mem_iff.mpr (List.mem_cons_of_mem _ (List.mem_cons_self ..)))
  simp only at holdx wx' holdy wy' wx wy e pr o lx ly hp
  have ex : wt s.node x' = tx.weight count := by rw [wx'] at wx; exact (Option.some.inj wx).symm
  have ey : wt s.node y' = ty.weight count := by rw [wy'] at wy; exact (Option.some.inj wy).symm
  have hadd : addWeights (wt s.node x') (wt s.node y') = tx.weight count + ty.weight count := by
    have := h.weights
    rw [(hall.map fun p => p.2.weight count).sum_eq] at this
    simp only [List.map_cons, List.sum_cons] at this
    rw [ex, ey]
    exact addWeights_eq (by omega)
  rw [hadd] at e o
  refine ⟨_, heap, (s.node.length, .node tx ty) :: rs, e, ?_, ?_, x', y', rest, _, _, hp, lx, ly, wx', wy', rfl, pr⟩
  · constructor
    · exact (List.Perm.cons _ hrr).trans pr.symm
    · intro q hq'
      rcases List.mem_cons.mp hq' with rfl | hq'
      · exact ⟨⟨tx.weight count + ty.weight count, x', y', by simp, holdx.append _, holdy.append _⟩,
          by simp [weight?, Node.weight?, Tree.weight]⟩
      · have := h.holds q (hall.mem_iff.mpr (by simp [hq']))
        exact ⟨this.1.append _, by rw [weight?_append _ (by rw [this.2]; rfl)]; exact this.2⟩
    · have hsz := h.sizes
      rw [(hall.map fun p => p.2.size).sum_eq] at hsz
      simp only [List.map_cons, List.sum_cons, Tree.size, List.length_append, List.length_singleton] at *
      omega
    · refine List.Perm.trans ?_ h.leaves
      refine List.Perm.trans ?_ (hall.flatMap_right _).symm
      simp [Tree.leaves]
    · exact o
  · have a := pr.length_eq; have b := hp.length_eq
    simp only [List.length_cons] at *
    omega

/-- One symbol of TB.LEAVES that occurs (42_treebuilder.md R161). -/
theorem leaf_eq {count : Byte → Nat} {syms : List Byte} {s : State} {ps : List (Nat × Tree)} (v : Byte)
    (h : Grown count syms s ps) (hp : s.heap.length = syms.length) (hn : syms.length < Config.nsym) :
    ∃ heap qs, ((allocNode (.leaf v (count v)) s).bind fun x s => heapInsert x s) =
        .ok () { s with node := s.node ++ [.leaf v (count v)], heap := heap } ∧
      Grown count (syms ++ [v]) { s with node := s.node ++ [.leaf v (count v)], heap := heap } qs ∧
      heap.Perm (s.node.length :: s.heap) := by
  have hlen := h.node_length
  have hcap : s.node.length < Config.nodeCap := by simp only [Config.nodeCap, Config.nsym] at *; omega
  have hw : weight? (s.node ++ [.leaf v (count v)]) s.node.length = some (count v) := by
    simp [weight?, Node.weight?]
  obtain ⟨h', e, p, o⟩ := heapInsert_eq (s := { s with node := s.node ++ [.leaf v (count v)] })
    (x := s.node.length) (h.ordered.append _) (by rw [hw]; rfl)
    (by simp only [Config.heapCap, Config.nsym] at *; omega)
  refine ⟨h', (s.node.length, .leaf v) :: ps, ?_, ?_, p⟩
  · simp only [allocNode, hcap, if_true, Res.bind_ok]; exact e
  · constructor
    · exact (h.roots.cons _).trans p.symm
    · intro q hq
      rcases List.mem_cons.mp hq with rfl | hq
      · exact ⟨⟨count v, by simp⟩, hw⟩
      · have := h.holds q hq
        exact ⟨this.1.append _, by rw [weight?_append _ (by rw [this.2]; rfl)]; exact this.2⟩
    · have := h.sizes
      simp only [List.map_cons, List.sum_cons, Tree.size, List.length_append, List.length_singleton] at *
      omega
    · simp only [List.flatMap_cons, Tree.leaves]
      exact (h.leaves.append_left [v]).trans List.perm_append_comm
    · exact o

/-- The symbols that occur, of a list of symbol numbers. -/
def occurring (count : Byte → Nat) (vs : List Nat) : List Byte :=
  (vs.map (BitVec.ofNat 8)).filter fun v => decide (0 < count v)

theorem symbols_length_le (count : Byte → Nat) : (symbols count).length ≤ Config.nsym := by
  unfold symbols
  exact (List.length_filter_le _ _).trans (by simp)

theorem mem_symbols {count : Byte → Nat} {v : Byte} : v ∈ symbols count ↔ 0 < count v := by
  simp only [symbols, List.mem_filter, List.mem_map, List.mem_range, decide_eq_true_eq, and_iff_right_iff_imp]
  exact fun _ => ⟨v.toNat, v.isLt, by simp⟩

theorem symbols_nodup (count : Byte → Nat) : (symbols count).Nodup := by
  refine List.Nodup.filter _ (List.Nodup.map_on (fun a ha b hb h => ?_) List.nodup_range)
  have := congrArg BitVec.toNat h
  simp only [BitVec.toNat_ofNat, List.mem_range, Config.nsym] at *
  omega

theorem leavesLoop_eq {count : Byte → Nat} (vs : List Nat) (s : State) (syms : List Byte) (ps : List (Nat × Tree))
    (hf : s.freq.length = Config.nsym) (hcount : ∀ v : Byte, count v = s.freq.getD v.toNat 0)
    (hv : ∀ v ∈ vs, v < Config.nsym) (h : Grown count syms s ps) (hp : s.heap.length = syms.length)
    (hn : syms.length + vs.length ≤ Config.nsym) :
    ∃ heap qs, leavesLoop vs s = .ok () { s with
        node := s.node ++ (occurring count vs).map fun v => .leaf v (count v)
        heap := heap
        n := s.n + (occurring count vs).length } ∧
      Grown count (syms ++ occurring count vs) { s with
        node := s.node ++ (occurring count vs).map fun v => .leaf v (count v)
        heap := heap
        n := s.n + (occurring count vs).length } qs ∧
      heap.Perm (s.heap ++ List.range' s.node.length (occurring count vs).length) := by
  induction vs generalizing s syms ps with
  | nil => exact ⟨s.heap, ps, by simp [leavesLoop, occurring], by simpa [occurring] using h, by simp [occurring]⟩
  | cons v vs ih =>
    have hv0 := hv v (by simp)
    have hvs : ∀ w ∈ vs, w < Config.nsym := fun w hw => hv w (List.mem_cons_of_mem _ hw)
    simp only [List.length_cons] at hn
    have hget : s.freq[v]? = some (s.freq.getD v 0) := by
      rw [List.getD_eq_getElem?_getD, List.getElem?_eq_getElem (by omega)]; rfl
    have hvt : (BitVec.ofNat 8 v).toNat = v := by
      simp only [BitVec.toNat_ofNat, Config.nsym] at *; omega
    have hcv : count (BitVec.ofNat 8 v) = s.freq.getD v 0 := by rw [hcount, hvt]
    rw [leavesLoop]
    simp only [freqAt, hget, Res.bind_ok, ← hcv]
    by_cases hc : 0 < count (BitVec.ofNat 8 v)
    · obtain ⟨h', qs, e, g, l⟩ := leaf_eq (BitVec.ofNat 8 v) h hp (by omega)
      have hb : ∀ k : Unit → State → Res Unit,
          (allocNode (.leaf (BitVec.ofNat 8 v) (count (BitVec.ofNat 8 v))) s).bind
            (fun x s => (heapInsert x s).bind k) =
          k () { s with node := s.node ++ [.leaf (BitVec.ofNat 8 v) (count (BitVec.ofNat 8 v))], heap := h' } := by
        intro k
        rw [← Res.bind_assoc, e]
        rfl
      rw [if_pos hc, hb]
      have ho : occurring count (v :: vs) = BitVec.ofNat 8 v :: occurring count vs := by
        simp only [occurring, List.map_cons, List.filter_cons, hc, decide_true, if_true]
      obtain ⟨heap, rs, e2, g2, l2⟩ := ih
        { s with
          node := s.node ++ [.leaf (BitVec.ofNat 8 v) (count (BitVec.ofNat 8 v))], heap := h', n := s.n + 1 }
        (syms ++ [BitVec.ofNat 8 v]) qs hf hcount hvs ⟨g.roots, g.holds, g.sizes, g.leaves, g.ordered⟩
        (by
          have := l.length_eq
          rw [List.length_cons] at this
          show h'.length = _
          rw [List.length_append, List.length_singleton]
          omega)
        (by simp only [List.length_append, List.length_singleton]; omega)
      have hnode : s.node ++ (occurring count (v :: vs)).map (fun v => Node.leaf v (count v)) =
          (s.node ++ [.leaf (BitVec.ofNat 8 v) (count (BitVec.ofNat 8 v))]) ++
            (occurring count vs).map fun v => Node.leaf v (count v) := by simp [ho]
      have hnn : s.n + (occurring count (v :: vs)).length = s.n + 1 + (occurring count vs).length := by
        rw [ho, List.length_cons]; omega
      refine ⟨heap, rs, ?_, ?_, ?_⟩
      · rw [e2, hnode, hnn]
      · rw [hnode, hnn]
        rw [List.append_assoc, List.singleton_append, ← ho] at g2
        exact ⟨g2.roots, g2.holds, g2.sizes, g2.leaves, g2.ordered⟩
      · refine l2.trans ((l.append_right _).trans ?_)
        rw [ho, List.length_cons, List.range'_succ, List.length_append, List.length_singleton]
        exact List.perm_middle.symm
    · have ho : occurring count (v :: vs) = occurring count vs := by
        simp only [occurring, List.map_cons, List.filter_cons, hc, decide_false, Bool.false_eq_true, if_false]
      rw [if_neg hc, ho]
      exact ih s syms ps hf hcount hvs h hp (by omega)

/-- TB.LEAVES (42_treebuilder.md R161): one leaf for each symbol that occurs. -/
theorem leaves_eq {count : Byte → Nat} (s : State) (hf : s.freq.length = Config.nsym)
    (hcount : ∀ v : Byte, count v = s.freq.getD v.toNat 0) :
    ∃ heap ps, leaves s = .ok () { s with node := leafNodes count, heap := heap, n := (symbols count).length } ∧
      Grown count (symbols count) { s with node := leafNodes count, heap := heap, n := (symbols count).length } ps ∧
      heap.Perm (List.range (leafNodes count).length) := by
  have h0 : Grown count [] { s with node := [], heap := [], n := 0 } [] :=
    ⟨.refl _, by simp, rfl, .refl _, by simp [HeapOrdered]⟩
  obtain ⟨heap, ps, e, g, l⟩ := leavesLoop_eq (List.range Config.nsym) { s with node := [], heap := [], n := 0 } [] []
    hf hcount (fun v hv => List.mem_range.mp hv) h0 rfl (by simp)
  have hs : occurring count (List.range Config.nsym) = symbols count := rfl
  simp only [List.nil_append, Nat.zero_add, hs, List.length_nil] at e g l
  exact ⟨heap, ps, e, g, by simpa [leafNodes, List.range_eq_range'] using l⟩

/-- The end of TB.BUILD: the only tree left is the whole store (42_treebuilder.md R172, R173). -/
theorem takeRoot_eq {count : Byte → Nat} {syms : List Byte} {s : State} {ps : List (Nat × Tree)}
    (h : Grown count syms s ps) (h1 : s.heap.length = 1) :
    ∃ x t, s.heap = [x] ∧ heapExtractMin s = .ok x { s with heap := [] } ∧ Holds s.node x t ∧
      t.size = s.node.length ∧ t.leaves.Perm syms ∧ weight? s.node x = some (t.weight count) := by
  obtain ⟨x, hx⟩ := List.length_eq_one_iff.mp h1
  obtain ⟨t, qs, hq, hqr⟩ := h.top hx
  have hqs : qs = [] := by simpa using hqr.length_eq
  subst hqs
  obtain rfl := List.perm_singleton.mp hq
  obtain ⟨h', e, p, -, -⟩ := heapExtractMin_eq hx h.ordered
  obtain rfl := List.perm_nil.mp p
  obtain ⟨a, b⟩ := h.holds (x, t) (by simp)
  exact ⟨x, t, hx, e, a, by simpa using h.sizes, by simpa using h.leaves, b⟩

/-- Merging while more than one node remains (42_treebuilder.md R172). -/
theorem mergeLoop_eq {count : Byte → Nat} {syms : List Byte} (fuel : Nat) {s : State} {ps : List (Nat × Tree)}
    (h : Grown count syms s ps) (h1 : 1 ≤ s.heap.length) (hf : s.heap.length ≤ fuel + 1)
    (hn : syms.length ≤ Config.nsym) (hsum : (syms.map count).sum < 2 ^ Config.cntW) :
    ∃ nodes heap qs, mergeLoop fuel s = .ok () { s with node := nodes, heap := heap } ∧
      Grown count syms { s with node := nodes, heap := heap } qs ∧ heap.length = 1 ∧
      Relation.ReflTransGen MergeAny (forest s) ⟨nodes, heap⟩ := by
  induction fuel generalizing s ps with
  | zero => exact ⟨s.node, s.heap, ps, rfl, h, by omega, .refl⟩
  | succ fuel ih =>
    rw [mergeLoop]
    by_cases h2 : 1 < s.heap.length
    · obtain ⟨nodes, heap, qs, e, g, l, m⟩ := merge_eq h h2 hn hsum
      obtain ⟨nodes', heap', rs, e', g', l', m'⟩ := ih (s := { s with node := nodes, heap := heap }) g
        (by simp only; omega) (by simp only; omega)
      refine ⟨nodes', heap', rs, ?_, g', l', .head m m'⟩
      rw [if_pos h2, e, Res.bind_ok, e']
    · rw [if_neg h2]
      exact ⟨s.node, s.heap, ps, rfl, h, by omega, .refl⟩

/-- TB.BUILD where at least one symbol occurs (42_treebuilder.md R172, R173): a tree of the symbols that occur, of
2n − 1 entries, reached by merges R170 allows. -/
theorem build_eq {count : Byte → Nat} (s : State) (hf : s.freq.length = Config.nsym)
    (hcount : ∀ v : Byte, count v = s.freq.getD v.toNat 0) (h0 : symbols count ≠ [])
    (hsum : ((symbols count).map count).sum < 2 ^ Config.cntW) :
    ∃ lheap nodes x t,
      build s = .ok () { s with node := nodes, heap := [], n := (symbols count).length, root := some x } ∧
      Holds nodes x t ∧ t.size = nodes.length ∧ t.leaves.Perm (symbols count) ∧
      weight? nodes x = some (t.weight count) ∧
      lheap.Perm (List.range (leafNodes count).length) ∧ BuildAny ⟨leafNodes count, lheap⟩ nodes x := by
  obtain ⟨lheap, ps, e, g, l⟩ := leaves_eq s hf hcount
  have hpos := List.length_pos_iff.mpr h0
  have hlen : lheap.length = (symbols count).length := by
    have := l.length_eq; simpa [leafNodes] using this
  obtain ⟨nodes, heap, qs, e', g', l', m⟩ := mergeLoop_eq lheap.length g (by simp only; omega) (by simp)
    (symbols_length_le count) hsum
  obtain ⟨x, t, hx, e2, a, b, c, d⟩ := takeRoot_eq g' l'
  simp only at hx e2 a b c d
  refine ⟨lheap, nodes, x, t, ?_, a, b, c, d, l, ?_⟩
  · rw [build, e]
    simp only [Res.bind_ok, e', takeRoot, e2]
  · rw [hx] at m; exact m

/-- The symbols that do not occur add nothing. -/
theorem sum_occurring (count : Byte → Nat) (vs : List Byte) :
    ((vs.filter fun v => decide (0 < count v)).map count).sum = (vs.map count).sum := by
  induction vs with
  | nil => rfl
  | cons v vs ih =>
    by_cases h : 0 < count v
    · simp [h, ih]
    · simp [h, ih]
      omega

/-- The counts of the symbols of an input add up to its length (41_frequency.md R153). -/
theorem sum_symbols (input : List Byte) : ((symbols (occurrences input)).map (occurrences input)).sum = input.length := by
  have hp : (symbols (occurrences input)).Perm input.dedup :=
    (List.perm_ext_iff_of_nodup (symbols_nodup _) (List.nodup_dedup _)).mpr fun v => by
      rw [mem_symbols, List.mem_dedup, occurrences, List.count_pos_iff]
  rw [(hp.map _).sum_eq]
  exact List.sum_map_count_dedup_eq_length input

end Sys2Proof.Machine
end

