-- ==== Sys2Proof/Laws/Frames.lean ====
section
/-! SUPPORT. The frames of the operations: which fields each may write, however it ends. -/

namespace Sys2Proof.Machine

theorem Only.refl (fs : List Field) (s : State) : Only fs s s := fun f _ => by cases f <;> rfl

theorem Only.trans {fs : List Field} {s t u : State} (h : Only fs s t) (h' : Only fs t u) : Only fs s u := by
  intro f hf
  have a := h f hf
  have b := h' f hf
  cases f <;> exact b.trans a

theorem Only.mono {fs gs : List Field} {s t : State} (h : Only fs s t) (hs : fs ⊆ gs) : Only gs s t :=
  fun f hf => h f fun hm => hf (hs hm)

/-- However the operation ends, only the fields of the list may have changed. -/
def Res.Within {α : Type} (fs : List Field) (x : Res α) (s : State) : Prop :=
  match x with
  | .ok _ t => Only fs s t
  | .raise _ t => Only fs s t
  | .fault _ => True
  | .refused _ => True

namespace Res

variable {α β : Type} {x : Res α} {fs gs : List Field} {s s' : State} {k : α → State → Res β}

theorem Within.mono (h : x.Within fs s) (hs : fs ⊆ gs) : x.Within gs s := by
  cases x with
  | ok a t => exact Only.mono h hs
  | raise e t => exact Only.mono h hs
  | fault f => trivial
  | refused r => trivial

theorem Within.after (h : x.Within fs s') (ho : Only fs s s') : x.Within fs s := by
  cases x with
  | ok a t => exact ho.trans h
  | raise e t => exact ho.trans h
  | fault f => trivial
  | refused r => trivial

theorem Within.bind (h : x.Within fs s) (hk : ∀ a t, (k a t).Within fs t) : (x.bind k).Within fs s := by
  cases x with
  | ok a t => exact (hk a t).after h
  | raise e t => exact h
  | fault f => trivial
  | refused r => trivial

/-- From an operation to the step it is. -/
theorem Within.outcome (h : x.Within fs s) {t : State} (e : x.outcome = .next t) :
    (∃ a, x = .ok a t ∧ Only fs s t) ∨ ∃ er u, x = .raise er u ∧ t = abort er u ∧ Only fs s u := by
  cases x with
  | ok a u => left; injection e with e; subst e; exact ⟨a, rfl, h⟩
  | raise er u => right; injection e with e; exact ⟨er, u, rfl, e.symm, h⟩
  | fault f => cases e
  | refused r => cases e

end Res

/-! ### The operations -/

section

variable {fs : List Field}

theorem answered_only (s : State) : Only [.draws] s (answered s) := fun f hf => by
  cases f <;> first | rfl | simp at hf

theorem setAcc_only (a : Acc) (bits : List Bool) (s : State) :
    Only [accField a] s (setAcc a bits s) := fun f hf => by
  cases a <;> cases f <;> first | rfl | simp [accField] at hf

theorem accPushBit_only (a : Acc) (b : Bool) (s : State) :
    (accPushBit a b s).Within [accField a] s := by
  unfold accPushBit; split; exacts [Only.refl _ s, setAcc_only a _ s]

theorem accPushBits_only (a : Acc) (bits : List Bool) (s : State) :
    (accPushBits a bits s).Within [accField a] s := by
  induction bits generalizing s with
  | nil => exact Only.refl _ s
  | cons b bits ih => exact (accPushBit_only a b s).bind fun _ t => ih t

theorem accBitAt_only (a : Acc) (i : Nat) (s : State) : (accBitAt a i s).Within fs s := by
  unfold accBitAt; split <;> exact Only.refl _ s

theorem sinkWrite_only (v : List Byte) (s : State) : (sinkWrite v s).Within [.sink, .draws] s := by
  unfold sinkWrite
  split <;> exact fun f hf => by cases f <;> first | rfl | simp at hf

theorem srcRead_only (n : Nat) (s : State) : (srcRead n s).Within [.srcPos, .draws] s := by
  unfold srcRead memRead
  split <;> exact fun f hf => by cases f <;> first | rfl | simp at hf

theorem flush_only (s : State) : (flush s).Within [.wacc, .sink, .wrTotal, .draws] s := by
  unfold flush
  split
  · exact (setAcc_only .writer [] s).mono (by simp [accField])
  · exact ((sinkWrite_only _ s).mono (by simp)).bind fun _ t f hf => by cases f <;> first | rfl | simp at hf

theorem writeBits_only (bits : List Bool) (s : State) :
    (writeBits bits s).Within [.wacc, .sink, .wrTotal, .draws] s := by
  induction bits generalizing s with
  | nil => exact Only.refl _ s
  | cons b bits ih =>
    refine Res.Within.bind (Res.Within.bind ((accPushBit_only .writer b s).mono (by simp [accField])) fun _ t => ?_) fun _ t => ih t
    split; exacts [flush_only t, Only.refl _ t]

theorem writeByte_only (v : Byte) (s : State) : (writeByte v s).Within [.wacc, .sink, .wrTotal, .draws] s :=
  writeBits_only _ s

theorem finish_only (s : State) : (finish s).Within [.wacc, .sink, .wrTotal, .draws] s :=
  ((accPushBits_only .writer _ s).mono (by simp [accField])).bind fun _ t => (flush_only t).bind fun _ u => Only.refl _ u

theorem refill_only (s : State) : (refill s).Within [.racc, .rdCursor, .srcPos, .draws] s := by
  refine ((srcRead_only _ s).mono (by simp)).bind fun d t => ?_
  split
  · exact Only.refl _ t
  · refine Res.Within.bind ?_ fun _ u f hf => by cases f <;> first | rfl | simp at hf
    exact ((accPushBits_only .reader _ _).mono (by simp [accField])).after
      ((setAcc_only .reader [] t).mono (by simp [accField]))

theorem popBit_only (s : State) : (popBit s).Within [.racc, .rdCursor, .srcPos, .draws] s := by
  have h1 : (if readerEmpty s then refill s else .ok () s : Res Unit).Within [.racc, .rdCursor, .srcPos, .draws] s := by
    split; exacts [refill_only s, Only.refl _ s]
  exact h1.bind fun _ t => (accBitAt_only _ _ t).bind fun b u f hf => by cases f <;> first | rfl | simp at hf

theorem popBits_only (k : Nat) (s : State) : (popBits k s).Within [.racc, .rdCursor, .srcPos, .draws] s := by
  induction k generalizing s with
  | zero => exact Only.refl _ s
  | succ k ih => exact (popBit_only s).bind fun _ t => (ih t).bind fun _ u => Only.refl _ u

theorem popByte_only (s : State) : (popByte s).Within [.racc, .rdCursor, .srcPos, .draws] s :=
  (popBits_only 8 s).bind fun _ t => Only.refl _ t

theorem scan_only (s : State) : (scan s).Within [.freq, .total, .srcPos, .draws] s := by
  have loop : ∀ (fuel : Nat) (s : State), (freqLoop fuel s).Within [.freq, .total, .srcPos, .draws] s := by
    intro fuel
    induction fuel with
    | zero => intro s; trivial
    | succ fuel ih =>
      intro s
      refine ((srcRead_only 1 s).mono (by simp)).bind fun d t => ?_
      split
      · exact Only.refl _ t
      · split
        · exact (ih _).after fun f hf => by cases f <;> first | rfl | simp at hf
        · trivial
  exact (loop _ _).after fun f hf => by cases f <;> first | rfl | simp at hf

theorem heapInsert_only (x : Nat) (s : State) : (heapInsert x s).Within [.heap] s := by
  unfold heapInsert
  repeat' split
  all_goals first
    | trivial
    | exact fun f hf => by cases f <;> first | rfl | simp at hf

theorem heapExtractMin_only (s : State) : (heapExtractMin s).Within [.heap] s := by
  unfold heapExtractMin
  repeat' split
  all_goals first
    | trivial
    | exact fun f hf => by cases f <;> first | rfl | simp at hf

theorem allocNode_only (d : Node) (s : State) : (allocNode d s).Within [.node] s := by
  unfold allocNode
  split
  · exact fun f hf => by cases f <;> first | rfl | simp at hf
  · trivial

theorem leaves_only (s : State) : (leaves s).Within [.node, .heap, .n] s := by
  have loop : ∀ (vs : List Nat) (s : State), (leavesLoop vs s).Within [.node, .heap, .n] s := by
    intro vs
    induction vs with
    | nil => exact fun s => Only.refl _ s
    | cons v vs ih =>
      intro s
      have h1 : (freqAt v s).Within [.node, .heap, .n] s := by
        unfold freqAt; split; exacts [Only.refl _ s, trivial]
      refine h1.bind fun c t => ?_
      split
      · exact ((allocNode_only _ t).mono (by simp)).bind fun x u => ((heapInsert_only x u).mono (by simp)).bind
          fun _ w => (ih _).after fun f hf => by cases f <;> first | rfl | simp at hf
      · exact ih t
  exact (loop _ _).after fun f hf => by cases f <;> first | rfl | simp at hf

theorem merge_only (s : State) : (merge s).Within [.node, .heap] s := by
  have hw : ∀ (x : Nat) (s : State), (weightAt x s).Within [.node, .heap] s := by
    intro x s; unfold weightAt; split; exacts [Only.refl _ s, trivial]
  unfold merge
  split
  · exact ((heapExtractMin_only s).mono (by simp)).bind fun a s1 => ((heapExtractMin_only s1).mono (by simp)).bind
      fun b s2 => (hw a s2).bind fun wa s3 => (hw b s3).bind fun wb s4 => ((allocNode_only _ s4).mono (by simp)).bind
        fun x s5 => (heapInsert_only x s5).mono (by simp)
  · trivial

theorem build_only (s : State) : (build s).Within [.node, .heap, .n, .root] s := by
  have loop : ∀ (fuel : Nat) (s : State), (mergeLoop fuel s).Within [.node, .heap, .n, .root] s := by
    intro fuel
    induction fuel with
    | zero => exact fun s => Only.refl _ s
    | succ fuel ih =>
      intro s
      rw [mergeLoop]
      split
      · exact ((merge_only s).mono (by simp)).bind fun _ t => ih t
      · exact Only.refl _ s
  exact ((leaves_only s).mono (by simp)).bind fun _ t => (loop _ t).bind fun _ u =>
    ((heapExtractMin_only u).mono (by simp)).bind fun _ _ f hf => by cases f <;> first | rfl | simp at hf

theorem serialize_only (s : State) : (serialize s).Within [.wacc, .sink, .wrTotal, .draws, .stk] s := by
  have hstk : ∀ (t : State) (st : List StkEntry), Only [.wacc, .sink, .wrTotal, .draws, .stk] t { t with stk := st } :=
    fun t st f hf => by cases f <;> first | rfl | simp at hf
  have loop : ∀ (fuel : Nat) (s : State), (serLoop fuel s).Within [.wacc, .sink, .wrTotal, .draws, .stk] s := by
    intro fuel
    induction fuel with
    | zero => intro s; rw [serLoop]; split; exacts [Only.refl _ s, trivial]
    | succ fuel ih =>
      intro s
      rw [serLoop]
      split
      · exact Only.refl _ s
      · split
        · exact (((writeBits_only _ _).mono (by simp)).after (hstk s _)).bind fun _ t =>
            ((writeByte_only _ t).mono (by simp)).bind fun _ u => ih u
        · exact (((writeBits_only _ _).mono (by simp)).after (hstk s _)).bind fun _ t => (ih _).after (hstk t _)
        all_goals trivial
      all_goals trivial
  unfold serialize
  split
  · trivial
  · exact (loop _ _).after (hstk s _)

theorem attach_only (i : Nat) (s : State) : (attach i s).Within [.node, .stk] s := by
  unfold attach
  repeat' split
  all_goals first
    | trivial
    | exact fun f hf => by cases f <;> first | rfl | simp at hf

theorem readNode_only (s : State) : (readNode s).Within [.racc, .rdCursor, .srcPos, .draws, .node, .stk] s := by
  refine ((popBit_only s).mono (by simp)).bind fun b t => ?_
  split
  · exact Only.refl _ t
  · refine Res.Within.bind ?_ fun _ u => ?_
    · exact ((attach_only _ _).mono (by simp)).after fun f hf => by cases f <;> first | rfl | simp at hf
    · split
      · exact ((popByte_only u).mono (by simp)).bind fun _ _ f hf => by cases f <;> first | rfl | simp at hf
      · exact fun f hf => by cases f <;> first | rfl | simp at hf

theorem closeTree_only (s : State) : Only [.root] s (closeTree s) := by
  unfold closeTree
  split
  · exact fun f hf => by cases f <;> first | rfl | simp at hf
  · exact Only.refl _ s

/-- Where the deserializer raises, `ROOT` is not written yet. -/
theorem desLoop_only (fuel : Nat) (s : State) :
    (desLoop fuel s).Within [.racc, .rdCursor, .srcPos, .draws, .node, .stk, .root] s ∧
      ∀ e t, desLoop fuel s = .raise e t → Only [.racc, .rdCursor, .srcPos, .draws, .node, .stk] s t := by
  induction fuel generalizing s with
  | zero => exact ⟨trivial, fun e t h => by cases h⟩
  | succ fuel ih =>
    have hr := readNode_only s
    rw [desLoop]
    cases hx : readNode s with
    | ok a u =>
      rw [hx] at hr
      have hr' : Only [.racc, .rdCursor, .srcPos, .draws, .node, .stk] s u := hr
      simp only [Res.bind_ok]
      split
      · exact ⟨(hr'.mono (by simp)).trans ((closeTree_only u).mono (by simp)), fun e t h => by cases h⟩
      · exact ⟨(ih u).1.after (hr'.mono (by simp)), fun e t h => hr'.trans ((ih u).2 e t h)⟩
    | raise e u =>
      rw [hx] at hr
      exact ⟨Only.mono hr (by simp), fun e' t h => by cases h; exact hr⟩
    | fault f => exact ⟨trivial, fun e t h => by cases h⟩
    | refused r => exact ⟨trivial, fun e t h => by cases h⟩

theorem deserialize_start_only (s : State) :
    Only [.racc, .rdCursor, .srcPos, .draws, .node, .stk] s { s with node := [], stk := [] } :=
  fun f hf => by cases f <;> first | rfl | simp at hf

theorem deserialize_only (s : State) :
    (deserialize s).Within [.racc, .rdCursor, .srcPos, .draws, .node, .stk, .root] s :=
  (desLoop_only _ _).1.after ((deserialize_start_only s).mono (by simp))

theorem deserialize_raise_only {s t : State} {e : Err} (h : deserialize s = .raise e t) :
    Only [.racc, .rdCursor, .srcPos, .draws, .node, .stk] s t :=
  (deserialize_start_only s).trans ((desLoop_only _ _).2 e t h)

theorem derive_only (s : State) : (derive s).Within [.stk, .code] s := by
  have loop : ∀ (fuel : Nat) (s : State), (ctLoop fuel s).Within [.stk, .code] s := by
    intro fuel
    induction fuel with
    | zero => intro s; rw [ctLoop]; split; exacts [Only.refl _ s, trivial]
    | succ fuel ih =>
      intro s
      rw [ctLoop]
      repeat' split
      all_goals first
        | trivial
        | exact Only.refl _ s
        | exact (ih _).after fun f hf => by cases f <;> first | rfl | simp at hf
  unfold derive
  split
  · trivial
  · exact (loop _ _).after fun f hf => by cases f <;> first | rfl | simp at hf

theorem writeLength_only (s : State) : (writeLength s).Within [.wacc, .sink, .wrTotal, .draws] s :=
  (writeByte_only _ s).bind fun _ s1 => (writeByte_only _ s1).bind fun _ s2 => (writeByte_only _ s2).bind
    fun _ s3 => writeByte_only _ s3

theorem codeSymbol_only (s : State) :
    (codeSymbol s).Within [.wacc, .sink, .wrTotal, .draws, .srcPos, .outcnt] s := by
  refine ((srcRead_only 1 s).mono (by simp)).bind fun d t => ?_
  repeat' split
  all_goals first
    | trivial
    | exact ((writeBits_only _ t).mono (by simp)).bind fun _ _ f hf => by cases f <;> first | rfl | simp at hf

theorem readLength_only (s : State) : (readLength s).Within [.racc, .rdCursor, .srcPos, .draws, .l] s :=
  ((popByte_only s).mono (by simp)).bind fun _ s1 => ((popByte_only s1).mono (by simp)).bind fun _ s2 =>
    ((popByte_only s2).mono (by simp)).bind fun _ s3 => ((popByte_only s3).mono (by simp)).bind
      fun _ _ f hf => by cases f <;> first | rfl | simp at hf

theorem descend_only (fuel : Nat) (s : State) :
    (descend fuel s).Within [.racc, .rdCursor, .srcPos, .draws, .cur] s := by
  induction fuel generalizing s with
  | zero => trivial
  | succ fuel ih =>
    rw [descend]
    split
    · trivial
    · split
      · exact Only.refl _ s
      · refine ((popBit_only s).mono (by simp)).bind fun b t => ?_
        split
        · refine Res.Within.bind ?_ fun _ u => Only.refl _ u
          exact (ih _).after fun f hf => by cases f <;> first | rfl | simp at hf
        · trivial
      all_goals trivial

theorem walk_only (s : State) :
    (walk s).Within [.racc, .rdCursor, .srcPos, .draws, .cur, .sink, .wrTotal, .outcnt] s := by
  unfold walk
  split
  · trivial
  · refine Res.Within.bind ?_ fun pv t => Res.Within.bind ((sinkWrite_only [pv.2] t).mono (by simp)) fun _ u => ?_
    · exact ((descend_only _ _).mono (by simp)).after fun f hf => by cases f <;> first | rfl | simp at hf
    · exact fun f hf => by cases f <;> first | rfl | simp at hf

theorem readLenToken_only (l : BitVec 32) (s : State) :
    (readLenToken l s).Within [.racc, .rdCursor, .srcPos, .draws, .l] s :=
  (readLength_only s).bind fun _ t => by split; exacts [Only.refl _ t, trivial]

theorem readNodeToken_only (tok : Option Byte) (s : State) :
    (readNodeToken tok s).Within [.racc, .rdCursor, .srcPos, .draws, .node, .stk, .root] s := by
  unfold readNodeToken
  split
  · trivial
  · refine ((readNode_only s).mono (by simp)).bind fun _ t => ?_
    split; exacts [(closeTree_only t).mono (by simp), trivial]

theorem readCodeToken_only (p : List Bool) (s : State) :
    (readCodeToken p s).Within [.racc, .rdCursor, .srcPos, .draws, .cur, .sink, .wrTotal, .outcnt] s :=
  (walk_only s).bind fun _ t => by split; exacts [Only.refl _ t, trivial]

end

end Sys2Proof.Machine
end

