-- ==== Sys2Proof/Laws/Frequency.lean ====
section
/-! SUPPORT. The law of FREQ.SCAN (41_frequency.md R151 to R154): the counts of the source's bytes, and its length. -/

namespace Sys2Proof.Machine

theorem countSymbol_length (freq : List Nat) (v : Byte) : (countSymbol freq v).length = freq.length := by
  simp [countSymbol]

/-- The counts after the bytes of a list. -/
def counted (freq : List Nat) : List Byte → List Nat
  | [] => freq
  | v :: vs => counted (countSymbol freq v) vs

theorem counted_length (freq : List Nat) (vs : List Byte) : (counted freq vs).length = freq.length := by
  induction vs generalizing freq with
  | nil => rfl
  | cons v vs ih => rw [counted, ih, countSymbol_length]

theorem sum_set (l : List Nat) (k : Nat) (h : k < l.length) : (l.set k (l.getD k 0 + 1)).sum = l.sum + 1 := by
  induction l generalizing k with
  | nil => simp at h
  | cons a l ih =>
    cases k with
    | zero => simp; omega
    | succ k =>
      have := ih k (by simpa using h)
      simp only [List.set_cons_succ, List.getD_cons_succ, List.sum_cons, this]
      omega

/-- The sum of the counts is the number of bytes counted (41_frequency.md R153). -/
theorem counted_sum (freq : List Nat) (vs : List Byte) (hf : freq.length = Config.nsym) :
    (counted freq vs).sum = freq.sum + vs.length := by
  induction vs generalizing freq with
  | nil => simp [counted]
  | cons v vs ih =>
    have hv : v.toNat < freq.length := by rw [hf]; exact v.isLt
    rw [counted, ih _ (by rw [countSymbol_length, hf]), countSymbol, sum_set freq v.toNat hv, List.length_cons]
    omega

theorem counted_getD (freq : List Nat) (vs : List Byte) (hf : freq.length = Config.nsym) (w : Byte) :
    (counted freq vs).getD w.toNat 0 = freq.getD w.toNat 0 + occurrences vs w := by
  induction vs generalizing freq with
  | nil => simp [counted, occurrences]
  | cons v vs ih =>
    have hv : v.toNat < freq.length := by rw [hf]; exact v.isLt
    rw [counted, ih _ (by rw [countSymbol_length, hf])]
    simp only [countSymbol, occurrences, List.getD_eq_getElem?_getD, List.count_cons]
    by_cases h : v = w
    · subst h
      rw [List.getElem?_set_self hv]
      simp; omega
    · have hne : v.toNat ≠ w.toNat := fun he => h (BitVec.eq_of_toNat_eq he)
      rw [List.getElem?_set_ne hne]
      simp [h]

/-- Everything the loop of FREQ.SCAN can do (41_frequency.md R151). -/
theorem freqLoop_meets (fuel : Nat) (s : State) (hf : (s.src.drop s.srcPos).length < fuel)
    (ht : s.total + (s.src.drop s.srcPos).length < 2 ^ Config.lenW) :
    (freqLoop fuel s).Meets
      (fun _ t => t.draws <:+ s.draws ∧ t = { s with
        freq := counted s.freq (s.src.drop s.srcPos)
        total := s.total + (s.src.drop s.srcPos).length
        srcPos := s.srcPos + (s.src.drop s.srcPos).length
        draws := t.draws })
      (HostFault s) := by
  induction fuel generalizing s with
  | zero => omega
  | succ fuel ih =>
    rw [freqLoop]
    refine (srcRead_meets 1 s).bind fun d t h => ?_
    obtain ⟨rfl, rfl⟩ := h
    cases hd : s.src.drop s.srcPos with
    | nil =>
      simp only [srcBytes, hd, List.take_nil, List.length_nil, Nat.add_zero, Res.meets_ok, counted]
      exact ⟨tail_suffix s, rfl⟩
    | cons v vs =>
      rw [hd] at hf ht
      simp only [List.length_cons] at hf ht
      have hdrop : s.src.drop (s.srcPos + 1) = vs := by
        rw [← List.drop_drop, hd]; rfl
      simp only [srcBytes, hd, List.take_succ_cons, List.take_zero, List.length_cons, List.length_nil, Nat.zero_add,
        answered_total, answered_freq]
      rw [if_pos (by omega)]
      refine (ih _ ?_ ?_).mono (fun _ u hu => ⟨hu.1.trans (tail_suffix s), ?_⟩) (fun e u hu => hu.of_suffix (tail_suffix s))
      · simp only [answered_src, hdrop]; omega
      · simp only [answered_src, hdrop]; omega
      · rw [hu.2]
        simp only [answered_src, hdrop, counted]
        congr 1
        · omega
        · omega

/-- Everything FREQ.SCAN can do on a source whose rest fits the counter (41_frequency.md R151, R153). -/
theorem scan_meets (s : State) (ht : (s.src.drop s.srcPos).length < 2 ^ Config.lenW) :
    (scan s).Meets
      (fun _ t => t.draws <:+ s.draws ∧ t = { s with
        freq := counted (List.replicate Config.nsym 0) (s.src.drop s.srcPos)
        total := (s.src.drop s.srcPos).length
        srcPos := s.srcPos + (s.src.drop s.srcPos).length
        draws := t.draws })
      (HostFault s) := by
  have h := freqLoop_meets (s.src.length - s.srcPos + 1)
    { s with freq := List.replicate Config.nsym 0, total := 0 } (by simp) (by simpa using ht)
  refine h.mono (fun _ t ht => ⟨ht.1, ?_⟩) (fun _ _ h => h)
  rw [ht.2]
  simp

theorem scanned_getD (vs : List Byte) (w : Byte) :
    (counted (List.replicate Config.nsym 0) vs).getD w.toNat 0 = occurrences vs w := by
  rw [counted_getD _ _ (by simp)]
  have : (List.replicate Config.nsym 0).getD w.toNat 0 = 0 := by
    simp only [List.getD_eq_getElem?_getD, List.getElem?_replicate]
    split <;> rfl
  rw [this, Nat.zero_add]

/-- A pass over more bytes than `TOTAL` can count has no meaning (41_frequency.md R154). -/
theorem freqLoop_tooLong (fuel : Nat) (s : State) (hs : Serves s) (hf : (s.src.drop s.srcPos).length < fuel)
    (ht : s.total < 2 ^ Config.lenW) (h : 2 ^ Config.lenW ≤ s.total + (s.src.drop s.srcPos).length) :
    freqLoop fuel s = .refused .inputTooLong := by
  induction fuel generalizing s with
  | zero => omega
  | succ fuel ih =>
    obtain ⟨d, t, h1, h2, h3⟩ := (srcRead_meets 1 s).served hs
    rw [freqLoop, h1]
    cases hr : s.src.drop s.srcPos with
    | nil => rw [hr] at h; simp only [List.length_nil] at h; omega
    | cons v vs =>
      have hd : d = [v] := by rw [h2, srcBytes, hr]; rfl
      subst hd
      have e1 : t.total = s.total := by rw [h3]; rfl
      have e2 : t.src = s.src := by rw [h3]; rfl
      have e3 : t.srcPos = s.srcPos + 1 := by rw [h3]; rfl
      have e4 : t.draws = s.draws.tail := by rw [h3]; rfl
      have hvs : s.src.drop (s.srcPos + 1) = vs := by rw [← List.drop_drop, hr]; rfl
      rw [Res.bind_ok]
      rw [hr] at h hf
      simp only [List.length_cons] at h hf
      show (if t.total + 1 < 2 ^ Config.lenW then _ else _) = _
      by_cases hc : t.total + 1 < 2 ^ Config.lenW
      · rw [if_pos hc]
        refine ih _ (fun x hx => hs x (List.mem_of_mem_tail (by simpa [e4] using hx))) ?_ hc ?_
        · simp only [e2, e3, hvs]; omega
        · simp only [e2, e3, hvs, e1]; omega
      · rw [if_neg hc]

end Sys2Proof.Machine
end

