-- ==== Sys2Proof/Laws/Moves.lean ====
section
/-! SUPPORT. What every unit operation keeps, whatever it does and however it ends: the sequencer's and the host's
registers, SRC, the bytes already in SINK, and the ranges of the registers and tables. -/

namespace Sys2Proof.Machine

/-- What holds between the state before and the state after any part of a unit operation. -/
structure Moves (s t : State) : Prop where
  phase : t.phase = s.phase
  err : t.err = s.err
  result : t.result = s.result
  script : t.script = s.script
  src : t.src = s.src
  ret : t.ret = s.ret
  sink : s.sink <+: t.sink
  draws : t.draws <:+ s.draws
  ranged : Ranged s → Ranged t

theorem Moves.refl (s : State) : Moves s s :=
  ⟨rfl, rfl, rfl, rfl, rfl, rfl, List.prefix_rfl, List.suffix_rfl, id⟩

theorem Moves.trans {s t u : State} (h : Moves s t) (h' : Moves t u) : Moves s u :=
  ⟨h'.phase.trans h.phase, h'.err.trans h.err, h'.result.trans h.result, h'.script.trans h.script,
    h'.src.trans h.src, h'.ret.trans h.ret, h.sink.trans h'.sink, h'.draws.trans h.draws,
    fun r => h'.ranged (h.ranged r)⟩

/-- The operation, however it ends, has only moved from `s`. -/
def Res.Keeps {α : Type} (x : Res α) (s : State) : Prop :=
  match x with
  | .ok _ t => Moves s t
  | .raise _ t => Moves s t
  | .fault _ => True
  | .refused _ => True

namespace Res

variable {α β : Type} {x : Res α} {s s' : State} {k : α → State → Res β}

@[simp] theorem keeps_ok {a : α} {t : State} : (Res.ok a t).Keeps s ↔ Moves s t := Iff.rfl
@[simp] theorem keeps_raise {e : Err} {t : State} : (Res.raise e t : Res α).Keeps s ↔ Moves s t := Iff.rfl
@[simp] theorem keeps_fault {f : Fault} : (Res.fault f : Res α).Keeps s := trivial
@[simp] theorem keeps_refused {r : Refusal} : (Res.refused r : Res α).Keeps s := trivial

theorem Keeps.of_moves (h : x.Keeps s') (hm : Moves s s') : x.Keeps s := by
  cases x with
  | ok a t => exact hm.trans h
  | raise e t => exact hm.trans h
  | fault f => trivial
  | refused r => trivial

theorem Keeps.bind (h : x.Keeps s) (hk : ∀ a t, (k a t).Keeps t) : (x.bind k).Keeps s := by
  cases x with
  | ok a t => exact (hk a t).of_moves h
  | raise e t => exact h
  | fault f => trivial
  | refused r => trivial

/-- The same where the continuation needs to know how the first part ended. -/
theorem Keeps.bind' (h : x.Keeps s) (hk : ∀ a t, x = .ok a t → (k a t).Keeps t) : (x.bind k).Keeps s := by
  cases x with
  | ok a t => exact (hk a t rfl).of_moves h
  | raise e t => exact h
  | fault f => trivial
  | refused r => trivial

/-- The same where what follows has to be held against the state before the first part. -/
theorem Keeps.bindFrom (h : x.Keeps s) (hk : ∀ a t, x = .ok a t → Moves s t → (k a t).Keeps s) : (x.bind k).Keeps s := by
  cases x with
  | ok a t => exact hk a t rfl h
  | raise e t => exact h
  | fault f => trivial
  | refused r => trivial

/-- From an operation's end with a value to what it kept. -/
theorem Keeps.moves (h : x.Keeps s) {a : α} {t : State} (e : x = .ok a t) : Moves s t := by subst e; exact h

/-- Where nothing is raised, what holds of the ends with a value is enough. -/
theorem Keeps.of_ok (h : ∀ a t, x = .ok a t → Moves s t) (h' : ∀ e t, x ≠ .raise e t) : x.Keeps s := by
  cases x with
  | ok a t => exact h a t rfl
  | raise e t => exact (h' e t rfl).elim
  | fault f => trivial
  | refused r => trivial

end Res

/-! ### Single updates -/

/-- A state that differs in nothing these relations speak of, but for the ranges. -/
theorem Moves.mk' {s t : State} (h1 : t.phase = s.phase) (h2 : t.err = s.err) (h3 : t.result = s.result)
    (h4 : t.script = s.script) (h5 : t.src = s.src) (h6 : t.ret = s.ret) (h7 : t.sink = s.sink)
    (h8 : t.draws = s.draws) (h9 : Ranged s → Ranged t) : Moves s t :=
  ⟨h1, h2, h3, h4, h5, h6, h7 ▸ List.prefix_rfl, h8 ▸ List.suffix_rfl, h9⟩

theorem answered_moves (s : State) : Moves s (answered s) :=
  ⟨rfl, rfl, rfl, rfl, rfl, rfl, List.prefix_rfl, List.tail_suffix _, fun h => { h with }⟩

theorem setAcc_moves (a : Acc) (bits : List Bool) (s : State) (h : Ranged s → bits.length ≤ Config.accCap) :
    Moves s (setAcc a bits s) := by
  cases a with
  | writer => exact Moves.mk' rfl rfl rfl rfl rfl rfl rfl rfl fun r => { r with wacc_le := h r }
  | reader => exact Moves.mk' rfl rfl rfl rfl rfl rfl rfl rfl fun r => { r with racc_le := h r }

theorem accClear_moves (a : Acc) (s : State) : Moves s (accClear a s) :=
  setAcc_moves a [] s fun _ => Nat.zero_le _

/-! ### The primitives and the BitChannel -/

theorem memRead_keeps (addr n : Nat) (s : State) : (memRead addr n s).Keeps s := by
  unfold memRead; split <;> exact answered_moves s

theorem srcRead_keeps (n : Nat) (s : State) : (srcRead n s).Keeps s :=
  (memRead_keeps _ _ s).bind fun _ _ => Moves.mk' rfl rfl rfl rfl rfl rfl rfl rfl fun r => { r with }

theorem sinkWrite_keeps (v : List Byte) (s : State) : (sinkWrite v s).Keeps s := by
  unfold sinkWrite
  split <;> exact ⟨rfl, rfl, rfl, rfl, rfl, rfl, List.prefix_append _ _, List.tail_suffix _, fun r => { r with }⟩

theorem accPushBit_keeps (a : Acc) (b : Bool) (s : State) : (accPushBit a b s).Keeps s := by
  unfold accPushBit
  split
  · exact Moves.refl s
  · rename_i h
    refine setAcc_moves a _ s fun r => ?_
    simp only [isFull, decide_eq_true_eq] at h
    have : (acc a s).length ≤ Config.accCap := by cases a with
      | writer => exact r.wacc_le
      | reader => exact r.racc_le
    simp only [List.length_append, List.length_singleton]
    omega

theorem accBitAt_ok {a : Acc} {i : Nat} {s t : State} {b : Bool} (h : accBitAt a i s = .ok b t) :
    t = s ∧ i < (acc a s).length := by
  unfold accBitAt at h
  split at h
  · rename_i hb
    injection h with _ h
    exact ⟨h.symm, (List.getElem?_eq_some_iff.mp hb).1⟩
  · cases h

theorem accBitAt_keeps (a : Acc) (i : Nat) (s : State) : (accBitAt a i s).Keeps s := by
  unfold accBitAt; split <;> exact Moves.refl s

theorem accPushBits_keeps (a : Acc) (bits : List Bool) (s : State) : (accPushBits a bits s).Keeps s := by
  induction bits generalizing s with
  | nil => exact Moves.refl s
  | cons b bits ih => exact (accPushBit_keeps a b s).bind fun _ t => ih t

theorem flush_keeps (s : State) : (flush s).Keeps s := by
  unfold flush
  split
  · exact accClear_moves .writer s
  · rename_i v vs _
    refine (sinkWrite_keeps _ s).bind fun _ t => ?_
    have h : Moves t { t with wrTotal := t.wrTotal + (v :: vs).length } :=
      Moves.mk' rfl rfl rfl rfl rfl rfl rfl rfl fun r => { r with }
    exact h.trans (accClear_moves .writer _)

theorem writeBit_keeps (b : Bool) (s : State) : (writeBit b s).Keeps s :=
  (accPushBit_keeps .writer b s).bind fun _ t => by split; exacts [flush_keeps t, Moves.refl t]

theorem writeBits_keeps (bits : List Bool) (s : State) : (writeBits bits s).Keeps s := by
  induction bits generalizing s with
  | nil => exact Moves.refl s
  | cons b bits ih => exact (writeBit_keeps b s).bind fun _ t => ih t

theorem writeByte_keeps (v : Byte) (s : State) : (writeByte v s).Keeps s := writeBits_keeps _ s

theorem finish_keeps (s : State) : (finish s).Keeps s :=
  (accPushBits_keeps _ _ s).bind fun _ t => (flush_keeps t).bind fun _ u => Moves.refl u

theorem refill_keeps (s : State) : (refill s).Keeps s := by
  refine (srcRead_keeps _ s).bind fun d t => ?_
  split
  · exact Moves.refl t
  · refine Res.Keeps.of_moves ?_ (accClear_moves .reader t)
    exact (accPushBits_keeps _ _ _).bind fun _ u =>
      Moves.mk' rfl rfl rfl rfl rfl rfl rfl rfl fun r => { r with cursor_le := Nat.zero_le _ }

theorem popBit_keeps (s : State) : (popBit s).Keeps s := by
  have h1 : (if readerEmpty s then refill s else .ok () s : Res Unit).Keeps s := by
    split; exacts [refill_keeps s, Moves.refl s]
  refine h1.bind fun _ t => (accBitAt_keeps .reader t.rdCursor t).bind' fun b u hu => ?_
  obtain ⟨rfl, hlt⟩ := accBitAt_ok hu
  exact Moves.mk' rfl rfl rfl rfl rfl rfl rfl rfl fun r =>
    { r with cursor_le := Nat.le_trans (Nat.succ_le_of_lt hlt) r.racc_le }

theorem popBits_keeps (k : Nat) (s : State) : (popBits k s).Keeps s := by
  induction k generalizing s with
  | zero => exact Moves.refl s
  | succ k ih => exact (popBit_keeps s).bind fun _ t => (ih t).bind fun _ u => Moves.refl u

theorem popByte_keeps (s : State) : (popByte s).Keeps s := (popBits_keeps 8 s).bind fun _ t => Moves.refl t

/-! ### The other blocks -/

theorem srcRead_freq {n : Nat} {s t : State} {d : List Byte} (h : srcRead n s = .ok d t) :
    t.freq = s.freq ∧ t.total = s.total := by
  have hw := srcRead_only n s
  rw [h] at hw
  exact ⟨hw .freq (by simp), hw .total (by simp)⟩

/-- A count is at most the sum of the counts. -/
theorem freq_lt_of_sum {freq : List Nat} {n : Nat} (h : freq.sum = n) (hn : n < 2 ^ Config.lenW) :
    ∀ c ∈ freq, c < 2 ^ Config.cntW := fun _ hc =>
  Nat.lt_of_le_of_lt (List.le_sum_of_mem hc) (h ▸ hn)

theorem countSymbol_sum {freq : List Nat} (h : freq.length = Config.nsym) (v : Byte) :
    (countSymbol freq v).sum = freq.sum + 1 := sum_set freq v.toNat (by rw [h]; exact v.isLt)

theorem freqLoop_keeps (fuel : Nat) (s : State) (hf : s.freq.length = Config.nsym) : (freqLoop fuel s).Keeps s := by
  induction fuel generalizing s with
  | zero => trivial
  | succ fuel ih =>
    refine (srcRead_keeps 1 s).bind' fun d t ht => ?_
    obtain ⟨h1, -⟩ := srcRead_freq ht
    rw [← h1] at hf
    split
    · exact Moves.refl t
    · rename_i v _
      split
      · rename_i h
        refine (ih _ (by rw [countSymbol_length, hf])).of_moves
          (Moves.mk' rfl rfl rfl rfl rfl rfl rfl rfl fun r => ?_)
        have hsum : (countSymbol t.freq v).sum = t.total + 1 := by rw [countSymbol_sum hf, r.freq_sum]
        exact { r with
          freq_len := by simpa [countSymbol] using r.freq_len
          total_lt := h
          freq_sum := hsum
          freq_lt := freq_lt_of_sum hsum h }
      · trivial

theorem sum_zeros (n : Nat) : (List.replicate n 0).sum = 0 := by simp

/-- The table FREQ.SCAN and a command start from. -/
theorem zero_freq_lt (n : Nat) : ∀ c ∈ List.replicate n 0, c < 2 ^ Config.cntW := fun c hc => by
  rw [(List.mem_replicate.mp hc).2]; exact Nat.two_pow_pos _

theorem scan_keeps (s : State) : (scan s).Keeps s :=
  (freqLoop_keeps _ _ (by simp)).of_moves (Moves.mk' rfl rfl rfl rfl rfl rfl rfl rfl fun r => { r with
    freq_len := .inr (by simp), total_lt := Nat.two_pow_pos _, freq_sum := sum_zeros _, freq_lt := zero_freq_lt _ })

theorem swapAt_length_eq (h : List Nat) (i j : Nat) : (swapAt h i j).length = h.length := by
  unfold swapAt; split <;> simp

theorem siftUp_length {nodes : List Node} {fuel k : Nat} {h h' : List Nat}
    (e : siftUp nodes fuel h k = some h') : h'.length = h.length := by
  induction fuel generalizing h k with
  | zero => simp only [siftUp, Option.some.injEq] at e; rw [e]
  | succ fuel ih =>
    rw [siftUp] at e
    repeat' split at e
    all_goals first
      | (simp only [Option.some.injEq] at e; rw [e])
      | (rw [ih e, swapAt_length_eq])
      | (simp at e)

theorem siftDown_length {nodes : List Node} {fuel k : Nat} {h h' : List Nat}
    (e : siftDown nodes fuel h k = some h') : h'.length = h.length := by
  induction fuel generalizing h k with
  | zero => simp only [siftDown, Option.some.injEq] at e; rw [e]
  | succ fuel ih =>
    rw [siftDown] at e
    repeat' split at e
    all_goals first
      | (simp only [Option.some.injEq] at e; rw [e])
      | (rw [ih e, swapAt_length_eq])
      | (simp at e)

theorem heapAfterMin_length {nodes : List Node} {rest h' : List Nat} (e : heapAfterMin nodes rest = some h') :
    h'.length = rest.length := by
  unfold heapAfterMin at e
  split at e
  · rename_i hn
    simp only [Option.some.injEq] at e
    rw [← e, List.getLast?_eq_none_iff.mp hn]
  · rename_i last hl
    rw [siftDown_length e]
    obtain ⟨ys, rfl⟩ := List.getLast?_eq_some_iff.mp hl
    simp

theorem swapAt_mem {h : List Nat} {i j y : Nat} (hy : y ∈ swapAt h i j) : y ∈ h := by
  unfold swapAt at hy
  split at hy
  · rename_i a b ha hb
    rcases List.mem_or_eq_of_mem_set hy with hy | rfl
    · rcases List.mem_or_eq_of_mem_set hy with hy | rfl
      · exact hy
      · exact List.mem_of_getElem? hb
    · exact List.mem_of_getElem? ha
  · exact hy

theorem siftUp_mem {nodes : List Node} {fuel k : Nat} {h h' : List Nat} (e : siftUp nodes fuel h k = some h')
    {y : Nat} (hy : y ∈ h') : y ∈ h := by
  induction fuel generalizing h k with
  | zero => simp only [siftUp, Option.some.injEq] at e; rwa [e]
  | succ fuel ih =>
    rw [siftUp] at e
    repeat' split at e
    all_goals first
      | (simp only [Option.some.injEq] at e; rwa [e])
      | exact swapAt_mem (ih e)
      | (simp at e)

theorem siftDown_mem {nodes : List Node} {fuel k : Nat} {h h' : List Nat} (e : siftDown nodes fuel h k = some h')
    {y : Nat} (hy : y ∈ h') : y ∈ h := by
  induction fuel generalizing h k with
  | zero => simp only [siftDown, Option.some.injEq] at e; rwa [e]
  | succ fuel ih =>
    rw [siftDown] at e
    repeat' split at e
    all_goals first
      | (simp only [Option.some.injEq] at e; rwa [e])
      | exact swapAt_mem (ih e)
      | (simp at e)

theorem heapAfterMin_mem {nodes : List Node} {rest h' : List Nat} (e : heapAfterMin nodes rest = some h') {y : Nat}
    (hy : y ∈ h') : y ∈ rest := by
  unfold heapAfterMin at e
  split at e
  · simp only [Option.some.injEq] at e; rw [← e] at hy; simp at hy
  · rename_i last hl
    rcases List.mem_cons.mp (siftDown_mem e hy) with rfl | h
    · exact List.mem_of_getLast? hl
    · exact List.mem_of_mem_dropLast h

/-- What HEAP.INSERT can do where it ends with a value. -/
theorem heapInsert_ok {x : Nat} {s t : State} (h : heapInsert x s = .ok () t) :
    ∃ h', t = { s with heap := h' } ∧ h'.length = s.heap.length + 1 ∧ s.heap.length < Config.heapCap ∧
      x < s.node.length ∧ ∀ y ∈ h', y = x ∨ y ∈ s.heap := by
  unfold heapInsert at h
  repeat' split at h
  all_goals cases h
  rename_i hx hlt _ h' e
  refine ⟨h', rfl, by simpa using siftUp_length e, hlt, hx, fun y hy => ?_⟩
  have := siftUp_mem e hy
  simp only [List.mem_append, List.mem_singleton] at this
  exact this.symm

theorem heapInsert_not_raise (x : Nat) (s : State) (e : Err) (t : State) : heapInsert x s ≠ .raise e t := by
  unfold heapInsert; repeat' split
  all_goals simp

theorem heapInsert_keeps (x : Nat) (s : State) : (heapInsert x s).Keeps s :=
  .of_ok (fun _ t h => by
    obtain ⟨h', rfl, hl, hlt, hx, hm⟩ := heapInsert_ok h
    exact Moves.mk' rfl rfl rfl rfl rfl rfl rfl rfl fun r => { r with
      heap_le := (by show h'.length ≤ _; omega)
      entry_lt := fun y hy => by
        rcases hm y hy with rfl | hy
        · exact Nat.lt_of_lt_of_le hx r.node_le
        · exact r.entry_lt y hy }) (heapInsert_not_raise x s)

/-- What HEAP.EXTRACTMIN can do where it ends with a value. -/
theorem heapExtractMin_ok {x : Nat} {s t : State} (h : heapExtractMin s = .ok x t) :
    ∃ h', t = { s with heap := h' } ∧ h'.length + 1 = s.heap.length ∧ x ∈ s.heap ∧ ∀ y ∈ h', y ∈ s.heap := by
  unfold heapExtractMin at h
  repeat' split at h
  all_goals cases h
  rename_i rest _ h' e hs
  exact ⟨h', rfl, by rw [heapAfterMin_length e, hs]; rfl, by simp [hs],
    fun y hy => by rw [hs]; exact List.mem_cons_of_mem _ (heapAfterMin_mem e hy)⟩

theorem heapExtractMin_not_raise (s : State) (e : Err) (t : State) : heapExtractMin s ≠ .raise e t := by
  unfold heapExtractMin; repeat' split
  all_goals simp

theorem heapExtractMin_keeps (s : State) : (heapExtractMin s).Keeps s :=
  .of_ok (fun _ t h => by
    obtain ⟨h', rfl, hl, -, hm⟩ := heapExtractMin_ok h
    exact Moves.mk' rfl rfl rfl rfl rfl rfl rfl rfl fun r => { r with
      heap_le := (by show h'.length ≤ _; have := r.heap_le; omega)
      entry_lt := fun y hy => r.entry_lt y (hm y hy) }) (heapExtractMin_not_raise s)

theorem allocNode_ok {d : Node} {x : Nat} {s t : State} (h : allocNode d s = .ok x t) :
    x = s.node.length ∧ s.node.length < Config.nodeCap ∧ t = { s with node := s.node ++ [d] } := by
  unfold allocNode at h
  split at h <;> cases h
  exact ⟨rfl, by assumption, rfl⟩

theorem allocNode_not_raise (d : Node) (s : State) (e : Err) (t : State) : allocNode d s ≠ .raise e t := by
  unfold allocNode; split <;> simp

theorem freqAt_ok {x c : Nat} {s t : State} (h : freqAt x s = .ok c t) : t = s ∧ c ∈ s.freq := by
  unfold freqAt at h
  split at h <;> cases h
  exact ⟨rfl, List.mem_of_getElem? (by assumption)⟩

theorem freqAt_keeps (x : Nat) (s : State) : (freqAt x s).Keeps s := by
  unfold freqAt; split; exacts [Moves.refl s, trivial]

theorem weightAt_ok {x w : Nat} {s t : State} (h : weightAt x s = .ok w t) : t = s := by
  unfold weightAt at h
  split at h <;> cases h
  rfl

theorem weightAt_not_raise (x : Nat) (s : State) (e : Err) (t : State) : weightAt x s ≠ .raise e t := by
  unfold weightAt; split <;> simp

namespace Res

variable {α β : Type} {x : Res α} {k : α → State → Res β}

/-- An operation that ends with a value ends with one in each of its parts. -/
theorem bind_eq_ok {b : β} {u : State} : x.bind k = .ok b u ↔ ∃ a t, x = .ok a t ∧ k a t = .ok b u := by
  cases x <;> simp

theorem bind_ne_raise (h : ∀ e t, x ≠ .raise e t) (h' : ∀ a t e u, x = .ok a t → k a t ≠ .raise e u) (e : Err)
    (u : State) : x.bind k ≠ .raise e u := by
  cases x with
  | ok a t => exact h' a t e u rfl
  | raise e' t => exact (h e' t rfl).elim
  | fault f => simp
  | refused r => simp

end Res

/-- The node store with a node more, whose weight and children are in range. -/
theorem Ranged.addNode {s : State} (r : Ranged s) (d : Node) (h : List Nat) (hn : s.node.length < Config.nodeCap)
    (hw : ∀ w, d.weight? = some w → w < 2 ^ Config.cntW)
    (hc : ∀ w a b, d = .internal w a b → ∀ x, a = some x ∨ b = some x → x < Config.nodeCap)
    (hl : h.length ≤ Config.heapCap) (hh : ∀ y ∈ h, y < Config.nodeCap) :
    Ranged { s with node := s.node ++ [d], heap := h } :=
  { r with
    node_le := by simp; omega
    heap_le := hl
    weight_lt := fun e he w hw' => by
      rcases List.mem_append.mp he with he | he
      · exact r.weight_lt e he w hw'
      · obtain rfl := List.mem_singleton.mp he; exact hw w hw'
    child_lt := fun w a b he x hx => by
      rcases List.mem_append.mp he with he | he
      · exact r.child_lt w a b he x hx
      · exact hc w a b (List.mem_singleton.mp he).symm x hx
    entry_lt := hh }

theorem leavesLoop_keeps (vs : List Nat) (s : State) (hn : s.n + vs.length ≤ Config.nsym) :
    (leavesLoop vs s).Keeps s := by
  induction vs generalizing s with
  | nil => exact Moves.refl s
  | cons v vs ih =>
    simp only [List.length_cons] at hn
    refine (freqAt_keeps v s).bind' fun c t ht => ?_
    obtain ⟨rfl, hc⟩ := freqAt_ok ht
    split
    · rw [← Res.bind_assoc]
      generalize hb : ((allocNode (.leaf (BitVec.ofNat 8 v) c) t).bind fun x s => heapInsert x s) = y
      cases y with
      | ok a w =>
        obtain ⟨x, u, ha, hi⟩ := Res.bind_eq_ok.mp hb
        obtain ⟨rfl, hlt, rfl⟩ := allocNode_ok ha
        obtain ⟨h', rfl, hl, hcap, hx, hm⟩ := heapInsert_ok hi
        refine (ih _ (by simp only; omega)).of_moves (Moves.mk' rfl rfl rfl rfl rfl rfl rfl rfl fun r => ?_)
        exact { r.addNode (.leaf (BitVec.ofNat 8 v) c) h' hlt
            (fun w hw => by cases hw; exact r.freq_lt c hc) (fun _ _ _ h => by cases h)
            (by rw [hl]; exact hcap) (fun y hy => by
              rcases hm y hy with rfl | hy
              · exact hlt
              · exact r.entry_lt y hy) with
          n_le := by show t.n + 1 ≤ _; omega }
      | raise e u =>
        exact (Res.bind_ne_raise (allocNode_not_raise _ _) (fun a t e u _ => heapInsert_not_raise a t e u) e u hb).elim
      | fault f => trivial
      | refused r => trivial
    · exact ih t (by omega)

theorem leaves_keeps (s : State) : (leaves s).Keeps s :=
  (leavesLoop_keeps _ _ (by simp)).of_moves (Moves.mk' rfl rfl rfl rfl rfl rfl rfl rfl fun r => { r with
    node_le := Nat.zero_le _, heap_le := Nat.zero_le _, n_le := Nat.zero_le _
    weight_lt := fun _ h => by simp at h
    child_lt := fun _ _ _ h => by simp at h
    entry_lt := fun _ h => by simp at h })

theorem addWeights_lt (a b : Nat) : addWeights a b < 2 ^ Config.cntW := by
  unfold addWeights; split; exacts [by assumption, BitVec.isLt _]

/-- What TB.MERGE can do where it ends with a value. -/
theorem merge_ok {s t : State} (h : merge s = .ok () t) :
    ∃ a b wa wb h', t = { s with node := s.node ++ [.internal (addWeights wa wb) (some a) (some b)], heap := h' } ∧
      a ∈ s.heap ∧ b ∈ s.heap ∧ s.node.length < Config.nodeCap ∧ h'.length + 1 = s.heap.length ∧
      ∀ y ∈ h', y = s.node.length ∨ y ∈ s.heap := by
  unfold merge at h
  split at h
  · simp only [Res.bind_eq_ok] at h
    obtain ⟨a, s1, e1, b, s2, e2, wa, s3, e3, wb, s4, e4, x, s5, e5, e6⟩ := h
    obtain ⟨h1, rfl, l1, m1, i1⟩ := heapExtractMin_ok e1
    obtain ⟨h2, rfl, l2, m2, i2⟩ := heapExtractMin_ok e2
    obtain rfl := weightAt_ok e3
    obtain rfl := weightAt_ok e4
    obtain ⟨rfl, hn, rfl⟩ := allocNode_ok e5
    obtain ⟨h3, rfl, l3, -, -, i3⟩ := heapInsert_ok e6
    refine ⟨a, b, wa, wb, h3, rfl, m1, i1 b m2, hn, by simp only at *; omega, fun y hy => ?_⟩
    rcases i3 y hy with rfl | hy
    · exact .inl rfl
    · exact .inr (i1 y (i2 y hy))
  · cases h

theorem merge_not_raise (s : State) (e : Err) (t : State) : merge s ≠ .raise e t := by
  unfold merge
  split
  · exact Res.bind_ne_raise (heapExtractMin_not_raise _) (fun a s1 e u _ => Res.bind_ne_raise
      (heapExtractMin_not_raise _) (fun b s2 e u _ => Res.bind_ne_raise (weightAt_not_raise _ _)
        (fun wa s3 e u _ => Res.bind_ne_raise (weightAt_not_raise _ _) (fun wb s4 e u _ =>
          Res.bind_ne_raise (allocNode_not_raise _ _) (fun x s5 e u _ => heapInsert_not_raise x s5 e u) e u) e u) e u)
      e u) e t
  · simp

theorem merge_keeps (s : State) : (merge s).Keeps s :=
  .of_ok (fun _ t h => by
    obtain ⟨a, b, wa, wb, h', rfl, ha, hb, hn, hl, hm⟩ := merge_ok h
    refine Moves.mk' rfl rfl rfl rfl rfl rfl rfl rfl fun r => r.addNode _ h' hn ?_ ?_ ?_ ?_
    · intro w hw; cases hw; exact addWeights_lt wa wb
    · intro w l r' h x hx
      cases h
      rcases hx with hx | hx <;> cases hx
      · exact r.entry_lt _ ha
      · exact r.entry_lt _ hb
    · have := r.heap_le; omega
    · intro y hy
      rcases hm y hy with rfl | hy
      · exact hn
      · exact r.entry_lt y hy) (merge_not_raise s)

theorem mergeLoop_keeps (fuel : Nat) (s : State) : (mergeLoop fuel s).Keeps s := by
  induction fuel generalizing s with
  | zero => exact Moves.refl s
  | succ fuel ih =>
    rw [mergeLoop]
    split
    · exact (merge_keeps s).bind fun _ t => ih t
    · exact Moves.refl s

theorem takeRoot_keeps (s : State) : (takeRoot s).Keeps s :=
  (heapExtractMin_keeps s).bindFrom fun x t h hm => by
    obtain ⟨h', rfl, -, hx, -⟩ := heapExtractMin_ok h
    exact ⟨hm.phase, hm.err, hm.result, hm.script, hm.src, hm.ret, hm.sink, hm.draws, fun r => { hm.ranged r with
      root_lt := fun y hy => by cases hy; exact r.entry_lt x hx }⟩

theorem build_keeps (s : State) : (build s).Keeps s :=
  (leaves_keeps s).bind fun _ t => (mergeLoop_keeps _ t).bind fun _ u => takeRoot_keeps u

/-! ### The traversals -/

/-- The ranges but for the stack's. -/
theorem Ranged.noStk {s : State} (r : Ranged s) : Ranged { s with stk := [] } :=
  { r with
    stk_le := Nat.zero_le _
    stk_lt := fun _ h => by simp at h
    stk_below := fun _ _ _ h => by simp at h }

/-- A stack of nodes to visit. -/
theorem Ranged.visits {s : State} {st : List StkEntry} (r : Ranged { s with stk := [] })
    (hl : st.length ≤ Config.nodeCap) (hv : ∀ e ∈ st, ∃ x, e = .visit x ∧ x < Config.nodeCap) :
    Ranged { s with stk := st } :=
  { r with
    stk_le := hl
    stk_lt := fun e he => by obtain ⟨x, rfl, hx⟩ := hv e he; exact hx
    stk_below := fun x d st' h => by
      obtain ⟨y, hy, -⟩ := hv _ (h.subset (List.mem_cons_self ..)); cases hy }

theorem Moves.noStk {s t : State} (h : Moves s t) : Moves s { t with stk := [] } :=
  ⟨h.phase, h.err, h.result, h.script, h.src, h.ret, h.sink, h.draws, fun r => (h.ranged r).noStk⟩

/-- TC.SERIALIZE's loop: the stack holds nodes to visit, one more than nodes were visited at most. -/
theorem serLoop_keeps (s0 : State) (fuel : Nat) (s : State) (hm : Moves s0 { s with stk := [] })
    (hl : Ranged s0 → s.stk.length + fuel ≤ Config.nodeCap + 1)
    (hv : Ranged s0 → ∀ e ∈ s.stk, ∃ x, e = .visit x ∧ x < Config.nodeCap) : (serLoop fuel s).Keeps s0 := by
  induction fuel generalizing s with
  | zero =>
    rw [serLoop]
    split
    · rename_i h; cases s; simp only at h; subst h; exact hm
    · trivial
  | succ fuel ih =>
    rw [serLoop]
    split
    · rename_i h; cases s; simp only at h; subst h; exact hm
    · rename_i x st hs
      rw [hs, List.length_cons] at hl
      have start : Moves s0 { s with stk := st } :=
        ⟨hm.phase, hm.err, hm.result, hm.script, hm.src, hm.ret, hm.sink, hm.draws, fun r =>
          Ranged.visits (hm.ranged r) (by have := hl r; omega) fun e he => hv r e (by rw [hs]; exact List.mem_cons_of_mem _ he)⟩
      have stk_eq : ∀ {bits : List Bool} {u v : State}, writeBits bits u = .ok () v → v.stk = u.stk := by
        intro bits u v h
        have hw := writeBits_only bits u
        rw [h] at hw
        exact hw .stk (by simp)
      split
      · refine ((writeBits_keeps [true] _).of_moves start).bindFrom fun _ t ht mt => ?_
        refine ((writeByte_keeps _ t).of_moves mt).bindFrom fun _ u hu mu => ?_
        have hus : u.stk = st := (stk_eq hu).trans (stk_eq ht)
        exact ih u mu.noStk (fun r => by have := hl r; rw [hus]; omega) fun r e he => hv r e (by
          rw [hus] at he; rw [hs]; exact List.mem_cons_of_mem _ he)
      · rename_i w l r hg
        refine ((writeBits_keeps [false] _).of_moves start).bindFrom fun _ t ht mt => ?_
        have hts : t.stk = st := stk_eq ht
        refine ih _ mt.noStk (fun r => by have := hl r; simp only [hts, List.length_cons]; omega) fun rg e he => ?_
        have hmem := List.mem_of_getElem? hg
        have hch := (hm.ranged rg).child_lt w _ _ hmem
        simp only [hts, List.mem_cons] at he
        rcases he with rfl | rfl | he
        · exact ⟨l, rfl, hch l (.inl rfl)⟩
        · exact ⟨r, rfl, hch r (.inr rfl)⟩
        · exact hv rg e (by rw [hs]; exact List.mem_cons_of_mem _ he)
      all_goals trivial
    all_goals trivial

theorem serialize_keeps (s : State) : (serialize s).Keeps s := by
  unfold serialize
  split
  · trivial
  · rename_i x hx
    exact serLoop_keeps s _ _ (Moves.refl s).noStk
      (fun r => by have := r.node_le; simp only [List.length_singleton]; omega) fun r e he => by
        simp only [List.mem_singleton] at he
        exact ⟨x, he, r.root_lt x hx⟩

/-- What attaching the newest node, still to be read, leaves: the stack has no more entries than nodes were there
before it (43_treecodec.md R188). -/
theorem attach_fresh {s u : State} (h : attach s.node.length { s with node := s.node ++ [.fresh] } = .ok () u)
    (hne : s.node.length ≠ Config.nodeCap) :
    Moves s u ∧ u.node.length = s.node.length + 1 ∧ (Ranged s → u.stk.length ≤ s.node.length) := by
  unfold attach at h
  have hlt : Ranged s → s.node.length < Config.nodeCap := fun r => Nat.lt_of_le_of_ne r.node_le hne
  have hfresh : Ranged s → Ranged { s with node := s.node ++ [.fresh] } := fun r =>
    r.addNode .fresh s.heap (hlt r) (fun _ h => by cases h) (fun _ _ _ h => by cases h) r.heap_le r.entry_lt
  have old : ∀ {p w : Nat} {l r : Option Nat}, (s.node ++ [Node.fresh])[p]? = some (.internal w l r) →
      p < s.node.length ∧ Node.internal w l r ∈ s.node := by
    intro p w l r hp
    have hl : p < s.node.length := by
      by_contra hn
      rcases Nat.lt_or_ge s.node.length p with h | h
      · rw [List.getElem?_eq_none (by simp; omega)] at hp; cases hp
      · obtain rfl : p = s.node.length := by omega
        simp at hp
    rw [List.getElem?_append_left hl] at hp
    exact ⟨hl, List.mem_of_getElem? hp⟩
  have settle : ∀ (p w : Nat) (l r l' r' : Option Nat) (stk : List StkEntry),
      Node.internal w l r ∈ s.node → (∀ x, l' = some x ∨ r' = some x → x = s.node.length ∨ l = some x ∨ r = some x) →
      (Ranged s → stk.length ≤ Config.nodeCap ∧ (∀ e ∈ stk, e.index < Config.nodeCap) ∧
        ∀ x d st, .build x d :: st <:+ stk → st.length ≤ x) →
      Moves s { s with node := (s.node ++ [Node.fresh]).set p (.internal w l' r'), stk := stk } := by
    intro p w l r l' r' stk hmem hch hstk
    refine Moves.mk' rfl rfl rfl rfl rfl rfl rfl rfl fun rg => ?_
    have f := hfresh rg
    obtain ⟨s1, s2, s3⟩ := hstk rg
    exact { f with
      node_le := by have := f.node_le; simpa using this
      weight_lt := fun d hd v hv => by
        rcases List.mem_or_eq_of_mem_set hd with hd | rfl
        · exact f.weight_lt d hd v hv
        · exact rg.weight_lt _ hmem v hv
      child_lt := fun v a b hd x hx => by
        rcases List.mem_or_eq_of_mem_set hd with hd | hd
        · exact f.child_lt v a b hd x hx
        · cases hd
          rcases hch x hx with rfl | hx
          · exact hlt rg
          · exact rg.child_lt _ _ _ hmem x hx
      stk_le := s1
      stk_lt := s2
      stk_below := s3 }
  split at h
  · rename_i hs
    cases h
    exact ⟨Moves.mk' rfl rfl rfl rfl rfl rfl rfl rfl hfresh, by simp, fun _ => by simp only at hs; simp [hs]⟩
  · rename_i p leftDone st hs
    simp only at hs h
    split at h
    · rename_i w l r hp
      obtain ⟨hpl, hmem⟩ := old hp
      have below : Ranged s → st.length ≤ p := fun rg => rg.stk_below p leftDone st (by rw [hs])
      have tail : ∀ {x d st'}, StkEntry.build x d :: st' <:+ st → StkEntry.build x d :: st' <:+ s.stk := fun h =>
        h.trans (by rw [hs]; exact List.suffix_cons ..)
      split at h
      · cases h
        refine ⟨settle p w l r l (some s.node.length) st hmem (by grind) fun rg => ⟨?_, ?_, ?_⟩, by simp, fun rg => ?_⟩
        · have := below rg; have := hlt rg; omega
        · exact fun e he => rg.stk_lt e (by rw [hs]; exact List.mem_cons_of_mem _ he)
        · exact fun x d st' h => rg.stk_below x d st' (tail h)
        · show st.length ≤ _; have := below rg; omega
      · cases h
        refine ⟨settle p w l r (some s.node.length) r _ hmem (by grind) fun rg => ⟨?_, ?_, ?_⟩, by simp, fun rg => ?_⟩
        · have := below rg; have := hlt rg; simp only [List.length_cons]; omega
        · intro e he
          rcases List.mem_cons.mp he with rfl | he
          · exact rg.stk_lt (.build p leftDone) (by rw [hs]; exact List.mem_cons_self ..)
          · exact rg.stk_lt e (by rw [hs]; exact List.mem_cons_of_mem _ he)
        · intro x d st' h
          rcases List.suffix_cons_iff.mp h with h | h
          · cases h; exact below rg
          · exact rg.stk_below x d st' (tail h)
        · have := below rg; simp only [List.length_cons]; omega
    all_goals cases h
  all_goals cases h

theorem attach_not_raise (i : Nat) (s : State) (e : Err) (t : State) : attach i s ≠ .raise e t := by
  unfold attach; repeat' split
  all_goals simp

/-- The node store with the node just read in its place. -/
theorem Ranged.setNode {s : State} (r : Ranged s) (i : Nat) (d : Node) (hw : ∀ w, d.weight? = some w → w < 2 ^ Config.cntW)
    (hc : ∀ w a b, d = .internal w a b → ∀ x, a = some x ∨ b = some x → x < Config.nodeCap) :
    Ranged { s with node := s.node.set i d } :=
  { r with
    node_le := by simpa using r.node_le
    weight_lt := fun e he w hw' => by
      rcases List.mem_or_eq_of_mem_set he with he | rfl
      · exact r.weight_lt e he w hw'
      · exact hw w hw'
    child_lt := fun w a b he x hx => by
      rcases List.mem_or_eq_of_mem_set he with he | he
      · exact r.child_lt w a b he x hx
      · exact hc w a b he.symm x hx }

theorem readNode_keeps (s : State) : (readNode s).Keeps s := by
  refine (popBit_keeps s).bind fun b t => ?_
  split
  · exact Moves.refl t
  · rename_i hne
    generalize ha : attach t.node.length { t with node := t.node ++ [.fresh] } = x
    cases x with
    | raise e u => exact (attach_not_raise _ _ e u ha).elim
    | fault f => trivial
    | refused r => trivial
    | ok a u =>
      obtain ⟨hm, hl, hst⟩ := attach_fresh ha hne
      refine Res.Keeps.of_moves (s' := t) ?_ (Moves.refl t)
      have hlt : Ranged t → t.node.length < Config.nodeCap := fun r => Nat.lt_of_le_of_ne r.node_le hne
      simp only [Res.bind_ok]
      split
      · exact (Res.Keeps.of_moves (popByte_keeps u) hm).bind fun v w => Moves.mk' rfl rfl rfl rfl rfl rfl rfl rfl fun r =>
          r.setNode _ _ (fun w hw => by cases hw; exact Nat.two_pow_pos _) fun _ _ _ h => by cases h
      · refine ⟨hm.phase, hm.err, hm.result, hm.script, hm.src, hm.ret, hm.sink, hm.draws, fun r => ?_⟩
        have ru := hm.ranged r
        have h1 := hst r
        have h2 := hlt r
        exact { ru.setNode t.node.length (.internal 0 none none) (fun w hw => by cases hw; exact Nat.two_pow_pos _)
            (fun _ _ _ h x hx => by cases h; simp at hx) with
          stk_le := by simp only [List.length_cons]; omega
          stk_lt := fun e he => by
            rcases List.mem_cons.mp he with rfl | he
            · exact h2
            · exact ru.stk_lt e he
          stk_below := fun x d st h => by
            rcases List.suffix_cons_iff.mp h with h | h
            · cases h; exact h1
            · exact ru.stk_below x d st h }

theorem closeTree_moves (s : State) : Moves s (closeTree s) := by
  unfold closeTree
  split
  · exact Moves.mk' rfl rfl rfl rfl rfl rfl rfl rfl fun r => { r with root_lt := fun x hx => by cases hx; decide }
  · exact Moves.refl s

theorem desLoop_keeps (fuel : Nat) (s : State) : (desLoop fuel s).Keeps s := by
  induction fuel generalizing s with
  | zero => trivial
  | succ fuel ih =>
    refine (readNode_keeps s).bind fun _ t => ?_
    split
    · exact closeTree_moves t
    · exact ih t

theorem deserialize_keeps (s : State) : (deserialize s).Keeps s :=
  (desLoop_keeps _ _).of_moves (Moves.mk' rfl rfl rfl rfl rfl rfl rfl rfl fun r => { r with
    node_le := Nat.zero_le _
    weight_lt := fun _ h => by simp at h
    child_lt := fun _ _ _ h => by simp at h
    stk_le := Nat.zero_le _
    stk_lt := fun _ h => by simp at h
    stk_below := fun _ _ _ h => by simp at h })

/-- CT.DERIVE's loop where it ends: each code is at most as long as the pops that were left allow, two to a bit and one
for the leaf (00_scope.md R13). -/
theorem ctLoop_ok {n fuel : Nat} {s t : State} (h : ctLoop fuel s = .ok () t)
    (hs : ∀ x p, .path x p ∈ s.stk → 2 * p.length + 1 + fuel ≤ n + s.stk.length)
    (hc : ∀ p, some p ∈ s.code → 2 * p.length + 1 + fuel ≤ n + s.stk.length) :
    ∃ code, t = { s with stk := [], code := code } ∧ code.length = s.code.length ∧
      ∀ p, some p ∈ code → 2 * p.length + 1 ≤ n := by
  induction fuel generalizing s with
  | zero =>
    rw [ctLoop] at h
    split at h
    · rename_i hk
      injection h with _ h
      subst h
      refine ⟨s.code, by cases s; simp only at hk; subst hk; rfl, rfl, fun p hp => ?_⟩
      have := hc p hp; rw [hk] at this; simpa using this
    · cases h
  | succ fuel ih =>
    rw [ctLoop] at h
    split at h
    · rename_i hk
      injection h with _ h
      subst h
      refine ⟨s.code, by cases s; simp only at hk; subst hk; rfl, rfl, fun p hp => ?_⟩
      have := hc p hp; rw [hk] at this; simp only [List.length_nil] at this; omega
    · rename_i x p st hk
      rw [hk] at hs hc
      simp only [List.length_cons] at hs hc
      have hp := hs x p (List.mem_cons_self ..)
      split at h
      · rename_i v w hg
        obtain ⟨code, rfl, hl, hb⟩ := ih h
          (fun y q hy => by have := hs y q (List.mem_cons_of_mem _ hy); simp only; omega)
          (fun q hq => by
            rcases List.mem_or_eq_of_mem_set hq with hq | hq
            · have := hc q hq; simp only; omega
            · cases hq; simp only; omega)
        exact ⟨code, rfl, by rw [hl]; simp, hb⟩
      · rename_i w l r hg
        obtain ⟨code, rfl, hl, hb⟩ := ih h
          (fun y q hy => by
            simp only [List.mem_cons, StkEntry.path.injEq] at hy
            simp only [List.length_cons]
            rcases hy with ⟨rfl, rfl⟩ | ⟨rfl, rfl⟩ | hy
            · simp only [List.length_append, List.length_singleton]; omega
            · simp only [List.length_append, List.length_singleton]; omega
            · have := hs y q (List.mem_cons_of_mem _ hy); omega)
          (fun q hq => by have := hc q hq; simp only [List.length_cons]; omega)
        exact ⟨code, rfl, hl, hb⟩
      all_goals cases h
    all_goals cases h

theorem ctLoop_not_raise (fuel : Nat) (s : State) (e : Err) (t : State) : ctLoop fuel s ≠ .raise e t := by
  induction fuel generalizing s with
  | zero => rw [ctLoop]; split <;> simp
  | succ fuel ih =>
    rw [ctLoop]
    repeat' split
    all_goals first
      | exact ih _
      | simp

theorem derive_keeps (s : State) : (derive s).Keeps s := by
  unfold derive
  split
  · trivial
  · refine .of_ok (fun _ t h => ?_) fun e t => ctLoop_not_raise _ _ e t
    obtain ⟨code, rfl, hl, hb⟩ := ctLoop_ok (n := s.node.length) h (by simp [Nat.add_comm]) (by simp)
    refine Moves.mk' rfl rfl rfl rfl rfl rfl rfl rfl fun r => { r.noStk with
      code_len := .inr (by rw [hl]; simp)
      code_le := fun p hp => ?_ }
    have := hb p hp; have := r.node_le
    simp only [Config.codeLenMax, Config.nodeCap] at *; omega

theorem writeLength_keeps (s : State) : (writeLength s).Keeps s :=
  (writeByte_keeps _ s).bind fun _ s1 => (writeByte_keeps _ s1).bind fun _ s2 =>
    (writeByte_keeps _ s2).bind fun _ s3 => writeByte_keeps _ s3

theorem codeSymbol_keeps (s : State) : (codeSymbol s).Keeps s := by
  refine (srcRead_keeps 1 s).bind fun d t => ?_
  repeat' split
  all_goals first
    | trivial
    | exact (writeBits_keeps _ t).bind fun _ u => Moves.mk' rfl rfl rfl rfl rfl rfl rfl rfl fun r => { r with }

theorem readLength_keeps (s : State) : (readLength s).Keeps s :=
  (popByte_keeps s).bind fun _ s1 => (popByte_keeps s1).bind fun _ s2 => (popByte_keeps s2).bind fun _ s3 =>
    (popByte_keeps s3).bind fun _ _ => Moves.mk' rfl rfl rfl rfl rfl rfl rfl rfl fun r => { r with }

theorem popBit_node {s t : State} {b : Bool} (h : popBit s = .ok b t) : t.node = s.node := by
  have hw := popBit_only s
  rw [h] at hw
  exact hw .node (by simp)

theorem descend_keeps (fuel : Nat) (s : State) : (descend fuel s).Keeps s := by
  induction fuel generalizing s with
  | zero => trivial
  | succ fuel ih =>
    rw [descend]
    split
    · trivial
    · split
      · exact Moves.refl s
      · rename_i w l r hg
        refine (popBit_keeps s).bind' fun b t ht => ?_
        split
        · rename_i y hy
          refine Res.Keeps.bind ?_ fun _ u => Moves.refl u
          refine (ih _).of_moves (Moves.mk' rfl rfl rfl rfl rfl rfl rfl rfl fun rg => { rg with
            cur_lt := fun z hz => ?_ })
          obtain rfl : y = z := Option.some.inj hz
          refine rg.child_lt w l r (by rw [popBit_node ht]; exact List.mem_of_getElem? hg) y ?_
          cases b
          · exact .inl hy
          · exact .inr hy
        · trivial
      all_goals trivial

theorem walk_keeps (s : State) : (walk s).Keeps s := by
  unfold walk
  split
  · trivial
  · rename_i x hx
    refine Res.Keeps.bind ?_ fun pv t => Res.Keeps.bind (sinkWrite_keeps [pv.2] t) fun _ u => ?_
    · exact (descend_keeps _ _).of_moves (Moves.mk' rfl rfl rfl rfl rfl rfl rfl rfl fun r => { r with
        cur_lt := fun y hy => r.root_lt y (hx.trans hy) })
    · exact Moves.mk' rfl rfl rfl rfl rfl rfl rfl rfl fun r => { r with }

theorem readLenToken_keeps (l : BitVec 32) (s : State) : (readLenToken l s).Keeps s :=
  (readLength_keeps s).bind fun _ t => by split; exacts [Moves.refl t, trivial]

theorem readNodeToken_keeps (tok : Option Byte) (s : State) : (readNodeToken tok s).Keeps s := by
  unfold readNodeToken
  split
  · trivial
  · exact (readNode_keeps s).bind fun _ t => by split; exacts [closeTree_moves t, trivial]

theorem readCodeToken_keeps (p : List Bool) (s : State) : (readCodeToken p s).Keeps s :=
  (walk_keeps s).bind fun _ t => by split; exacts [Moves.refl t, trivial]

end Sys2Proof.Machine
end

