-- ==== Sys2Proof/Laws/Steps.lean ====
section
/-! SUPPORT. What a step can do, said once: the cases of exec and of the scenario line, the ranges every step keeps,
and the sequencer's step. -/

namespace Sys2Proof.Machine

theorem Res.Keeps.outcome {α : Type} {x : Res α} {s t : State} (h : x.Keeps s) (e : x.outcome = .next t) :
    Moves s t ∨ ∃ er u, Moves s u ∧ t = abort er u := by
  cases x with
  | ok a u => left; injection e with e; exact e ▸ h
  | raise er u => right; injection e with e; exact ⟨er, u, h, e.symm⟩
  | fault f => cases e
  | refused r => cases e

/-- A result that is a node is an index of NODE. -/
def RetLt (r : Ret) : Prop := ∀ x, r = .node x → x < Config.nodeCap

/-- How exec can answer a next state: a command accepted, an operation done with its result kept, or an abort. -/
def ExecNext (i : Instr) (s t : State) : Prop :=
  (busy s = false ∧ i = .compress ∧ s.src.length < 2 ^ Config.lenW ∧ t = commandStart .cFreq s) ∨
  (busy s = false ∧ i = .decompress ∧ t = commandStart .dLen s) ∨
  (∃ u r, Moves s u ∧ t = { u with ret := r } ∧ (Ranged s → RetLt s.ret → RetLt r)) ∨
  ∃ er u, Moves s u ∧ t = abort er u

theorem ExecNext.of_outcome {α : Type} {i : Instr} {x : Res α} {s t : State} (h : x.Keeps s)
    (e : x.outcome = .next t) : ExecNext i s t := by
  rcases h.outcome e with h | h
  · exact .inr (.inr (.inl ⟨t, t.ret, h, rfl, fun _ hr => h.ret ▸ hr⟩))
  · exact .inr (.inr (.inr h))

theorem ExecNext.of_outcomeRet {α : Type} {i : Instr} {x : Res α} {f : α → Ret} {s t : State} (h : x.Keeps s)
    (e : x.outcomeRet f = .next t) (hr : ∀ a u, x = .ok a u → Ranged s → RetLt (f a)) : ExecNext i s t := by
  cases x with
  | ok a u => injection e with e; exact .inr (.inr (.inl ⟨u, f a, h, e.symm, fun r _ => hr a u rfl r⟩))
  | raise er u => injection e with e; exact .inr (.inr (.inr ⟨er, u, h, e.symm⟩))
  | fault f => cases e
  | refused r => cases e

theorem ExecNext.of_same {i : Instr} {s t : State} (e : (.next s : Host.Outcome State Fault Refusal) = .next t) :
    ExecNext i s t := by
  injection e with e
  exact .inr (.inr (.inl ⟨s, s.ret, .refl s, e.symm, fun _ h => h⟩))

theorem exec_next {i : Instr} {s t : State} (e : exec i s = .next t) : ExecNext i s t := by
  cases i with
  | nop => exact .of_same e
  | reservedCmd3 => exact .of_same e
  | compress =>
    simp only [exec, execCompress] at e
    split at e
    · exact .of_same e
    · rename_i hb
      split at e
      · injection e with e
        exact .inl ⟨by simpa using hb, rfl, by assumption, e.symm⟩
      · cases e
  | decompress =>
    simp only [exec, execDecompress] at e
    split at e
    · exact .of_same e
    · rename_i hb
      injection e with e
      exact .inr (.inl ⟨by simpa using hb, rfl, e.symm⟩)
  | accClear a => exact .of_outcome (x := .ok () (accClear a s)) (accClear_moves a s) e
  | accIsFull a => injection e with e; exact .inr (.inr (.inl ⟨s, _, .refl s, e.symm, fun _ _ _ h => by cases h⟩))
  | accPushBit a b => exact .of_outcome (accPushBit_keeps a b s) e
  | accBitAt a n => exact .of_outcomeRet (accBitAt_keeps a n s) e fun _ _ _ _ _ h => by cases h
  | wrFlush => exact .of_outcome (flush_keeps s) e
  | wrWriteBits bits => exact .of_outcome (writeBits_keeps bits s) e
  | wrWriteByte v => exact .of_outcome (writeByte_keeps v s) e
  | wrFinish => exact .of_outcomeRet (finish_keeps s) e fun _ _ _ _ _ h => by cases h
  | rdRefill => exact .of_outcome (refill_keeps s) e
  | rdPopBit => exact .of_outcomeRet (popBit_keeps s) e fun _ _ _ _ _ h => by cases h
  | rdPopByte => exact .of_outcomeRet (popByte_keeps s) e fun _ _ _ _ _ h => by cases h
  | freqScan => exact .of_outcome (scan_keeps s) e
  | heapInsert x => exact .of_outcome (heapInsert_keeps x s) e
  | heapExtractMin =>
    refine .of_outcomeRet (heapExtractMin_keeps s) e fun x u h r y hy => ?_
    obtain ⟨-, -, -, hx, -⟩ := heapExtractMin_ok h
    cases hy
    exact r.entry_lt x hx
  | tbLeaves => exact .of_outcome (leaves_keeps s) e
  | tbMerge => exact .of_outcome (merge_keeps s) e
  | tbBuild => exact .of_outcome (build_keeps s) e
  | tcSerialize => exact .of_outcome (serialize_keeps s) e
  | tcDeserialize => exact .of_outcome (deserialize_keeps s) e
  | ctDerive => exact .of_outcome (derive_keeps s) e
  | encLen => exact .of_outcome (writeLength_keeps s) e
  | encBody => exact .of_outcome (codeSymbol_keeps s) e
  | decLen => exact .of_outcome (readLength_keeps s) e
  | decWalk => exact .of_outcome (walk_keeps s) e
  | len l =>
    simp only [exec, execLen] at e
    split at e
    · split at e
      · exact .of_outcome (readLenToken_keeps l s) e
      · cases e
    · exact .of_outcome (writeBits_keeps _ s) e
  | internal =>
    simp only [exec, execInternal] at e
    split at e
    · split at e
      · exact .of_outcome (readNodeToken_keeps _ s) e
      · cases e
    · exact .of_outcome (writeBits_keeps _ s) e
  | leaf v =>
    simp only [exec, execLeaf] at e
    split at e
    · split at e
      · exact .of_outcome (readNodeToken_keeps _ s) e
      · cases e
    · exact .of_outcome (writeBits_keeps _ s) e
  | code p =>
    simp only [exec, execCode] at e
    split at e
    · split at e
      · exact .of_outcome (readCodeToken_keeps p s) e
      · cases e
    · exact .of_outcome (writeBits_keeps _ s) e
  | pad z =>
    simp only [exec, execPad] at e
    split at e
    · exact .of_same e
    · exact .of_outcome (accPushBits_keeps _ _ s) e

/-! ### The scenario line -/

/-- What a step does, by its scenario line: `s0` is the state with the line taken. -/
theorem step_next {s t : State} (e : step s = .next t) :
    ∃ s0, (s0 = s ∨ ∃ rest, s0 = { s with script := rest }) ∧
      ((∃ i, exec i s0 = .next t) ∨
       (∃ i u, nextOp s0 = some i ∧ exec i s0 = .next u ∧ t = advance u) ∨
       (nextOp s0 = none ∧ t = advance s0) ∨ t = s0 ∨ (∃ v, t = { s0 with ret := .word v }) ∨
       (∃ src sink, busy s0 = false ∧ t = { s0 with src := src, sink := sink }) ∨ t = hardReset s0) := by
  have quiet : ∀ s0, (match fetchQuiet s0 with
      | .run i t => exec i t
      | .sequence i t => sequenced (exec i t)
      | .silent t => .next t
      | .stop r => .refused r) = Host.Outcome.next t →
      (∃ i u, nextOp s0 = some i ∧ exec i s0 = .next u ∧ t = advance u) ∨ (nextOp s0 = none ∧ t = advance s0) := by
    intro s0 h
    unfold fetchQuiet at h
    cases hn : nextOp s0 with
    | none =>
      simp only [hn] at h
      injection h with h
      exact .inr ⟨rfl, h.symm⟩
    | some i =>
      simp only [hn] at h
      cases hx : exec i s0 with
      | next u =>
        simp only [hx, sequenced] at h
        injection h with h
        exact .inl ⟨i, u, rfl, hx, h.symm⟩
      | fault f => simp [hx, sequenced] at h
      | refused r => simp [hx, sequenced] at h
  have word : ∀ w s0, (match fetchWord w s0 with
      | .run i t => exec i t
      | .sequence i t => sequenced (exec i t)
      | .silent t => .next t
      | .stop r => .refused r) = Host.Outcome.next t → ∃ i, exec i s0 = .next t := by
    intro w s0 h
    unfold fetchWord at h
    cases hd : decode w with
    | ok i => simp only [hd] at h; exact ⟨i, h⟩
    | error r => simp [hd] at h
  unfold step fetch at e
  cases hs : s.script with
  | nil =>
    simp only [hs] at e
    refine ⟨s, .inl rfl, ?_⟩
    rcases quiet s e with h | h
    · exact .inr (.inl h)
    · exact .inr (.inr (.inl h))
  | cons line rest =>
    simp only [hs] at e
    refine ⟨{ s with script := rest }, .inr ⟨rest, rfl⟩, ?_⟩
    cases line with
    | quiet =>
      rcases quiet _ e with h | h
      · exact .inr (.inl h)
      · exact .inr (.inr (.inl h))
    | write r v =>
      cases r with
      | cmd => exact .inl (word _ _ e)
      | status => injection e with e; exact .inr (.inr (.inr (.inl e.symm)))
      | result => injection e with e; exact .inr (.inr (.inr (.inl e.symm)))
    | read r => injection e with e; exact .inr (.inr (.inr (.inr (.inl ⟨_, e.symm⟩))))
    | bind src sink =>
      simp only [fetchBind] at e
      cases hb : busy { s with script := rest } with
      | true => simp [hb] at e
      | false =>
        simp only [hb, Bool.false_eq_true, if_false] at e
        injection e with e
        exact .inr (.inr (.inr (.inr (.inr (.inl ⟨src, sink, rfl, e.symm⟩)))))
    | reset => injection e with e; exact .inr (.inr (.inr (.inr (.inr (.inr e.symm)))))
    | issue w => exact .inl (word _ _ e)

/-! ### The invariant -/

theorem Inv.of_ranged {s : State} (h : Ranged s) (h1 : s.err.isSome ↔ s.phase = .error)
    (h2 : statusState s ≤ 1 → s.result = 0) (h3 : RetLt s.ret) : Inv s :=
  { h with err_iff := h1, result_zero := h2, ret_lt := h3 }

theorem Inv.moves {s t : State} (h : Inv s) (hm : Moves s t) : Inv t :=
  .of_ranged (hm.ranged h.toRanged) (by rw [hm.err, hm.phase]; exact h.err_iff) (by
    have : statusState t = statusState s := by simp only [statusState, hm.phase]
    rw [this, hm.result]; exact h.result_zero) (by rw [hm.ret]; exact h.ret_lt)

theorem Inv.abort {s : State} (h : Inv s) (e : Err) : Inv (abort e s) :=
  .of_ranged { h with } (by simp) (by simp [statusState]) h.ret_lt

/-- Nothing is held but what FREQ and CODE hold: the ranges are met. -/
theorem Ranged.empty {s : State} (h : s = { hardReset s with phase := s.phase, freq := s.freq, code := s.code })
    (h1 : s.freq.length = 0 ∨ s.freq.length = Config.nsym) (h2 : s.code.length = 0 ∨ s.code.length = Config.nsym)
    (h3 : ∀ c ∈ s.freq, c = 0) (h4 : ∀ p ∈ s.code, p = none) : Ranged s := by
  have h5 : s.freq.sum = 0 := List.sum_eq_zero h3
  rw [h] at h1 h2 h3 h4 h5 ⊢
  exact {
    wacc_le := Nat.zero_le _, racc_le := Nat.zero_le _, cursor_le := Nat.zero_le _, node_le := Nat.zero_le _
    heap_le := Nat.zero_le _, freq_len := h1, code_len := h2, total_lt := Nat.two_pow_pos _, n_le := Nat.zero_le _
    freq_sum := h5, freq_lt := fun c hc => by rw [h3 c hc]; exact Nat.two_pow_pos _
    weight_lt := fun _ h => by simp at h
    child_lt := fun _ _ _ h => by simp at h
    entry_lt := fun _ h => by simp at h
    root_lt := fun _ h => by cases h
    cur_lt := fun _ h => by cases h
    stk_le := Nat.zero_le _
    stk_lt := fun _ h => by simp at h
    stk_below := fun _ _ _ h => by simp at h
    code_le := fun p hp => by cases h4 _ hp }

theorem Inv.hardReset (s : State) : Inv (hardReset s) :=
  .of_ranged (.empty rfl (.inl rfl) (.inl rfl) (fun _ h => by simp at h) fun _ h => by simp at h)
    (by simp [Machine.hardReset, State.reset]) (fun _ => rfl) fun _ h => by cases h

theorem Inv.commandStart (s : State) (p : Phase) (hp : p ≠ .error) : Inv (commandStart p s) :=
  .of_ranged (.empty rfl (.inr (by simp)) (.inr (by simp)) (fun _ h => (List.mem_replicate.mp h).2)
    fun _ h => (List.mem_replicate.mp h).2) (by simp [hp]) (fun _ => rfl) fun _ h => by cases h

theorem Inv.exec {i : Instr} {s t : State} (h : Inv s) (e : exec i s = .next t) : Inv t := by
  rcases exec_next e with ⟨-, -, -, rfl⟩ | ⟨-, -, rfl⟩ | ⟨u, r, hm, rfl, hr⟩ | ⟨er, u, hm, rfl⟩
  · exact Inv.commandStart s _ (by decide)
  · exact Inv.commandStart s _ (by decide)
  · exact { h.moves hm with ret_lt := hr h.toRanged h.ret_lt }
  · exact (h.moves hm).abort er

/-- A busy state has no error and an empty `RESULT`. -/
theorem Inv.advance {s : State} (h : Inv s) : Inv (advance s) := by
  have he := h.err_iff
  have hr := h.result_zero
  have next : ∀ (t : State), Ranged t → t.err = s.err → t.result = s.result → s.phase ≠ .error →
      t.phase ≠ .error → statusState s = 1 → RetLt t.ret → Inv t := by
    intro t ht h1 h2 h3 h4 h5 h6
    exact .of_ranged ht (by rw [h1, he]; simp [h3, h4]) (fun _ => by rw [h2]; exact hr (by omega)) h6
  have done : s.phase ≠ .error → Inv (complete s) := by
    intro h3
    exact .of_ranged { h with } (by simp [he, h3]) (by simp [statusState]) h.ret_lt
  unfold Machine.advance
  cases hp : s.phase with
  | idle => exact h
  | cFreq => exact next _ { h with } rfl rfl (by simp [hp]) (by simp) (by simp [statusState, hp]) h.ret_lt
  | cLen => exact next _ { h with } rfl rfl (by simp [hp]) (by simp only; split <;> simp) (by simp [statusState, hp]) h.ret_lt
  | cLeaves => exact next _ { h with } rfl rfl (by simp [hp]) (by simp) (by simp [statusState, hp]) h.ret_lt
  | cMerge =>
    simp only
    split
    · rename_i x _ hx
      exact next _ { h with root_lt := fun y hy => by cases hy; exact h.ret_lt x hx } rfl rfl (by simp [hp]) (by simp)
        (by simp [statusState, hp]) h.ret_lt
    · exact h
  | cSer => exact next _ { h with } rfl rfl (by simp [hp]) (by simp) (by simp [statusState, hp]) h.ret_lt
  | cCodes =>
    simp only [startBody]
    split
    · exact (h.moves (answered_moves s)).abort _
    · exact next _ { h with } rfl rfl (by simp [hp]) (by simp) (by simp [statusState, hp]) h.ret_lt
  | cBody =>
    simp only
    split
    · exact next _ { h with } rfl rfl (by simp [hp]) (by simp) (by simp [statusState, hp]) h.ret_lt
    · exact h
  | cFin => exact done (by simp [hp])
  | dLen =>
    simp only
    split
    · exact done (by simp [hp])
    · exact next _ { h with } rfl rfl (by simp [hp]) (by simp) (by simp [statusState, hp]) h.ret_lt
  | dTree => exact next _ { h with } rfl rfl (by simp [hp]) (by simp) (by simp [statusState, hp]) h.ret_lt
  | dWalk =>
    simp only
    split
    · exact done (by simp [hp])
    · exact h
  | done => exact h
  | error => exact h

/-! ### The sequencer's step -/

theorem step_sequence {s : State} {i : Instr} (hs : s.script = []) (hn : nextOp s = some i) :
    step s = sequenced (exec i s) := by
  simp only [step, fetch, hs, fetchQuiet, hn]

theorem step_wait {s : State} (hs : s.script = []) (hn : nextOp s = none) : step s = .next (advance s) := by
  simp only [step, fetch, hs, fetchQuiet, hn]

theorem advance_abort (e : Err) (s : State) : advance (abort e s) = abort e s := rfl

/-! ### Runs -/

theorem run_next {M : Host.Core} {s t : M.State} (k : Nat) (h : M.step s = .next t) : M.run (k + 1) s = M.run k t := by
  simp only [Host.Core.run, h]

/-- A run of more than no steps that does not stop begins with a step. -/
theorem run_next_inv {M : Host.Core} {s u : M.State} {k : Nat} (h : M.run (k + 1) s = .next u) :
    ∃ t, M.step s = .next t ∧ M.run k t = .next u := by
  rw [Host.Core.run] at h
  cases hx : M.step s with
  | next t => rw [hx] at h; exact ⟨t, rfl, h⟩
  | fault f => rw [hx] at h; cases h
  | refused r => rw [hx] at h; cases h

theorem Reaches.refl (s : State) : Reaches s s := ⟨0, rfl⟩

theorem Reaches.head {s t u : State} (h : step s = .next t) (h' : Reaches t u) : Reaches s u := by
  obtain ⟨k, hk⟩ := h'
  exact ⟨k + 1, (run_next (M := Sys2Proof.core) k h).trans hk⟩

theorem Reaches.trans {s t u : State} (h : Reaches s t) (h' : Reaches t u) : Reaches s u := by
  obtain ⟨k, hk⟩ := h
  induction k generalizing s with
  | zero => injection hk with hk; exact hk ▸ h'
  | succ k ih =>
    obtain ⟨v, hv, hr⟩ := run_next_inv hk
    exact Reaches.head hv (ih hr)

/-! ### Runs in which the host does nothing -/

theorem busy_eq_false (s : State) : busy s = false ↔ s.phase = .idle ∨ s.phase = .done ∨ s.phase = .error := by
  cases h : s.phase <;> simp [busy, h, Phase.code]

theorem advance_script (s : State) : (advance s).script = s.script := by
  unfold advance
  split <;> try rfl
  · split <;> rfl
  · unfold startBody; split <;> rfl
  · split <;> rfl
  · split <;> rfl
  · split <;> rfl

theorem step_script {s t : State} (hs : s.script = []) (h : step s = .next t) : t.script = [] := by
  cases hn : nextOp s with
  | none =>
    rw [step_wait hs hn] at h
    cases h
    rw [advance_script, hs]
  | some i =>
    rw [step_sequence hs hn] at h
    cases he : exec i s with
    | next u =>
      rw [he] at h
      cases h
      rw [advance_script]
      rcases exec_next he with ⟨-, rfl, -, rfl⟩ | ⟨-, rfl, rfl⟩ | ⟨u, r, hm, rfl, -⟩ | ⟨er, u, hm, rfl⟩
      · exact hs
      · exact hs
      · exact hm.script.trans hs
      · exact hm.script.trans hs
    | fault f => rw [he] at h; cases h
    | refused r => rw [he] at h; cases h

/-- A run that has ended never stops: the core stays where it is (60_exceptions.md R249). -/
theorem safeRun_of_ended {s t : State} (hs : s.script = []) (h : Reaches s t)
    (hp : t.phase = .done ∨ t.phase = .error) : SafeRun s := by
  obtain ⟨k, hk⟩ := h
  induction k generalizing s with
  | zero =>
    injection hk with hk
    subst hk
    have hst : step s = .next s := by
      rcases hp with hp | hp <;> (rw [step_wait hs (by simp [nextOp, hp])]; simp [advance, hp])
    intro m
    refine ⟨s, ?_⟩
    induction m with
    | zero => rfl
    | succ m ih => rw [run_next (M := Sys2Proof.core) m hst]; exact ih
  | succ k ih =>
    obtain ⟨v, hv, hr⟩ := run_next_inv hk
    intro m
    cases m with
    | zero => exact ⟨s, rfl⟩
    | succ m =>
      obtain ⟨w, hw⟩ := ih (step_script hs hv) hr m
      exact ⟨w, by rw [run_next (M := Sys2Proof.core) m hv]; exact hw⟩

end Sys2Proof.Machine
end

