-- ==== Sys2Proof/Laws/Runs.lean ====
section
/-! SUPPORT. Whole commands: how a run of the sequencer is put together from its operations, and what COMPRESS and
DECOMPRESS do from their command-start values to their end (45_encoder_decoder.md). -/

namespace Sys2Proof.Machine

/-- The run from `s` gets to the end of its command: in `DONE` with `Q`, or in `ERROR` with `R`. -/
def Ends (s : State) (Q R : State → Prop) : Prop :=
  ∃ t, Reaches s t ∧ ((t.phase = .done ∧ t.err = none ∧ Q t) ∨ (t.phase = .error ∧ R t))

variable {Q R : State → Prop}

theorem Ends.head {s t : State} (h : step s = .next t) (h' : Ends t Q R) : Ends s Q R := by
  obtain ⟨u, hr, hu⟩ := h'
  exact ⟨u, .head h hr, hu⟩

theorem Ends.done {s : State} (hp : s.phase = .done) (he : s.err = none) (h : Q s) : Ends s Q R :=
  ⟨s, .refl s, .inl ⟨hp, he, h⟩⟩

theorem Ends.aborted {s : State} (hp : s.phase = .error) (h : R s) : Ends s Q R := ⟨s, .refl s, .inr ⟨hp, h⟩⟩

/-- The sequencer's step on an operation: its end is followed by the transition of its phase. -/
theorem Ends.of_meets {α : Type} {s : State} {i : Instr} {x : Res α} (hs : s.script = []) (hn : nextOp s = some i)
    (he : exec i s = x.outcome) (h : x.Meets (fun _ u => Ends (advance u) Q R) fun e u => R (abort e u)) :
    Ends s Q R := by
  have hstep := step_sequence hs hn
  cases x with
  | ok a u => exact .head (by rw [hstep, he]; rfl) h
  | raise e u => exact .head (by rw [hstep, he]; rfl) (.aborted rfl h)
  | fault f => exact h.elim
  | refused r => exact h.elim

theorem Ends.of_meets_ret {α : Type} {s : State} {i : Instr} {x : Res α} {f : α → Ret} (hs : s.script = [])
    (hn : nextOp s = some i) (he : exec i s = x.outcomeRet f)
    (h : x.Meets (fun a u => Ends (advance { u with ret := f a }) Q R) fun e u => R (abort e u)) : Ends s Q R := by
  have hstep := step_sequence hs hn
  cases x with
  | ok a u => exact .head (by rw [hstep, he]; rfl) h
  | raise e u => exact .head (by rw [hstep, he]; rfl) (.aborted rfl h)
  | fault f => exact h.elim
  | refused r => exact h.elim

/-! ### The writer over a whole command -/

theorem writeBits_append (a b : List Bool) (s : State) :
    writeBits (a ++ b) s = (writeBits a s).bind fun _ s => writeBits b s := by
  induction a generalizing s with
  | nil => rfl
  | cons x a ih =>
    simp only [List.cons_append, writeBits, Res.bind_assoc]
    congr 1
    funext _ t
    exact ih t

/-- What follows a write finds the length as it was. -/
theorem writeByte_bind (v : Byte) (s : State) (k k' : State → Res Unit) (h : ∀ t, t.l = s.l → k t = k' t) :
    ((writeByte v s).bind fun _ t => k t) = (writeBits (byteBits v) s).bind fun _ t => k' t := by
  have hw := writeBits_only (byteBits v) s
  rw [writeByte]
  cases hx : writeBits (byteBits v) s with
  | ok a t => rw [hx] at hw; exact h t (hw .l (by simp))
  | raise e t => rfl
  | fault f => rfl
  | refused r => rfl

/-- ENC.LEN writes the 32 bits of the length (45_encoder_decoder.md R207, 30_encoding.md R99). -/
theorem writeLength_eq (s : State) : writeLength s = writeBits (wordBits s.l) s := by
  rw [wordBits_eq_bytes, writeBits_append, writeLength]
  refine writeByte_bind _ s _ _ fun t ht => ?_
  rw [writeBits_append, ht]
  refine writeByte_bind _ t _ _ fun u hu => ?_
  rw [writeBits_append, hu, ht]
  refine writeByte_bind _ u _ _ fun w hw => ?_
  rw [hw, hu, ht, writeByte]

/-- The command has written `bits` since `s0`: what of them is not in SINK is in `WACC` (40_bitchannel.md R134). -/
structure Writing (s0 : State) (bits : List Bool) (s : State) : Prop where
  script : s.script = []
  err : s.err = none
  src : s.src = s0.src
  draws : s.draws <:+ s0.draws
  held : s.wacc.length < Config.accCap
  sink : bytesBits s.sink ++ s.wacc = bytesBits s0.sink ++ bits
  count : s.sink.length = s0.sink.length + s.wrTotal

theorem Writing.step {s0 s t : State} {bits b : List Bool} (h : Writing s0 bits s) (h1 : t.script = s.script)
    (h2 : t.err = s.err) (h3 : t.src = s.src) (h4 : t.draws <:+ s.draws)
    (h5 : t.wacc = (afterWriting b s).wacc) (h6 : t.sink = (afterWriting b s).sink)
    (h7 : t.wrTotal = (afterWriting b s).wrTotal) : Writing s0 (bits ++ b) t := by
  have hk : 64 * ((s.wacc ++ b).length / 64) ≤ (s.wacc ++ b).length := by omega
  refine ⟨h1.trans h.script, h2.trans h.err, h3.trans h.src, h4.trans h.draws, ?_, ?_, ?_⟩
  · rw [h5]; exact afterWriting_wacc_lt b s
  · rw [h5, h6]
    simp only [afterWriting, Config.accCap, bytesBits_append]
    rw [bytesBits_fullBytes (by rw [List.length_take, Nat.min_eq_left hk]; omega), List.append_assoc,
      List.take_append_drop, ← List.append_assoc, h.sink, List.append_assoc]
  · rw [h6, h7]
    simp only [afterWriting, Config.accCap, List.length_append, fullBytes_length, List.length_take] at *
    rw [h.count]
    omega

theorem Writing.same {s0 s t : State} {bits : List Bool} (h : Writing s0 bits s) (h1 : t.script = s.script)
    (h2 : t.err = s.err) (h3 : t.src = s.src) (h4 : t.draws <:+ s.draws) (h5 : t.wacc = s.wacc)
    (h6 : t.sink = s.sink) (h7 : t.wrTotal = s.wrTotal) : Writing s0 bits t := by
  have := h.step (b := []) (t := t) h1 h2 h3 h4 (by rw [afterWriting_nil s h.held]; exact h5)
    (by rw [afterWriting_nil s h.held]; exact h6) (by rw [afterWriting_nil s h.held]; exact h7)
  simpa using this

/-- What a failed transfer leaves: an abort with `IOError`, which only the host can cause. -/
def HostAbort (s0 t : State) : Prop := t.err = some .ioError ∧ ∃ r, HostDraw.fails r ∈ s0.draws

theorem Writing.hostAbort {s0 s u : State} {bits : List Bool} {e : Err} (h : Writing s0 bits s)
    (hf : HostFault s e u) : HostAbort s0 (abort e u) :=
  ⟨by rw [hf.1]; rfl, hf.2.imp fun _ hr => h.draws.subset hr⟩

/-- `C_FIN` (45_encoder_decoder.md R205). -/
theorem ends_fin {s0 s : State} {bits : List Bool} (h : Writing s0 bits s) (hp : s.phase = .cFin)
    (hQ : ∀ t, t.sink = s0.sink ++ packed bits → t.result = (packed bits).length → Q t) :
    Ends s Q (HostAbort s0) := by
  refine Ends.of_meets_ret (i := .wrFinish) (f := .count) h.script (by simp [nextOp, hp]) rfl ?_
  refine (finish_meets s h.held).mono (fun c u hu => ?_) fun e u hf => h.hostAbort hf
  obtain ⟨-, hc, hu⟩ := hu
  have hup : u.phase = .cFin := by rw [hu]; exact hp
  have hue : u.err = none := by rw [hu]; exact h.err
  have hlen : 8 * s.sink.length + s.wacc.length = 8 * s0.sink.length + bits.length := by
    have := congrArg List.length h.sink
    simpa [bytesBits_length] using this
  have hsink : u.sink = s0.sink ++ packed bits := by
    have hpad : padCount s.wacc.length = padCount bits.length := by unfold padCount; omega
    have h8 : ∀ a : List Byte, 8 ∣ (bytesBits a).length := fun a => by rw [bytesBits_length]; omega
    rw [hu]
    show s.sink ++ packed s.wacc = _
    have := congrArg (fun l => fullBytes (l ++ List.replicate (padCount bits.length) false)) h.sink
    simp only [List.append_assoc] at this
    rw [fullBytes_append _ (h8 _), fullBytes_append _ (h8 _), fullBytes_bytesBits, fullBytes_bytesBits] at this
    rw [packed, packed, hpad]
    exact this
  have hres : u.wrTotal = (packed bits).length := by
    have h1 := congrArg List.length hsink
    have h2 : u.sink.length = s0.sink.length + u.wrTotal := by
      rw [hu]
      simp only [List.length_append, packed_length]
      rw [h.count, hc]
      omega
    rw [h2, List.length_append] at h1
    omega
  have hadv : advance { u with ret := .count c } = complete { u with ret := .count c } := by
    simp only [advance, hup]
  rw [hadv]
  exact .done rfl hue (hQ _ hsink hres)

/-! ### The encoder's second pass -/

theorem advance_body {u : State} (hp : u.phase = .cBody) :
    advance u = if allDone u then { u with phase := .cFin } else u := by simp only [advance, hp]

/-- Everything ENC.BODY can do where a byte is left and it has a code (45_encoder_decoder.md R208). -/
theorem codeSymbol_meets (s : State) (v : Byte) (rest : List Byte) (p : List Bool) (hw : s.wacc.length < Config.accCap)
    (hr : s.src.drop s.srcPos = v :: rest) (hc : s.code[v.toNat]? = some (some p)) :
    (codeSymbol s).Meets
      (fun _ u => u.draws <:+ s.draws ∧
        u = { afterWriting p s with srcPos := s.srcPos + 1, outcnt := s.outcnt + 1, draws := u.draws })
      (HostFault s) := by
  refine (srcRead_meets 1 s).bind fun d t h => ?_
  obtain ⟨rfl, rfl⟩ := h
  simp only [srcBytes, hr, List.take_succ_cons, List.take_zero, List.length_cons, List.length_nil, Nat.zero_add,
    answered_code, hc]
  refine ((writeBits_meets p { answered s with srcPos := s.srcPos + 1, code := s.code } hw).mono
    (fun _ _ h => h) fun e u hf => HostFault.of_suffix hf (tail_suffix s)).bind fun _ u hu => ?_
  refine ⟨hu.1.trans (tail_suffix s), ?_⟩
  rw [hu.2]
  simp only [afterWriting, answered]

/-- `C_BODY` to the end: the codes of the symbols left, in order (30_encoding.md R104). -/
theorem ends_body {s0 u : State} {bits : List Bool} {tree : Tree} (rest : List Byte) (h : Writing s0 bits u)
    (hp : u.phase = .cBody) (hcode : ∀ v : Byte, u.code[v.toNat]? = some (tree.codeOf v))
    (hr : u.src.drop u.srcPos = rest) (hl : u.outcnt + rest.length = u.l.toNat)
    (hv : ∀ v ∈ rest, v ∈ tree.leaves)
    (hQ : ∀ t, t.sink = s0.sink ++ packed (bits ++ body tree rest) →
      t.result = (packed (bits ++ body tree rest)).length → Q t) :
    Ends (advance u) Q (HostAbort s0) := by
  induction rest generalizing u bits with
  | nil =>
    have hd : allDone u = true := by
      simp only [allDone, decide_eq_true_eq]; simp only [List.length_nil] at hl; omega
    rw [advance_body hp, if_pos hd]
    refine ends_fin (bits := bits) (h.same rfl rfl rfl List.suffix_rfl rfl rfl rfl) rfl ?_
    simpa [body] using hQ
  | cons v rest ih =>
    have hd : allDone u = false := by
      simp only [allDone, decide_eq_false_iff_not]; simp only [List.length_cons] at hl; omega
    obtain ⟨p, hpv⟩ := Tree.codeOf_isSome (hv v (List.mem_cons_self ..))
    have hcv := hcode v
    rw [hpv] at hcv
    rw [advance_body hp, hd, if_neg (by simp)]
    refine Ends.of_meets (i := .encBody) (x := codeSymbol u) h.script (by simp [nextOp, hp, hd]) rfl ?_
    refine (codeSymbol_meets u v rest p h.held hr hcv).mono (fun _ w hw => ?_) fun e w hf => h.hostAbort hf
    obtain ⟨hwd, hw⟩ := hw
    have hb : body tree (v :: rest) = p ++ body tree rest := by simp [body, hpv]
    have hw' : Writing s0 (bits ++ p) w :=
      h.step (b := p) (by rw [hw]; rfl) (by rw [hw]; rfl) (by rw [hw]; rfl) hwd (by rw [hw]) (by rw [hw]) (by rw [hw])
    have hws : w.src.drop w.srcPos = rest := by
      rw [hw]
      show u.src.drop (u.srcPos + 1) = rest
      rw [← List.drop_drop, hr]; rfl
    have hwl : w.outcnt + rest.length = w.l.toNat := by
      rw [hw]
      show u.outcnt + 1 + rest.length = u.l.toNat
      simp only [List.length_cons] at hl; omega
    refine ih hw' (by rw [hw]; exact hp) (by rw [hw]; exact hcode) hws hwl
      (fun w hw => hv w (List.mem_cons_of_mem _ hw)) fun t h1 h2 => hQ t ?_ ?_
    · rw [hb, ← List.append_assoc]; exact h1
    · rw [hb, ← List.append_assoc]; exact h2

/-! ### COMPRESS -/

/-- `C_CODES` to the end (45_encoder_decoder.md R218). -/
theorem ends_codes {s0 s : State} {bits : List Bool} {tree : Tree} {x : Nat} (h : Writing s0 bits s)
    (hp : s.phase = .cCodes) (hr : s.root = some x) (hx : Holds s.node x tree) (hn : tree.size ≤ s.node.length)
    (hd : tree.leaves.Nodup) (h0 : s.src ≠ []) (hl : s.l.toNat = s.src.length) (hv : ∀ v ∈ s.src, v ∈ tree.leaves)
    (hQ : ∀ t, t.sink = s0.sink ++ packed (bits ++ body tree s.src) →
      t.result = (packed (bits ++ body tree s.src)).length → Q t) :
    Ends s Q (HostAbort s0) := by
  refine Ends.of_meets (i := .ctDerive) (x := derive s) h.script (by simp [nextOp, hp]) rfl ?_
  rw [derive_eq s x tree hr hx hn]
  simp only [Res.meets_ok, advance, hp, startBody]
  split
  · rename_i r hf
    exact .aborted rfl ⟨rfl, (hostFails_draws (s := s) hf).imp fun _ hm => h.draws.subset hm⟩
  · have hpos := List.length_pos_iff.mpr h0
    have key : ∀ u : State, u.phase = .cBody → u.outcnt = 0 → u.srcPos = 0 → u.l = s.l → u.src = s.src →
        u.code = bindCodes (List.replicate Config.nsym none) (tree.codes []) → Writing s0 bits u →
        Ends u Q (HostAbort s0) := by
      intro u h1 h2 h3 h4 h5 h6 h7
      have hnot : allDone u = false := by
        simp only [allDone, decide_eq_false_iff_not, h2, h4]; omega
      have ha : advance u = u := by rw [advance_body h1, hnot, if_neg (by simp)]
      rw [← ha]
      exact ends_body (tree := tree) s.src h7 h1 (fun v => by rw [h6]; exact codeTable_get hd v) (by rw [h3, h5]; rfl)
        (by rw [h2, h4, hl]; omega) hv hQ
    exact key _ rfl rfl rfl rfl rfl rfl (h.same rfl rfl rfl (tail_suffix s) rfl rfl rfl)

/-- `C_SER` to the end. -/
theorem ends_ser {s0 s : State} {bits : List Bool} {tree : Tree} {x : Nat} (h : Writing s0 bits s)
    (hp : s.phase = .cSer) (hr : s.root = some x) (hx : Holds s.node x tree) (hn : tree.size ≤ s.node.length)
    (hd : tree.leaves.Nodup) (h0 : s.src ≠ []) (hl : s.l.toNat = s.src.length) (hv : ∀ v ∈ s.src, v ∈ tree.leaves)
    (hQ : ∀ t, t.sink = s0.sink ++ packed (bits ++ tree.bits ++ body tree s.src) →
      t.result = (packed (bits ++ tree.bits ++ body tree s.src)).length → Q t) :
    Ends s Q (HostAbort s0) := by
  refine Ends.of_meets (i := .tcSerialize) (x := serialize s) h.script (by simp [nextOp, hp]) rfl ?_
  refine (serialize_meets s x tree hr hx hn h.held).mono (fun _ u hu => ?_) fun e u hf => h.hostAbort hf
  obtain ⟨⟨hud, hu⟩, -⟩ := hu
  have hup : u.phase = .cSer := by rw [hu]; exact hp
  have hw : Writing s0 (bits ++ tree.bits) u :=
    h.step (by rw [hu]; rfl) (by rw [hu]; rfl) (by rw [hu]; rfl) hud (by rw [hu]) (by rw [hu]) (by rw [hu])
  simp only [advance, hup]
  have hsrc : u.src = s.src := by rw [hu]; rfl
  refine ends_codes (x := x) (hw.same (t := { u with phase := .cCodes }) rfl rfl rfl List.suffix_rfl rfl rfl rfl) rfl
    (by rw [hu]; exact hr) (by rw [hu]; exact hx) (by rw [hu]; exact hn) hd (by rw [hu]; exact h0)
    (by rw [hu]; exact hl) (by rw [hu]; exact hv) fun t h1 h2 => hQ t ?_ ?_
  · rw [h1]; simp only [hsrc]
  · rw [h2]; simp only [hsrc]

theorem advance_merge {u : State} (hp : u.phase = .cMerge) (hh : u.heap ≠ []) : advance u = u := by
  unfold advance
  simp only [hp]
  split
  · rename_i h _; exact (hh h).elim
  · rfl

/-- `C_MERGE` to the end (42_treebuilder.md R172): the tree is made of the forest by merges R170 allows. -/
theorem ends_merge {s0 s : State} {bits : List Bool} {count : Byte → Nat} {syms : List Byte}
    {ps : List (Nat × Tree)} {f : Forest} (h : Writing s0 bits s) (hp : s.phase = .cMerge)
    (hg : Grown count syms s ps) (h1 : 1 ≤ s.heap.length) (hn : syms.length ≤ Config.nsym) (hd : syms.Nodup)
    (hsum : (syms.map count).sum < 2 ^ Config.cntW) (hm : Relation.ReflTransGen MergeAny f (forest s))
    (h0 : s.src ≠ []) (hl : s.l.toNat = s.src.length) (hv : ∀ v ∈ s.src, v ∈ syms)
    (hQ : ∀ tree nodes x, tree.leaves.Perm syms → BuildAny f nodes x → Holds nodes x tree →
      ∀ t, t.sink = s0.sink ++ packed (bits ++ tree.bits ++ body tree s.src) →
        t.result = (packed (bits ++ tree.bits ++ body tree s.src)).length → Q t) :
    Ends s Q (HostAbort s0) := by
  induction hk : s.heap.length generalizing s ps with
  | zero => omega
  | succ k ih =>
    by_cases h2 : 2 ≤ s.heap.length
    · obtain ⟨nodes, heap, qs, e, g, l, m⟩ := merge_eq hg h2 hn hsum
      refine Ends.of_meets (i := .tbMerge) (x := merge s) h.script
        (by simp [nextOp, hp, show 1 < s.heap.length by omega]) rfl ?_
      have hne : heap ≠ [] := by rintro rfl; simp at l; omega
      have ha := advance_merge (u := { s with node := nodes, heap := heap }) hp hne
      rw [e, Res.meets_ok, ha]
      exact ih (s := { s with node := nodes, heap := heap }) (h.same rfl rfl rfl List.suffix_rfl rfl rfl rfl) hp g
        (by simp only; omega) (hm.tail m) h0 hl hv hQ (by simp only; omega)
    · obtain ⟨x, t, hx, e, hold, hsz, hlv, -⟩ := takeRoot_eq hg (by omega)
      refine Ends.of_meets_ret (i := .heapExtractMin) (x := heapExtractMin s) (f := .node) h.script
        (by simp [nextOp, hp, show ¬ 1 < s.heap.length by omega]) rfl ?_
      rw [e]
      simp only [Res.meets_ok, advance, hp]
      have hb : BuildAny f s.node x := by
        have : forest s = ⟨s.node, [x]⟩ := by rw [forest, hx]
        rw [this] at hm; exact hm
      exact ends_ser (x := x) (tree := t) (h.same rfl rfl rfl List.suffix_rfl rfl rfl rfl) rfl rfl hold
        (Nat.le_of_eq hsz) (hlv.nodup_iff.mpr hd) h0 hl (fun v hv' => hlv.mem_iff.mpr (hv v hv'))
        (hQ t s.node x hlv hb hold)

/-- COMPRESS from its command-start values to its end, whatever the host answers (45_encoder_decoder.md R205, R211):
it can end only in `DONE`, with the container written, or with `IOError` (60_exceptions.md R238). -/
theorem compress_ends (s : State) (hs : s.script = []) (hlen : s.src.length < 2 ^ Config.lenW)
    (hQ0 : s.src = [] → ∀ t, t.sink = s.sink ++ packed (wordBits 0#32) → t.result = 4 → Q t)
    (hQ : s.src ≠ [] → ∀ tree, LegalTree s.src tree → tree.leaves.Perm (symbols (occurrences s.src)) →
      ∀ t, t.sink = s.sink ++ container tree s.src → t.result = (container tree s.src).length → Q t) :
    Ends (commandStart .cFreq s) Q (HostAbort s) := by
  have hstart : Writing s [] (commandStart .cFreq s) :=
    ⟨hs, rfl, rfl, List.suffix_rfl, by simp [Config.accCap], by simp, rfl⟩
  have hdrop : (commandStart .cFreq s).src.drop (commandStart .cFreq s).srcPos = s.src := rfl
  refine Ends.of_meets (i := .freqScan) (x := scan (commandStart .cFreq s)) hs rfl rfl ?_
  refine (scan_meets _ (by rw [hdrop]; exact hlen)).mono (fun _ u hu => ?_) fun e u hf => hstart.hostAbort hf
  rw [hdrop] at hu
  obtain ⟨hud, hu⟩ := hu
  have hup : u.phase = .cFreq := by rw [hu]; rfl
  have hw : Writing s [] u :=
    hstart.same (by rw [hu]) (by rw [hu]) (by rw [hu]) hud (by rw [hu]) (by rw [hu]) (by rw [hu])
  simp only [advance, hup]
  generalize hv : ({ u with l := BitVec.ofNat 32 u.total, phase := .cLen } : State) = v
  have hvw : Writing s [] v := by rw [← hv]; exact hw.same rfl rfl rfl List.suffix_rfl rfl rfl rfl
  have hvl : v.l = BitVec.ofNat 32 s.src.length := by rw [← hv, hu]
  have hvp : v.phase = .cLen := by rw [← hv]
  have hvf : v.freq = counted (List.replicate Config.nsym 0) s.src := by rw [← hv, hu]
  have hln : v.l.toNat = s.src.length := by
    rw [hvl, BitVec.toNat_ofNat]; exact Nat.mod_eq_of_lt hlen
  refine Ends.of_meets (i := .encLen) (x := writeLength v) hvw.script (by simp [nextOp, hvp]) rfl ?_
  rw [writeLength_eq]
  refine (writeBits_meets _ v hvw.held).mono (fun _ w hw => ?_) fun e u hf => hvw.hostAbort hf
  obtain ⟨hwd, hw⟩ := hw
  have hww : Writing s (wordBits v.l) w := by
    have := hvw.step (b := wordBits v.l) (t := w) (by rw [hw]; rfl) (by rw [hw]; rfl) (by rw [hw]; rfl) hwd (by rw [hw])
      (by rw [hw]) (by rw [hw])
    simpa using this
  have hwp : w.phase = .cLen := by rw [hw]; exact hvp
  have hwl : w.l = v.l := by rw [hw]; rfl
  have hwf : w.freq = v.freq := by rw [hw]; rfl
  have hws : w.src = s.src := hww.src
  simp only [advance, hwp]
  by_cases h0 : s.src = []
  · have hl0 : w.l = 0#32 := by rw [hwl, hvl, h0]; rfl
    simp only [lengthZero, hl0, decide_true, if_true]
    refine ends_fin (bits := wordBits v.l) (hww.same rfl rfl rfl List.suffix_rfl rfl rfl rfl) rfl fun t h1 h2 => ?_
    have hv0 : v.l = 0#32 := by rw [← hwl, hl0]
    rw [hv0] at h1 h2
    exact hQ0 h0 t h1 (by rw [h2]; rfl)
  · have hpos := List.length_pos_iff.mpr h0
    have hl0 : ¬ w.l = 0#32 := by
      intro h
      rw [hwl] at h
      rw [h] at hln
      simp at hln; omega
    simp only [lengthZero, hl0, decide_false, Bool.false_eq_true, if_false]
    generalize hx : ({ w with phase := .cLeaves } : State) = x
    have hxw : Writing s (wordBits v.l) x := by rw [← hx]; exact hww.same rfl rfl rfl List.suffix_rfl rfl rfl rfl
    have hxp : x.phase = .cLeaves := by rw [← hx]
    have hxf : x.freq = counted (List.replicate Config.nsym 0) s.src := by rw [← hx]; exact hwf.trans hvf
    have hxl : x.l = v.l := by rw [← hx]; exact hwl
    have hcount : ∀ b : Byte, occurrences s.src b = x.freq.getD b.toNat 0 := by
      intro b; rw [hxf, scanned_getD]
    have hsyms : ∀ b ∈ s.src, b ∈ symbols (occurrences s.src) := fun b hb =>
      mem_symbols.mpr (List.count_pos_iff.mpr hb)
    obtain ⟨heap, ps, e, g, hperm⟩ := leaves_eq x (by rw [hxf, counted_length]; simp) hcount
    refine Ends.of_meets (i := .tbLeaves) (x := leaves x) hxw.script (by simp [nextOp, hxp]) rfl ?_
    rw [e]
    simp only [Res.meets_ok, advance, hxp]
    have hheap : 1 ≤ heap.length := by
      have h1 := hperm.length_eq
      simp only [leafNodes, List.length_map, List.length_range] at h1
      obtain ⟨b, hb⟩ := List.exists_mem_of_ne_nil _ h0
      have := List.length_pos_of_mem (hsyms b hb)
      omega
    refine ends_merge (f := ⟨leafNodes (occurrences s.src), heap⟩)
      (hxw.same rfl rfl rfl List.suffix_rfl rfl rfl rfl) rfl ⟨g.roots, g.holds, g.sizes, g.leaves, g.ordered⟩ hheap
      (symbols_length_le _) (symbols_nodup _) (by rw [sum_symbols]; exact hlen) .refl (by rw [hxw.src]; exact h0)
      (by rw [hxw.src]; show x.l.toNat = _; rw [hxl, hln])
      (by rw [hxw.src]; exact hsyms) fun tree nodes y hlv hb hold t h1 h2 => ?_
    have hc : container tree s.src = packed (wordBits v.l ++ tree.bits ++ body tree s.src) := by
      rw [container, hvl]
    refine hQ h0 tree ⟨heap, nodes, y, hperm, hb, hold⟩ hlv t ?_ ?_
    · rw [h1, hc]; simp only [hxw.src]
    · rw [h2, hc]; simp only [hxw.src]

/-! ### DECOMPRESS -/

/-- A stream begins with at most one tree: the format is self-delimiting (30_encoding.md R100). -/
theorem Tree.bits_unique {t u : Tree} {a b : List Bool} (h : t.bits ++ a = u.bits ++ b) : t = u ∧ a = b := by
  induction t generalizing u a b with
  | leaf v =>
    cases u with
    | node l r => simp [Tree.bits] at h
    | leaf w =>
      simp only [Tree.bits, List.cons_append, List.cons.injEq, true_and] at h
      have := List.append_inj h (by simp [byteBits_length])
      exact ⟨by rw [← byteOfBits_byteBits v, this.1, byteOfBits_byteBits], this.2⟩
  | node l r ihl ihr =>
    cases u with
    | leaf w => simp [Tree.bits] at h
    | node l' r' =>
      simp only [Tree.bits, List.cons_append, List.append_assoc, List.cons.injEq, true_and] at h
      obtain ⟨hl, h2⟩ := ihl h
      obtain ⟨hr, h3⟩ := ihr h2
      exact ⟨by rw [hl, hr], h3⟩

theorem wordBits_inj {l m : BitVec 32} (h : wordBits l = wordBits m) : l = m := by
  have := congrArg natOfBits h
  simp only [wordBits, natOfBits_bitsOfNat] at this
  apply BitVec.eq_of_toNat_eq
  have := l.isLt; have := m.isLt
  omega

theorem wordBits_unique {l m : BitVec 32} {a b : List Bool} (h : wordBits l ++ a = wordBits m ++ b) :
    l = m ∧ a = b := by
  have := List.append_inj h (by simp [wordBits_length])
  exact ⟨wordBits_inj this.1, this.2⟩

/-- Two ways of walking the same bits agree as far as the shorter goes. -/
theorem Walks.split {t : Tree} {ps qs : List (List Bool)} {out out' : List Byte} {a b : List Bool}
    (h : Walks t ps out) (h' : Walks t qs out') (he : ps.flatten ++ a = qs.flatten ++ b) (hl : ps.length ≤ qs.length) :
    ∃ qs' more, qs = ps ++ qs' ∧ out' = out ++ more ∧ a = qs'.flatten ++ b ∧ Walks t qs' more := by
  induction h generalizing qs out' with
  | nil => exact ⟨qs, out', rfl, rfl, by simpa using he, h'⟩
  | @cons p v ps out hp _ ih =>
    cases h' with
    | nil => simp at hl
    | @cons q w qs out' hq h' =>
      simp only [List.flatten_cons, List.append_assoc] at he
      obtain ⟨rfl, rfl⟩ := Tree.follow_unique hp hq he
      obtain ⟨qs', more, rfl, rfl, h3, h4⟩ := ih h' (List.append_cancel_left he) (by simpa using hl)
      exact ⟨qs', more, rfl, rfl, h3, h4⟩

/-- A stream decodes in at most one way. -/
theorem Decodes.unique {bits : List Bool} {out out' : List Byte} (h : Decodes bits out) (h' : Decodes bits out') :
    out = out' := by
  obtain ⟨l, rest, hb, hl, h⟩ := h
  obtain ⟨l', rest', hb', hl', h'⟩ := h'
  obtain ⟨rfl, rfl⟩ := wordBits_unique (hb.symm.trans hb')
  by_cases h0 : l = 0#32
  · have hz : l.toNat = 0 := by rw [h0]; rfl
    rw [List.length_eq_zero_iff.mp (hl.trans hz), List.length_eq_zero_iff.mp (hl'.trans hz)]
  · obtain ⟨t, ps, a, -, hr, hw⟩ := h.resolve_left h0
    obtain ⟨t', qs, b, -, hr', hw'⟩ := h'.resolve_left h0
    obtain ⟨rfl, he⟩ := Tree.bits_unique (hr.symm.trans hr')
    have h1 := List.Forall₂.length_eq hw
    have h2 := List.Forall₂.length_eq hw'
    obtain ⟨qs', more, -, rfl, -, -⟩ := hw.split hw' he (by omega)
    have : more.length = 0 := by rw [List.length_append] at hl'; omega
    rw [List.length_eq_zero_iff.mp this, List.append_nil]

theorem Fails.err {bits : List Bool} {out : List Byte} {e : Err} (h : Fails bits out e) :
    e = .endOfInput ∨ e = .nodeStoreOverflow := by
  cases h <;> simp

theorem prefix_of_append {a b : List Bool} : a <+: a ++ b := List.prefix_append a b

/-- Where the stream ends, no walk begins. -/
theorem Walks.nil_of_none {t : Tree} {qs : List (List Bool)} {more : List Byte} {after b : List Bool}
    (hn : ∀ p v, t.follow p = some (.leaf v) → ¬ p <+: after) (h : after = qs.flatten ++ b) (hw : Walks t qs more) :
    qs = [] ∧ more = [] := by
  cases hw with
  | nil => exact ⟨rfl, rfl⟩
  | @cons q w qs more hq _ =>
    refine (hn q w hq ?_).elim
    rw [h, List.flatten_cons, List.append_assoc]
    exact prefix_of_append

/-- A stream that fails does not decode. -/
theorem Fails.not_decodes {bits : List Bool} {out : List Byte} {e : Err} (h : Fails bits out e) (out' : List Byte) :
    ¬ Decodes bits out' := by
  rintro ⟨l', rest', hb', hl', h'⟩
  cases h with
  | noLength h => rw [hb', List.length_append, wordBits_length] at h; omega
  | noTree hl hb ht ho =>
    obtain ⟨rfl, rfl⟩ := wordBits_unique (hb.symm.trans hb')
    obtain ⟨t, ps, b, hz, hr, -⟩ := h'.resolve_left hl
    exact ht t hz (hr ▸ prefix_of_append)
  | tooLarge hl hb ho =>
    obtain ⟨rfl, rfl⟩ := wordBits_unique (hb.symm.trans hb')
    obtain ⟨t, ps, b, hz, hr, -⟩ := h'.resolve_left hl
    exact not_overflowsFrom (ts := [t]) rfl (by simpa using hz) (by rw [hr]; simp) ho
  | @noCode l _ _ _ _ hz hb hw hl hn =>
    obtain ⟨rfl, rfl⟩ := wordBits_unique (hb.symm.trans hb')
    have h0 : ¬ l = 0#32 := fun h0 => by rw [h0] at hl; simp at hl
    obtain ⟨t', qs, b, -, hr, hw'⟩ := h'.resolve_left h0
    obtain ⟨rfl, hbody⟩ := Tree.bits_unique hr
    have h1 := List.Forall₂.length_eq hw
    have h2 := List.Forall₂.length_eq hw'
    obtain ⟨qs', more, rfl, rfl, h3, h4⟩ := hw.split hw' hbody (by omega)
    obtain ⟨-, rfl⟩ := h4.nil_of_none hn h3
    simp only [List.append_nil] at hl'
    omega

/-- A stream fails in at most one way. -/
theorem Fails.unique {bits : List Bool} {out out' : List Byte} {e e' : Err} (h : Fails bits out e)
    (h' : Fails bits out' e') : out = out' ∧ e = e' := by
  have long : ∀ {l : BitVec 32} {rest : List Bool}, bits = wordBits l ++ rest → ¬ bits.length < 32 := fun hb h => by
    rw [hb, List.length_append, wordBits_length] at h; omega
  have tree : ∀ {t : Tree} {rest b : List Bool}, rest = t.bits ++ b → t.size ≤ Config.nodeCap → ¬ Overflows rest :=
    fun {t} {rest} {b} hr hz => not_overflowsFrom (ts := [t]) rfl (by simpa using hz) (by rw [hr]; simp)
  cases h with
  | noLength h =>
    cases h' with
    | noLength => exact ⟨rfl, rfl⟩
    | noTree _ hb => exact (long hb h).elim
    | tooLarge _ hb => exact (long hb h).elim
    | noCode _ hb => exact (long hb h).elim
  | noTree hl hb ht ho =>
    cases h' with
    | noLength h => exact (long hb h).elim
    | noTree => exact ⟨rfl, rfl⟩
    | tooLarge _ hb' ho' => obtain ⟨-, rfl⟩ := wordBits_unique (hb.symm.trans hb'); exact (ho ho').elim
    | noCode hz hb' =>
      obtain ⟨-, rfl⟩ := wordBits_unique (hb.symm.trans hb')
      exact (ht _ hz prefix_of_append).elim
  | tooLarge hl hb ho =>
    cases h' with
    | noLength h => exact (long hb h).elim
    | noTree _ hb' _ ho' => obtain ⟨-, rfl⟩ := wordBits_unique (hb.symm.trans hb'); exact (ho' ho).elim
    | tooLarge => exact ⟨rfl, rfl⟩
    | noCode hz hb' =>
      obtain ⟨-, rfl⟩ := wordBits_unique (hb.symm.trans hb')
      exact (tree rfl hz ho).elim
  | noCode hz hb hw hl hn =>
    cases h' with
    | noLength h => exact (long hb h).elim
    | noTree _ hb' ht =>
      obtain ⟨-, rfl⟩ := wordBits_unique (hb'.symm.trans hb)
      exact (ht _ hz prefix_of_append).elim
    | tooLarge _ hb' ho =>
      obtain ⟨-, rfl⟩ := wordBits_unique (hb'.symm.trans hb)
      exact (tree rfl hz ho).elim
    | noCode hz' hb' hw' hl' hn' =>
      obtain ⟨rfl, he⟩ := wordBits_unique (hb.symm.trans hb')
      obtain ⟨rfl, hp⟩ := Tree.bits_unique he
      refine ⟨?_, rfl⟩
      rcases Nat.le_total (List.length _) (List.length _) with hle | hle
      · obtain ⟨qs, more, rfl, rfl, h3, h4⟩ := hw.split hw' hp hle
        rw [(h4.nil_of_none hn h3).2, List.append_nil]
      · obtain ⟨qs, more, rfl, rfl, h3, h4⟩ := hw'.split hw hp.symm hle
        rw [(h4.nil_of_none hn' h3).2, List.append_nil]

/-- How DECOMPRESS can fail: by the host, or because the stream does not decode, with what it decoded before in SINK
(60_exceptions.md R238, R246). -/
def DecodeAbort (s t : State) : Prop :=
  HostAbort s t ∨
  ∃ out e, Fails (bytesBits s.src) out e ∧ t.err = some e ∧ t.sink = s.sink ++ out ∧ t.result = out.length

theorem advance_walk {u : State} (hp : u.phase = .dWalk) :
    advance u = if allDone u then complete u else u := by simp only [advance, hp]

/-- `D_WALK` to the end (45_encoder_decoder.md R217). -/
theorem ends_walk {s0 u : State} {t : Tree} {body : List Bool} {ps : List (List Bool)} {out : List Byte}
    (hs : u.script = []) (he : u.err = none) (hp : u.phase = .dWalk) (hd : u.draws <:+ s0.draws)
    (hc : u.rdCursor ≤ u.racc.length) (hr : u.root = some 0) (hx : Holds u.node 0 t) (hz : t.size ≤ Config.nodeCap)
    (hbits : bytesBits s0.src = wordBits u.l ++ (t.bits ++ body)) (hl : u.l ≠ 0#32)
    (hw : Walks t ps out) (hb : body = ps.flatten ++ unread u) (hsink : u.sink = s0.sink ++ out)
    (hcnt : u.outcnt = out.length) (htot : u.wrTotal = out.length) (hle : out.length ≤ u.l.toNat)
    (hQ : ∀ out v, Decodes (bytesBits s0.src) out → v.sink = s0.sink ++ out → v.result = out.length → Q v) :
    Ends (advance u) Q (DecodeAbort s0) := by
  have hpl := List.Forall₂.length_eq hw
  rw [advance_walk hp]
  by_cases hdone : u.l.toNat ≤ u.outcnt
  · rw [if_pos (by simpa [allDone] using hdone)]
    refine .done rfl he (hQ out _ ⟨u.l, _, hbits, by omega, .inr ⟨t, ps, unread u, hz, by rw [hb], hw⟩⟩ hsink htot)
  · have hnot : allDone u = false := by simpa [allDone] using hdone
    rw [hnot, if_neg (by simp)]
    refine Ends.of_meets (i := .decWalk) (x := walk u) hs (by simp [nextOp, hp, hnot]) rfl ?_
    refine (walk_meets u 0 t hc hr hx).mono (fun q w hwalk => ?_) fun e w hf => ?_
    · obtain ⟨v, hq, hun, -, m, hm, hmd, hw'⟩ := hwalk
      have hml : m = { u with racc := m.racc, rdCursor := m.rdCursor, srcPos := m.srcPos, draws := m.draws } := hm.1
      have hwl : w.l = u.l := by rw [hw', hml]
      refine ends_walk (ps := ps ++ [q]) (out := out ++ [v]) (t := t) (body := body) ?_ ?_ ?_ ?_ ?_ ?_ ?_ hz ?_ ?_ ?_ ?_
        ?_ ?_ ?_ ?_ hQ
      · rw [hw', hml]; exact hs
      · rw [hw', hml]; exact he
      · rw [hw', hml]; exact hp
      · exact hmd.trans (hm.2.1.trans hd)
      · rw [hw']; exact hm.2.2
      · rw [hw', hml]; exact hr
      · rw [hw', hml]; exact hx
      · rw [hwl]; exact hbits
      · rw [hwl]; exact hl
      · exact List.rel_append hw (.cons hq .nil)
      · rw [hb, hun]; simp
      · rw [hw']; simp [hsink]
      · rw [hw']; simp [hcnt]
      · rw [hw']; simp [htot]
      · rw [hwl, List.length_append, List.length_singleton]; omega
    · rcases hf with hf | ⟨rfl, hno, -, hmoved, -⟩
      · exact .inl ⟨by rw [hf.1]; rfl, hf.2.imp fun _ hr => hd.subset hr⟩
      · have hw' : w.sink = u.sink ∧ w.wrTotal = u.wrTotal := by
          obtain ⟨m, hm, hwm⟩ := hmoved
          rw [hwm, hm.1]
          exact ⟨rfl, rfl⟩
        refine .inr ⟨out, _, .noCode hz (by rw [hbits, hb]) hw (by omega) hno, rfl, hw'.1.trans hsink,
          hw'.2.trans htot⟩
termination_by u.l.toNat - out.length
decreasing_by
  rw [hwl, List.length_append, List.length_singleton]
  omega

/-- DECOMPRESS from its command-start values to its end, whatever the host answers and whatever SRC holds
(45_encoder_decoder.md R217, 60_exceptions.md R238). -/
theorem decompress_ends (s : State) (hs : s.script = [])
    (hQ : ∀ out v, Decodes (bytesBits s.src) out → v.sink = s.sink ++ out → v.result = out.length → Q v) :
    Ends (commandStart .dLen s) Q (DecodeAbort s) := by
  have hu0 : unread (commandStart .dLen s) = bytesBits s.src := rfl
  have host : ∀ e u, HostFault (commandStart .dLen s) e u → DecodeAbort s (abort e u) :=
    fun e u hf => .inl ⟨by rw [hf.1]; rfl, hf.2⟩
  refine Ends.of_meets (i := .decLen) (x := readLength (commandStart .dLen s)) hs rfl rfl ?_
  refine (readLength_meets _ (Nat.le_refl 0)).mono (fun _ u hu => ?_) fun e u hf => ?_
  · obtain ⟨m, hm, hun, hu⟩ := hu
    rw [hu0] at hun
    have hm1 := hm.1
    have hup : u.phase = .dLen := by rw [hu, hm1]; rfl
    have hue : u.err = none := by rw [hu, hm1]; rfl
    have huw : u.wrTotal = 0 := by rw [hu, hm1]; rfl
    have hus : u.sink = s.sink := by rw [hu, hm1]; rfl
    have hur : unread u = unread m := by rw [hu]; rfl
    have hud : u.draws <:+ s.draws := by rw [hu]; exact hm.2.1
    simp only [advance, hup]
    by_cases h0 : u.l = 0#32
    · simp only [lengthZero, h0, decide_true, if_true]
      exact .done rfl hue (hQ [] _ ⟨u.l, _, hun, by rw [h0]; rfl, .inl h0⟩ (by simpa using hus) huw)
    · simp only [lengthZero, h0, decide_false, Bool.false_eq_true, if_false]
      generalize hv : ({ u with phase := .dTree } : State) = v
      have hvc : v.rdCursor ≤ v.racc.length := by rw [← hv, hu]; exact hm.2.2
      have hvu : unread v = unread m := by rw [← hv]; exact hur
      have hvd : v.draws <:+ s.draws := by rw [← hv]; exact hud
      refine Ends.of_meets (i := .tcDeserialize) (x := deserialize v) (by rw [← hv, hu, hm1]; exact hs)
        (by rw [← hv]; rfl) rfl ?_
      refine (Res.Meets.witness (deserialize_total v hvc)).mono (fun _ w hw => ?_) fun e w hf => ?_
      · obtain ⟨-, t, hz, hvt, n, hn, hw⟩ := hw
        have hn1 := hn.1
        have hwp : w.phase = .dTree := by rw [hw, hn1, ← hv]
        simp only [advance, hwp]
        generalize hy : ({ w with outcnt := 0, phase := .dWalk } : State) = y
        have hyl : y.l = u.l := by rw [← hy, hw, hn1, ← hv]
        have hya : advance y = y := by
          have : allDone y = false := by
            have hne : y.l.toNat ≠ 0 := by
              rw [hyl]; intro h; exact h0 (BitVec.eq_of_toNat_eq h)
            have hyo : y.outcnt = 0 := by rw [← hy]
            simp only [allDone, decide_eq_false_iff_not, hyo]; omega
          rw [advance_walk (by rw [← hy]), this, if_neg (by simp)]
        rw [← hya]
        refine ends_walk (s0 := s) (t := t) (body := unread y) (ps := []) (out := []) ?_ ?_ ?_ ?_ ?_ ?_ ?_ hz ?_ ?_
          .nil rfl ?_ ?_ ?_ (Nat.zero_le _) hQ
        · rw [← hy, hw, hn1, ← hv, hu, hm1]; exact hs
        · rw [← hy, hw, hn1, ← hv]; exact hue
        · rw [← hy]
        · rw [← hy, hw]; exact hn.2.1.trans hvd
        · rw [← hy, hw]; exact hn.2.2
        · rw [← hy, hw]
        · have hyn : y.node = treeNodes 0 t := by rw [← hy, hw]
          rw [hyn]
          exact holds_treeNodes _ 0 t fun j _ => by rw [Nat.zero_add]
        · have hyu : unread y = unread w := by rw [← hy]; rfl
          rw [hyl, hun, ← hvu, hvt, hyu]
        · rw [hyl]; exact h0
        · rw [← hy, hw, hn1, ← hv]; simpa using hus
        · rw [← hy]; rfl
        · rw [← hy, hw, hn1, ← hv]; exact huw
      · obtain ⟨hx, hf⟩ := hf
        have hfr := deserialize_raise_only hx
        have hws : w.sink = s.sink := (hfr .sink (by simp)).trans (by rw [← hv]; exact hus)
        have hww : w.wrTotal = 0 := (hfr .wrTotal (by simp)).trans (by rw [← hv]; exact huw)
        rcases hf with hf | ⟨rfl, -, hno, ho⟩ | ⟨rfl, -, ho⟩
        · exact .inl ⟨by rw [hf.1]; rfl, hf.2.imp fun _ hr => hvd.subset hr⟩
        · exact .inr ⟨[], _, .noTree h0 hun (fun t _ => by rw [← hvu]; exact hno t) (by rw [← hvu]; exact ho), rfl,
            by simpa using hws, hww⟩
        · exact .inr ⟨[], _, .tooLarge h0 hun (by rw [← hvu]; exact ho), rfl, by simpa using hws, hww⟩
  · rcases hf with hf | ⟨rfl, hlt, hm, -⟩
    · exact host e u hf
    · rw [hu0] at hlt
      exact .inr ⟨[], _, .noLength hlt, rfl, by rw [abort_sink, hm.1]; simp, by rw [abort_result, hm.1]; rfl⟩

/-! ### Containers -/

theorem walks_body (t : Tree) (input : List Byte) (hv : ∀ v ∈ input, v ∈ t.leaves) :
    ∃ ps, body t input = ps.flatten ∧ Walks t ps input := by
  induction input with
  | nil => exact ⟨[], rfl, .nil⟩
  | cons v input ih =>
    obtain ⟨ps, hb, hw⟩ := ih fun w hw => hv w (List.mem_cons_of_mem _ hw)
    obtain ⟨p, hp⟩ := Tree.codeOf_isSome (hv v (List.mem_cons_self ..))
    refine ⟨p :: ps, ?_, .cons (Tree.follow_codeOf hp) hw⟩
    simp only [body, List.flatMap_cons, hp, Option.getD_some, List.flatten_cons] at *
    rw [hb]

/-- A container decodes to the input it was made of, whatever tree it was made with (45_encoder_decoder.md R222). -/
theorem container_decodes (t : Tree) (input after : List Byte) (hz : t.size ≤ Config.nodeCap)
    (hl : input.length < 2 ^ Config.lenW) (hv : ∀ v ∈ input, v ∈ t.leaves) :
    Decodes (bytesBits (container t input ++ after)) input := by
  obtain ⟨ps, hb, hw⟩ := walks_body t input hv
  have hlen : (BitVec.ofNat 32 input.length).toNat = input.length := by
    rw [BitVec.toNat_ofNat]; exact Nat.mod_eq_of_lt hl
  generalize hB : wordBits (BitVec.ofNat 32 input.length) ++ t.bits ++ body t input = B
  have hbits : bytesBits (container t input ++ after) =
      wordBits (BitVec.ofNat 32 input.length) ++ (t.bits ++ (ps.flatten ++
        (List.replicate (padCount B.length) false ++ bytesBits after))) := by
    rw [bytesBits_append, container, hB, bytesBits_packed, ← hb, ← hB]
    simp only [List.append_assoc]
  exact ⟨_, _, hbits, hlen.symm, .inr ⟨t, ps, _, hz, rfl, hw⟩⟩

theorem empty_decodes (after : List Byte) : Decodes (bytesBits (packed (wordBits 0#32) ++ after)) [] :=
  ⟨0#32, _, by rw [bytesBits_append, bytesBits_packed, List.append_assoc], rfl, .inl rfl⟩

end Sys2Proof.Machine
end

