-- ==== Sys2Proof/Laws/Failures.lean ====
section
/-! SUPPORT. What a transfer the host fails leaves (60_exceptions.md R237, R243): the writer up to the failed flush, and
the reader with the bits of `RACC` consumed. -/

namespace Sys2Proof.Machine

theorem hostFails_cons {s : State} {r : List Byte} {ds : List HostDraw} (h : s.draws = .fails r :: ds) :
    hostFails s = some r := by
  simp only [hostFails, h]

theorem hostFails_serves {s : State} {ds : List HostDraw} (h : s.draws = .serves :: ds) : hostFails s = none := by
  simp only [hostFails, h]

/-! ### The writer -/

theorem flush_fails {s : State} {r : List Byte} {ds : List HostDraw} (h : s.draws = .fails r :: ds)
    (hb : fullBytes s.wacc ≠ []) :
    flush s = .raise .ioError { s with sink := s.sink ++ r, draws := ds } := by
  unfold flush
  split
  · contradiction
  · simp only [sinkWrite, hostFails_cons h, Res.bind_raise, answered, h, List.tail_cons]

theorem flush_serves {s : State} {ds : List HostDraw} (h : s.draws = .serves :: ds) (hb : fullBytes s.wacc ≠ []) :
    flush s = .ok () { s with
      wacc := [], sink := s.sink ++ fullBytes s.wacc, wrTotal := s.wrTotal + (fullBytes s.wacc).length, draws := ds } := by
  unfold flush
  split
  · contradiction
  · rename_i v vs hv
    simp only [sinkWrite, hostFails_serves h, Res.bind_ok, answered, h, List.tail_cons, accClear, setAcc_writer, hv]

theorem writeBit_held {b : Bool} {s : State} (hw : s.wacc.length + 1 < Config.accCap) :
    writeBit b s = .ok () { s with wacc := s.wacc ++ [b] } := by
  have h1 : ¬ s.wacc.length = Config.accCap := by omega
  have h2 : ¬ s.wacc.length + 1 = Config.accCap := by omega
  simp [writeBit, accPushBit, isFull, h1, h2]

theorem writeBit_full {b : Bool} {s : State} (hw : s.wacc.length + 1 = Config.accCap) :
    writeBit b s = flush { s with wacc := s.wacc ++ [b] } := by
  have h1 : ¬ s.wacc.length = Config.accCap := by omega
  simp [writeBit, accPushBit, isFull, h1, hw]

/-- `writeBits` where the host serves `m` flushes and fails the next (40_bitchannel.md R129). -/
theorem writeBits_fails (bits : List Bool) (m : Nat) {r : List Byte} {ds : List HostDraw} {s : State}
    (hw : s.wacc.length < Config.accCap) (hd : s.draws = List.replicate m .serves ++ .fails r :: ds)
    (hl : Config.accCap * (m + 1) ≤ s.wacc.length + bits.length) :
    writeBits bits s = .raise .ioError (stoppedWriting bits m r ds s) := by
  induction bits generalizing s m with
  | nil => simp only [Config.accCap, List.length_nil] at *; omega
  | cons b bits ih =>
    simp only [List.length_cons] at hl
    rw [writeBits]
    by_cases h64 : s.wacc.length + 1 = Config.accCap
    · have hfull : (s.wacc ++ [b]).length = Config.accCap := by simpa using h64
      have hb : fullBytes (s.wacc ++ [b]) ≠ [] := by
        intro h
        have := congrArg List.length h
        rw [fullBytes_length, hfull] at this
        simp [Config.accCap] at this
      have hcut : s.wacc ++ b :: bits = (s.wacc ++ [b]) ++ bits := by simp
      rw [writeBit_full h64]
      cases m with
      | zero =>
        rw [flush_fails (by simpa using hd) hb, Res.bind_raise]
        simp only [stoppedWriting, Nat.mul_zero, List.drop_zero, List.take_zero, fullBytes, List.append_nil, Nat.add_zero,
          hcut]
        rw [List.take_append_of_le_length (by rw [hfull]), List.take_of_length_le (by rw [hfull])]
      | succ m =>
        rw [List.replicate_succ, List.cons_append] at hd
        rw [flush_serves (s := { s with wacc := s.wacc ++ [b] }) hd hb, Res.bind_ok,
          ih m (by simp [Config.accCap]) rfl (by simp only [Config.accCap, List.length_nil] at *; omega)]
        simp only [stoppedWriting, List.nil_append, hcut, Nat.mul_succ, Res.raise.injEq, true_and, State.mk.injEq,
          and_true]
        have h1 : Config.accCap * m + Config.accCap = (s.wacc ++ [b]).length + Config.accCap * m := by rw [hfull]; omega
        rw [h1, List.drop_length_add_append, List.take_length_add_append, fullBytes_append (a := s.wacc ++ [b]) _ (by rw [hfull]; decide)]
        refine ⟨?_, rfl, by rw [List.append_assoc s.sink]⟩
        rw [fullBytes_length, hfull]
        simp only [Config.accCap]
        omega
    · rw [writeBit_held (by omega), Res.bind_ok, ih (s := { s with wacc := s.wacc ++ [b] }) m (by simp only [List.length_append, List.length_singleton]; omega) hd
        (by simp only [List.length_append, List.length_singleton]; omega)]
      simp [stoppedWriting]

/-- An operation's end with another stack. -/
def Res.withStk {α : Type} (st : List StkEntry) : Res α → Res α
  | .ok a s => .ok a { s with stk := st }
  | .raise e s => .raise e { s with stk := st }
  | .fault f => .fault f
  | .refused r => .refused r

theorem flush_withStk (st : List StkEntry) (s : State) : flush { s with stk := st } = (flush s).withStk st := by
  unfold flush
  simp only
  split
  · rfl
  · simp only [sinkWrite, hostFails]
    split <;> rfl

theorem writeBits_withStk (bits : List Bool) (st : List StkEntry) (s : State) :
    writeBits bits { s with stk := st } = (writeBits bits s).withStk st := by
  induction bits generalizing s with
  | nil => rfl
  | cons b bits ih =>
    have h1 : writeBit b { s with stk := st } = (writeBit b s).withStk st := by
      simp only [writeBit, accPushBit, isFull, acc_writer]
      by_cases h : s.wacc.length = Config.accCap
      · simp only [h, decide_true, if_true]; rfl
      · by_cases h' : (s.wacc ++ [b]).length = Config.accCap
        · simp only [h, decide_false, Bool.false_eq_true, if_false, Res.bind_ok, setAcc_writer, h', decide_true, if_true]
          exact flush_withStk st { s with wacc := s.wacc ++ [b] }
        · simp only [h, decide_false, Bool.false_eq_true, if_false, Res.bind_ok, setAcc_writer, h']; rfl
    rw [writeBits, writeBits, h1]
    cases writeBit b s with
    | ok a u => exact ih u
    | raise e u => rfl
    | fault f => rfl
    | refused r => rfl

/-- TC.SERIALIZE's loop raises what writing the bits of the subtrees on the stack raises (43_treecodec.md R181, R182). -/
theorem serLoop_raise (fuel : Nat) {s t : State} {e : Err} {xs : List Nat} {ts : List Tree}
    (hx : List.Forall₂ (Holds s.node) xs ts) (hf : (ts.map Tree.size).sum ≤ fuel)
    (hr : writeBits (ts.flatMap Tree.bits) s = .raise e t) :
    ∃ st, serLoop fuel { s with stk := xs.map .visit } = .raise e { t with stk := st } := by
  induction fuel generalizing s xs ts with
  | zero =>
    cases hx with
    | nil => cases hr
    | @cons x t' xs ts h hs => simp only [List.map_cons, List.sum_cons] at hf; have := Tree.size_pos t'; omega
  | succ fuel ih =>
    cases hx with
    | nil => cases hr
    | @cons x t' xs ts h hs =>
      simp only [List.map_cons, List.sum_cons] at hf
      cases t' with
      | leaf v =>
        obtain ⟨w, hg⟩ := h
        simp only [Tree.size] at hf
        have hb : (Tree.leaf v :: ts).flatMap Tree.bits = [true] ++ (byteBits v ++ ts.flatMap Tree.bits) := by
          simp [Tree.bits]
        rw [hb, writeBits_append] at hr
        simp only [serLoop, List.map_cons, hg]
        have h1 := writeBits_withStk [true] (xs.map .visit) s
        have hn1 := writeBits_only [true] s
        cases h2 : writeBits [true] s with
        | ok a s1 =>
          rw [h2] at h1 hr hn1
          rw [h1]
          simp only [Res.bind_ok, Res.withStk, writeByte] at hr ⊢
          rw [writeBits_append] at hr
          have h3 := writeBits_withStk (byteBits v) (xs.map .visit) s1
          have hn2 := writeBits_only (byteBits v) s1
          cases h4 : writeBits (byteBits v) s1 with
          | ok a s2 =>
            rw [h4] at h3 hr hn2
            rw [h3]
            have hn : s2.node = s.node := (hn2 .node (by decide)).trans (hn1 .node (by decide))
            exact ih (by rw [hn]; exact hs) (by omega) hr
          | raise e' u => rw [h4] at h3 hr; rw [h3]; cases hr; exact ⟨_, rfl⟩
          | fault f => rw [h4] at hr; cases hr
          | refused q => rw [h4] at hr; cases hr
        | raise e' u => rw [h2] at h1 hr; rw [h1]; cases hr; exact ⟨_, rfl⟩
        | fault f => rw [h2] at hr; cases hr
        | refused q => rw [h2] at hr; cases hr
      | node l r =>
        obtain ⟨w, a, b, hg, ha, hb⟩ := h
        simp only [Tree.size] at hf
        have hbits : (Tree.node l r :: ts).flatMap Tree.bits = [false] ++ (l :: r :: ts).flatMap Tree.bits := by
          simp [Tree.bits]
        rw [hbits, writeBits_append] at hr
        simp only [serLoop, List.map_cons, hg]
        have h1 := writeBits_withStk [false] (xs.map .visit) s
        have hn1 := writeBits_only [false] s
        cases h2 : writeBits [false] s with
        | ok q s1 =>
          rw [h2] at h1 hr hn1
          rw [h1]
          simp only [Res.bind_ok, Res.withStk] at hr ⊢
          have hn : s1.node = s.node := hn1 .node (by decide)
          exact ih (xs := a :: b :: xs) (by rw [hn]; exact .cons ha (.cons hb hs))
            (by simp only [List.map_cons, List.sum_cons]; omega) hr
        | raise e' u => rw [h2] at h1 hr; rw [h1]; cases hr; exact ⟨_, rfl⟩
        | fault f => rw [h2] at hr; cases hr
        | refused q => rw [h2] at hr; cases hr

/-! ### The reader -/

/-- RD.REFILL where the host serves the read and a byte is left (40_bitchannel.md R137). -/
theorem refill_serves {s : State} {ds : List HostDraw} (h : s.draws = .serves :: ds)
    (hb : srcBytes s.srcPos Config.refillBytes s ≠ []) :
    refill s = .ok () { s with
      racc := bytesBits (srcBytes s.srcPos Config.refillBytes s), rdCursor := 0
      srcPos := s.srcPos + (srcBytes s.srcPos Config.refillBytes s).length, draws := ds } := by
  have hlen : (srcBytes s.srcPos Config.refillBytes s).length ≤ 8 := by rw [srcBytes, List.length_take]; exact Nat.min_le_left ..
  obtain ⟨v, vs, hv⟩ := List.exists_cons_of_ne_nil hb
  have hp := accPushBits_eq .reader (bytesBits (v :: vs))
    (accClear .reader { s with srcPos := s.srcPos + (v :: vs).length, draws := ds }) (by
      rw [hv] at hlen
      simp only [accClear, acc_setAcc, List.length_nil, bytesBits_length, Config.accCap]; omega)
  simp only [refill, srcRead, memRead, hostFails_serves h, Res.bind_ok, answered, h, List.tail_cons, hv]
  rw [hp]
  simp [accClear]

theorem refill_fails {s : State} {r : List Byte} {ds : List HostDraw} (h : s.draws = .fails r :: ds) :
    refill s = .raise .ioError { s with draws := ds } := by
  simp only [refill, srcRead, memRead, hostFails_cons h, Res.bind_raise, answered, h, List.tail_cons]

theorem refill_ended {s : State} (h : s.draws = []) (hb : srcBytes s.srcPos Config.refillBytes s = []) :
    refill s = .raise .endOfInput s := by
  have hf : hostFails s = none := by simp only [hostFails, h]
  have hs : answered s = s := by rw [answered, h, List.tail_nil, ← h]
  simp only [refill, srcRead, memRead, hf, Res.bind_ok, hb, hs, List.length_nil, Nat.add_zero]

theorem popBit_held {s : State} (h : s.rdCursor < s.racc.length) :
    popBit s = .ok s.racc[s.rdCursor] { s with rdCursor := s.rdCursor + 1 } := by
  have hne : ¬ s.rdCursor = s.racc.length := by omega
  simp only [popBit, readerEmpty, hne, decide_false, Bool.false_eq_true, if_false, Res.bind_ok, accBitAt, acc_reader,
    List.getElem?_eq_getElem h]

theorem popBit_empty {s : State} (h : s.rdCursor = s.racc.length) :
    popBit s = (refill s).bind fun _ s =>
      (accBitAt .reader s.rdCursor s).bind fun b s => .ok b { s with rdCursor := s.rdCursor + 1 } := by
  simp only [popBit, readerEmpty, h, decide_true, if_true]

theorem popBit_refilled {s t : State} (h : s.rdCursor = s.racc.length) (hr : refill s = .ok () t)
    (ht : t.rdCursor < t.racc.length) : popBit s = popBit t := by
  rw [popBit_empty h, hr, popBit_held ht, Res.bind_ok]
  simp only [accBitAt, acc_reader, List.getElem?_eq_getElem ht, Res.bind_ok]

/-- A run of the reader from `SRC_POS` = `pos` and `RACC` = `bits` over a source cut where `m` refills end, `j` of which
are still to come; after them the host answers nothing, and no byte is left. -/
structure Cut (src : List Byte) (bits : List Bool) (pos m j : Nat) (t : State) : Prop where
  source : t.src = src.take (pos + 8 * m)
  draws : t.draws = List.replicate j .serves
  le : j ≤ m
  place : t.srcPos = pos + ((src.drop pos).take (8 * (m - j))).length
  racc : t.racc = if j = m then bits else bytesBits ((src.drop (pos + 8 * (m - j - 1))).take 8)
  cursor : t.rdCursor ≤ t.racc.length
  /-- no read served is empty -/
  room : 8 * m < (src.drop pos).length + 8

theorem Cut.congr {src : List Byte} {bits : List Bool} {pos m j : Nat} {t u : State} (h : Cut src bits pos m j t)
    (h1 : u.src = t.src) (h2 : u.draws = t.draws) (h3 : u.srcPos = t.srcPos) (h4 : u.racc = t.racc)
    (h5 : u.rdCursor = t.rdCursor) : Cut src bits pos m j u :=
  ⟨h1.trans h.source, h2.trans h.draws, h.le, h3.trans h.place, h4.trans h.racc, by rw [h4, h5]; exact h.cursor, h.room⟩

/-- The same state with the whole source, and with a failed transfer after the refills. -/
def uncut (src : List Byte) (r : List Byte) (ds : List HostDraw) (t : State) : State :=
  { t with src := src, draws := t.draws ++ .fails r :: ds }

section

variable {src : List Byte} {bits : List Bool} {pos m : Nat} {r : List Byte} {ds : List HostDraw}

@[simp] theorem uncut_stk (t : State) : (uncut src r ds t).stk = t.stk := rfl
@[simp] theorem uncut_node (t : State) : (uncut src r ds t).node = t.node := rfl
@[simp] theorem uncut_cur (t : State) : (uncut src r ds t).cur = t.cur := rfl

/-- An operation whose transfer after `m` refills the host fails does what it does over the source cut there, with
`IOError` for `EndOfInput`, the failed transfer taken. -/
def Res.Uncut {α : Type} (src : List Byte) (bits : List Bool) (pos m : Nat) (r : List Byte) (ds : List HostDraw)
    (x x' : Res α) : Prop :=
  match x' with
  | .ok a t => x = .ok a (uncut src r ds t) ∧ ∃ j, Cut src bits pos m j t
  | .raise e t =>
    if e = .endOfInput then
      x = .raise .ioError { t with src := src, draws := ds } ∧ Cut src bits pos m 0 t ∧ t.rdCursor = t.racc.length
    else x = .raise e (uncut src r ds t)
  | .fault f => x = .fault f
  | .refused q => x = .refused q

variable {α β : Type}

theorem Res.Uncut.bind {x x' : Res α} {k k' : α → State → Res β} (h : x.Uncut src bits pos m r ds x')
    (hk : ∀ a t j, Cut src bits pos m j t → (k a (uncut src r ds t)).Uncut src bits pos m r ds (k' a t)) :
    (x.bind k).Uncut src bits pos m r ds (x'.bind k') := by
  cases x' with
  | ok a t => obtain ⟨h1, j, h2⟩ := h; rw [h1]; exact hk a t j h2
  | raise e t =>
    change if e = _ then _ else _ at h
    show if e = _ then _ else _
    split at h
    · rename_i he; rw [if_pos he, h.1]; exact ⟨rfl, h.2⟩
    · rename_i he; rw [if_neg he, h]; rfl
  | fault f => rw [show x = .fault f from h]; rfl
  | refused q => rw [show x = .refused q from h]; rfl

theorem popBit_uncut {j : Nat} {t : State} (h : Cut src bits pos m j t) :
    (popBit (uncut src r ds t)).Uncut src bits pos m r ds (popBit t) := by
  have held : ∀ {j : Nat} {t : State}, Cut src bits pos m j t → t.rdCursor < t.racc.length →
      (popBit (uncut src r ds t)).Uncut src bits pos m r ds (popBit t) := by
    intro j t h hlt
    rw [popBit_held hlt, popBit_held (s := uncut src r ds t) hlt]
    exact ⟨rfl, j, h.source, h.draws, h.le, h.place, h.racc, hlt, h.room⟩
  have hm := h.room
  by_cases he : t.rdCursor = t.racc.length
  · have hsrc : ∀ n, srcBytes t.srcPos n t = ((src.take (pos + 8 * m)).drop t.srcPos).take n := by
      intro n; rw [srcBytes, h.source]
    cases j with
    | zero =>
      have hb : srcBytes t.srcPos Config.refillBytes t = [] := by
        have hp := h.place
        rw [hsrc, List.take_eq_nil_iff, List.drop_eq_nil_iff, List.length_take, hp]
        simp only [List.length_take, List.length_drop, Nat.sub_zero]
        right; omega
      rw [popBit_empty he, popBit_empty (s := uncut src r ds t) he, refill_ended h.draws hb,
        refill_fails (s := uncut src r ds t) (r := r) (ds := ds) (by simp only [uncut, h.draws]; rfl)]
      exact ⟨rfl, h, he⟩
    | succ j =>
      have hle := h.le
      have hp : t.srcPos = pos + 8 * (m - (j + 1)) := by
        rw [h.place, List.length_take, Nat.min_eq_left (by omega)]
      have hlt : t.srcPos < src.length := by rw [List.length_drop] at hm; omega
      have hb : srcBytes t.srcPos Config.refillBytes t = (src.drop t.srcPos).take 8 := by
        rw [hsrc, List.drop_take, List.take_take]
        congr 1
        show min 8 _ = 8
        omega
      have hb' : srcBytes t.srcPos Config.refillBytes (uncut src r ds t) = (src.drop t.srcPos).take 8 := rfl
      have hne : (src.drop t.srcPos).take 8 ≠ [] := by
        intro h0
        have := congrArg List.length h0
        rw [List.length_take, List.length_drop] at this
        simp only [List.length_nil] at this
        omega
      obtain ⟨hd, hd'⟩ : t.draws = .serves :: List.replicate j .serves ∧
          (uncut src r ds t).draws = .serves :: (List.replicate j .serves ++ .fails r :: ds) := by
        constructor
        · rw [h.draws, List.replicate_succ]
        · simp only [uncut, h.draws, List.replicate_succ, List.cons_append]
      have hc : Cut src bits pos m j { t with
          racc := bytesBits ((src.drop t.srcPos).take 8), rdCursor := 0
          srcPos := t.srcPos + ((src.drop t.srcPos).take 8).length, draws := List.replicate j .serves } := by
        refine ⟨h.source, rfl, by omega, ?_, ?_, Nat.zero_le _, hm⟩
        · simp only [hp, List.length_take, List.length_drop]; omega
        · rw [if_neg (by omega), hp, show m - (j + 1) = m - j - 1 from by omega]
      have hpos : 0 < (bytesBits ((src.drop t.srcPos).take 8)).length := by
        rw [bytesBits_length]; have := List.length_pos_iff.mpr hne; omega
      have h1 := refill_serves hd (by rw [hb]; exact hne)
      rw [hb] at h1
      have h2 := refill_serves hd' hne
      rw [popBit_refilled he h1 hpos, popBit_refilled (s := uncut src r ds t) he h2 hpos]
      exact held hc hpos
  · exact held h (by have := h.cursor; omega)

theorem popBits_uncut (k : Nat) {j : Nat} {t : State} (h : Cut src bits pos m j t) :
    (popBits k (uncut src r ds t)).Uncut src bits pos m r ds (popBits k t) := by
  induction k generalizing j t with
  | zero => exact ⟨rfl, j, h⟩
  | succ k ih => exact (popBit_uncut h).bind fun b u i hu => (ih hu).bind fun bs v i hv => ⟨rfl, i, hv⟩

theorem popByte_uncut {j : Nat} {t : State} (h : Cut src bits pos m j t) :
    (popByte (uncut src r ds t)).Uncut src bits pos m r ds (popByte t) :=
  (popBits_uncut 8 h).bind fun _ _ i hu => ⟨rfl, i, hu⟩

theorem readLength_uncut {j : Nat} {t : State} (h : Cut src bits pos m j t) :
    (readLength (uncut src r ds t)).Uncut src bits pos m r ds (readLength t) :=
  (popByte_uncut h).bind fun _ _ _ h1 => (popByte_uncut h1).bind fun _ _ _ h2 => (popByte_uncut h2).bind fun _ _ _ h3 =>
    (popByte_uncut h3).bind fun _ _ i h4 => ⟨rfl, i, h4.congr rfl rfl rfl rfl rfl⟩

theorem attach_uncut (i : Nat) {j : Nat} {t : State} (h : Cut src bits pos m j t) :
    (attach i (uncut src r ds t)).Uncut src bits pos m r ds (attach i t) := by
  unfold attach
  simp only [uncut_stk, uncut_node]
  split
  · exact ⟨rfl, j, h⟩
  · split
    · split
      · exact ⟨rfl, j, h.congr rfl rfl rfl rfl rfl⟩
      · exact ⟨rfl, j, h.congr rfl rfl rfl rfl rfl⟩
    all_goals rfl
  all_goals rfl

theorem readNode_uncut {j : Nat} {t : State} (h : Cut src bits pos m j t) :
    (readNode (uncut src r ds t)).Uncut src bits pos m r ds (readNode t) := by
  refine (popBit_uncut h).bind fun b u i hu => ?_
  show Res.Uncut _ _ _ _ _ _ (if u.node.length = Config.nodeCap then _ else _) _
  by_cases hn : u.node.length = Config.nodeCap
  · rw [if_pos hn, if_pos hn]
    exact rfl
  · rw [if_neg hn, if_neg hn]
    refine Res.Uncut.bind (attach_uncut _ (t := { u with node := u.node ++ [.fresh] })
      (hu.congr rfl rfl rfl rfl rfl)) fun _ v i hv => ?_
    cases b
    · exact ⟨rfl, i, hv.congr rfl rfl rfl rfl rfl⟩
    · exact (popByte_uncut hv).bind fun _ _ i hw => ⟨rfl, i, hw.congr rfl rfl rfl rfl rfl⟩

theorem desLoop_uncut (fuel : Nat) {j : Nat} {t : State} (h : Cut src bits pos m j t) :
    (desLoop fuel (uncut src r ds t)).Uncut src bits pos m r ds (desLoop fuel t) := by
  induction fuel generalizing j t with
  | zero => rfl
  | succ fuel ih =>
    refine (readNode_uncut h).bind fun _ u i hu => ?_
    show Res.Uncut _ _ _ _ _ _ (match u.stk with | [] => _ | _ :: _ => _) (match u.stk with | [] => _ | _ :: _ => _)
    split
    · rename_i hk
      have h0 : ∀ v : State, v.stk = u.stk → closeTree v = { v with root := some 0 } := by
        intro v hv; rw [hk] at hv; simp only [closeTree, hv]
      rw [h0 u rfl, h0 (uncut src r ds u) rfl]
      exact ⟨rfl, i, hu.congr rfl rfl rfl rfl rfl⟩
    · exact ih hu

theorem deserialize_uncut {j : Nat} {t : State} (h : Cut src bits pos m j t) :
    (deserialize (uncut src r ds t)).Uncut src bits pos m r ds (deserialize t) :=
  desLoop_uncut _ (t := { t with node := [], stk := [] }) (h.congr rfl rfl rfl rfl rfl)

theorem descend_uncut (fuel : Nat) {j : Nat} {t : State} (h : Cut src bits pos m j t) :
    (descend fuel (uncut src r ds t)).Uncut src bits pos m r ds (descend fuel t) := by
  induction fuel generalizing j t with
  | zero => rfl
  | succ fuel ih =>
    rw [descend, descend]
    simp only [uncut_cur, uncut_node]
    split
    · rfl
    · split
      · exact ⟨rfl, j, h⟩
      · refine (popBit_uncut h).bind fun b u i hu => ?_
        split
        · rename_i y hy
          exact (ih (t := { u with cur := some y }) (hu.congr rfl rfl rfl rfl rfl)).bind fun _ _ i hv => ⟨rfl, i, hv⟩
        · rfl
      all_goals rfl

/-- Where the cut run starts: at a state whose host serves `m` transfers and fails the next. -/
def cut (m : Nat) (s : State) : State :=
  { s with src := s.src.take (s.srcPos + 8 * m), draws := List.replicate m .serves }

theorem uncut_cut {s : State} (hd : s.draws = List.replicate m .serves ++ .fails r :: ds) :
    uncut s.src r ds (cut m s) = s := by
  simp only [uncut, cut, ← hd]

theorem cut_start {s : State} (hc : s.rdCursor ≤ s.racc.length) (hm : 8 * m < (s.src.drop s.srcPos).length + 8) :
    Cut s.src s.racc s.srcPos m m (cut m s) :=
  ⟨rfl, rfl, Nat.le_refl m, by simp [cut], by simp [cut], hc, hm⟩

theorem unread_cut (s : State) : unread (cut m s) = bitsServed m s := by
  simp only [unread, cut, bitsServed, List.drop_take, Nat.add_sub_cancel_left]
  rfl

/-- Where the cut run has made all its refills. -/
theorem Cut.ended {s t : State} (h : Cut s.src s.racc s.srcPos m 0 t) :
    t.racc = raccServed m s ∧ t.srcPos = s.srcPos + ((s.src.drop s.srcPos).take (8 * m)).length := by
  refine ⟨?_, h.place⟩
  rw [h.racc, raccServed]
  by_cases hm : m = 0
  · simp [hm]
  · rw [if_neg (by omega), if_neg hm]; rfl

theorem serves_cut (s : State) : Serves (cut m s) := fun _ h => List.eq_of_mem_replicate h

/-- The state the failed transfer leaves, where only the reader has moved. -/
theorem Cut.stopped {s t : State} (h : Cut s.src s.racc s.srcPos m 0 t) (hm : ReaderMoved (cut m s) t) :
    { t with src := s.src, draws := ds } = stoppedReading m (t.racc.length - t.rdCursor) ds s := by
  obtain ⟨h1, h2⟩ := h.ended
  have h3 := hm.1
  have h4 : t.rdCursor = (raccServed m s).length - (t.racc.length - t.rdCursor) := by
    have := h.cursor
    rw [← h1]; omega
  generalize hq : t.racc.length - t.rdCursor = q at h4 ⊢
  rw [h1, h2, h4] at h3
  rw [h3]
  rfl

end

/-! ### The frequency pass -/

/-- FREQ.SCAN's loop where the host serves `m` reads and fails the next. -/
theorem freqLoop_fails (m : Nat) {fuel : Nat} {r : List Byte} {ds : List HostDraw} {s : State} (hf : m < fuel)
    (hd : s.draws = List.replicate m .serves ++ .fails r :: ds) (hl : m ≤ (s.src.drop s.srcPos).length)
    (ht : s.total + m < 2 ^ Config.lenW) :
    freqLoop fuel s = .raise .ioError { s with
      draws := ds, freq := counted s.freq ((s.src.drop s.srcPos).take m), total := s.total + m,
      srcPos := s.srcPos + m } := by
  induction m generalizing fuel s with
  | zero =>
    obtain ⟨fuel, rfl⟩ := Nat.exists_eq_add_of_lt hf
    have hd' : s.draws = .fails r :: ds := hd
    rw [Nat.zero_add, freqLoop]
    simp only [srcRead, memRead, hostFails_cons hd', Res.bind_raise, answered, hd', List.tail_cons, List.take_zero,
      counted, Nat.add_zero]
  | succ m ih =>
    obtain ⟨fuel, rfl⟩ := Nat.exists_eq_add_of_lt hf
    rw [List.replicate_succ, List.cons_append] at hd
    obtain ⟨v, vs, hv⟩ := List.exists_cons_of_ne_nil (l := s.src.drop s.srcPos)
      (by intro h; rw [h] at hl; simp at hl)
    have hvs : s.src.drop (s.srcPos + 1) = vs := by rw [← List.drop_drop, hv]; rfl
    rw [freqLoop]
    simp only [srcRead, memRead, hostFails_serves hd, Res.bind_ok, srcBytes, hv, List.take_succ_cons, List.take_zero,
      List.length_singleton, answered, hd, List.tail_cons]
    rw [if_pos (by omega)]
    rw [ih (by omega) rfl (by simp only [hvs]; rw [hv] at hl; simpa using hl) (by simp only; omega)]
    simp only [hvs, counted]
    rw [Nat.add_assoc, Nat.add_comm 1 m, Nat.add_assoc, Nat.add_comm 1 m]

end Sys2Proof.Machine
end

