-- ==== Sys2Proof/Laws/Memory.lean ====
section
/-! SUPPORT. SRC and SINK as cells: the canonical form holds of every byte sequence, so every operation keeps it, and
what a read of one address gives after an append (10_state.md R55, R56). -/

namespace Sys2Proof.Machine

theorem spaceCells_wf (bytes : List Byte) : Memory.wf (spaceCells bytes) := by
  have key : ∀ (bytes : List Byte) (k : Nat),
      ((bytes.zipIdx k).map fun p => (p.2, p.1)).Pairwise (fun a b : Host.Cell => a.1 < b.1) ∧
      ∀ c ∈ (bytes.zipIdx k).map fun p => ((p.2, p.1) : Host.Cell), k ≤ c.1 := by
    intro bytes
    induction bytes with
    | nil => intro k; simp
    | cons v bytes ih =>
      intro k
      obtain ⟨h1, h2⟩ := ih (k + 1)
      simp only [List.zipIdx_cons, List.map_cons, List.pairwise_cons, List.mem_cons]
      refine ⟨⟨fun c hc => ?_, h1⟩, fun c hc => ?_⟩
      · have := h2 c hc; show k < c.1; omega
      · rcases hc with rfl | hc
        · exact Nat.le_refl k
        · have := h2 c hc; omega
  exact (key bytes 0).1

/-- The cell of an address is its byte. -/
theorem mem_spaceCells {bytes : List Byte} {a : Nat} {v : Byte} : (a, v) ∈ spaceCells bytes ↔ bytes[a]? = some v := by
  simp only [spaceCells, List.mem_map, Prod.mk.injEq]
  constructor
  · rintro ⟨⟨w, k⟩, hm, rfl, rfl⟩
    exact (List.mem_zipIdx_iff_getElem?).mp hm
  · intro h
    exact ⟨(v, a), (List.mem_zipIdx_iff_getElem?).mpr h, rfl, rfl⟩

theorem sinkByte_append (s : State) (v : List Byte) (a : Nat) (h : a < s.sink.length) :
    (s.sink ++ v)[a]? = sinkByte a s := List.getElem?_append_left h

end Sys2Proof.Machine
end

