-- ==== Sys2Proof/Laws/PerInstr.lean ====
section
/-! SUPPORT. Statements about every instruction as syntax, one lemma per constructor: how many bits its encoding has
(30_encoding.md R90, R92, R99 to R106; the operand bits of format UOP are log entry 2). -/

namespace Sys2Proof.Laws.Width

/-- The number of bits of an instruction's encoding. -/
def bitsOf : Instr → Nat
  | .nop | .compress | .decompress | .reservedCmd3 => 2
  | .accClear _ | .accIsFull _ => 6 + 1
  | .accPushBit _ _ => 6 + 2
  | .accBitAt _ _ => 6 + 8
  | .wrWriteBits seq => 6 + seq.length
  | .wrWriteByte _ => 6 + 8
  | .heapInsert _ => 6 + 9
  | .wrFlush | .wrFinish | .rdRefill | .rdPopBit | .rdPopByte | .freqScan | .heapExtractMin | .tbLeaves | .tbMerge
  | .tbBuild | .tcSerialize | .tcDeserialize | .ctDerive | .encLen | .encBody | .decLen | .decWalk => 6
  | .len _ => 32
  | .internal => 1
  | .leaf _ => 9
  | .code p => p.length
  | .pad z => z

/-- The encoding has exactly the bits of its format. -/
def Statement (i : Instr) : Prop := (encode i).bits.length = bitsOf i

theorem nop : Statement .nop := rfl

theorem compress : Statement .compress := rfl

theorem decompress : Statement .decompress := rfl

theorem reservedCmd3 : Statement .reservedCmd3 := rfl

theorem accClear (a : Acc) : Statement (.accClear a) := rfl

theorem accIsFull (a : Acc) : Statement (.accIsFull a) := rfl

theorem accPushBit (a : Acc) (b : Bool) : Statement (.accPushBit a b) := rfl

theorem accBitAt (a : Acc) (i : Nat) : Statement (.accBitAt a i) := by simp [Statement, encode, uopEnc, bitsOf, bitsOfNat_length]

theorem wrFlush : Statement .wrFlush := rfl

theorem wrWriteBits (seq : List Bool) : Statement (.wrWriteBits seq) := by simp [Statement, encode, uopEnc, bitsOf, bitsOfNat_length]

theorem wrWriteByte (v : Byte) : Statement (.wrWriteByte v) := by simp [Statement, encode, uopEnc, bitsOf, bitsOfNat_length, byteBits_length]

theorem wrFinish : Statement .wrFinish := rfl

theorem rdRefill : Statement .rdRefill := rfl

theorem rdPopBit : Statement .rdPopBit := rfl

theorem rdPopByte : Statement .rdPopByte := rfl

theorem freqScan : Statement .freqScan := rfl

theorem heapInsert (x : Nat) : Statement (.heapInsert x) := by simp [Statement, encode, uopEnc, bitsOf, bitsOfNat_length]

theorem heapExtractMin : Statement .heapExtractMin := rfl

theorem tbLeaves : Statement .tbLeaves := rfl

theorem tbMerge : Statement .tbMerge := rfl

theorem tbBuild : Statement .tbBuild := rfl

theorem tcSerialize : Statement .tcSerialize := rfl

theorem tcDeserialize : Statement .tcDeserialize := rfl

theorem ctDerive : Statement .ctDerive := rfl

theorem encLen : Statement .encLen := rfl

theorem encBody : Statement .encBody := rfl

theorem decLen : Statement .decLen := rfl

theorem decWalk : Statement .decWalk := rfl

theorem len (l : BitVec 32) : Statement (.len l) := wordBits_length l

theorem internal : Statement .internal := rfl

theorem leaf (sym : Byte) : Statement (.leaf sym) := by simp [Statement, encode, bitsOf, byteBits_length]

theorem code (p : List Bool) : Statement (.code p) := rfl

theorem pad (z : Nat) : Statement (.pad z) := List.length_replicate ..

end Sys2Proof.Laws.Width
end

