-- ==== Sys2Proof/Laws/Tally.lean ====
section
/-! SUPPORT. `WR_TOTAL` counts the bytes an operation stores to SINK (10_state.md R30), where no transfer fails. -/

namespace Sys2Proof.Machine

/-- Where the host serves, SINK has grown by as many bytes as `WR_TOTAL`. -/
def Tally (s t : State) : Prop :=
  Serves s → Serves t ∧ t.sink.length + s.wrTotal = s.sink.length + t.wrTotal ∧ s.wrTotal ≤ t.wrTotal

theorem Tally.refl (s : State) : Tally s s := fun h => ⟨h, rfl, Nat.le_refl _⟩

theorem Tally.trans {s t u : State} (h : Tally s t) (h' : Tally t u) : Tally s u := fun hs => by
  obtain ⟨ht, e, l⟩ := h hs
  obtain ⟨hu, e', l'⟩ := h' ht
  exact ⟨hu, by omega, by omega⟩

/-- Where SINK and `WR_TOTAL` stay. -/
theorem Tally.of_same {s t : State} (h1 : t.sink = s.sink) (h2 : t.wrTotal = s.wrTotal) (h3 : t.draws <:+ s.draws) :
    Tally s t := fun hs => ⟨fun d hd => hs d (h3.subset hd), by rw [h1, h2], by rw [h2]⟩

/-- However an operation ends, the bytes are counted. -/
def Res.Tallies {α : Type} (x : Res α) (s : State) : Prop :=
  match x with
  | .ok _ t => Tally s t
  | .raise _ t => Tally s t
  | .fault _ => True
  | .refused _ => True

namespace Res

variable {α β : Type} {x : Res α} {fs : List Field} {s s' : State} {k : α → State → Res β}

theorem Tallies.after (h : x.Tallies s') (hs : Tally s s') : x.Tallies s := by
  cases x with
  | ok a t => exact hs.trans h
  | raise e t => exact hs.trans h
  | fault f => trivial
  | refused r => trivial

theorem Tallies.bind (h : x.Tallies s) (hk : ∀ a t, (k a t).Tallies t) : (x.bind k).Tallies s := by
  cases x with
  | ok a t => exact (hk a t).after h
  | raise e t => exact h
  | fault f => trivial
  | refused r => trivial

/-- An operation that writes neither SINK nor `WR_TOTAL`. -/
theorem Tallies.of_within (h : x.Within fs s) (hk : x.Keeps s) (h1 : .sink ∉ fs) (h2 : .wrTotal ∉ fs) :
    x.Tallies s := by
  cases x with
  | ok a t => exact .of_same (h .sink h1) (h .wrTotal h2) hk.draws
  | raise e t => exact .of_same (h .sink h1) (h .wrTotal h2) hk.draws
  | fault f => trivial
  | refused r => trivial

end Res

theorem sinkWrite_tally (v : List Byte) (s : State) {k : State → State}
    (hk : ∀ t, (k t).sink = t.sink ∧ (k t).draws = t.draws ∧ (k t).wrTotal = t.wrTotal + v.length) :
    ((sinkWrite v s).bind fun _ t => .ok () (k t)).Tallies s := by
  unfold sinkWrite
  split
  · rename_i r hr
    intro hs
    exact (HostFault.not_serves hs (e := .ioError) (t := s) ⟨rfl, hostFails_draws hr⟩).elim
  · intro hs
    obtain ⟨h1, h2, h3⟩ := hk { answered s with sink := s.sink ++ v }
    refine ⟨fun d hd => hs d ?_, ?_, ?_⟩
    · rw [h2] at hd
      exact List.mem_of_mem_tail hd
    · rw [h1, h3]
      simp
      omega
    · rw [h3]
      exact Nat.le_add_right _ _

theorem flush_tally (s : State) : (flush s).Tallies s := by
  unfold flush
  split
  · exact .of_same rfl rfl List.suffix_rfl
  · exact sinkWrite_tally _ s fun t => ⟨rfl, rfl, rfl⟩

theorem accPushBit_tally (a : Acc) (b : Bool) (s : State) : (accPushBit a b s).Tallies s :=
  .of_within (accPushBit_only a b s) (accPushBit_keeps a b s) (by cases a <;> simp [accField])
    (by cases a <;> simp [accField])

theorem accPushBits_tally (a : Acc) (bits : List Bool) (s : State) : (accPushBits a bits s).Tallies s :=
  .of_within (accPushBits_only a bits s) (accPushBits_keeps a bits s) (by cases a <;> simp [accField])
    (by cases a <;> simp [accField])

theorem writeBits_tally (bits : List Bool) (s : State) : (writeBits bits s).Tallies s := by
  induction bits generalizing s with
  | nil => exact Tally.refl s
  | cons b bits ih =>
    refine Res.Tallies.bind (Res.Tallies.bind (accPushBit_tally .writer b s) fun _ t => ?_) fun _ t => ih t
    split; exacts [flush_tally t, Tally.refl t]

theorem finish_tally (s : State) : (finish s).Tallies s :=
  (accPushBits_tally .writer _ s).bind fun _ t => (flush_tally t).bind fun _ u => Tally.refl u

theorem writeLength_tally (s : State) : (writeLength s).Tallies s :=
  (writeBits_tally _ s).bind fun _ t => (writeBits_tally _ t).bind fun _ u => (writeBits_tally _ u).bind
    fun _ v => writeBits_tally _ v

theorem serialize_tally (s : State) : (serialize s).Tallies s := by
  have loop : ∀ (fuel : Nat) (s : State), (serLoop fuel s).Tallies s := by
    intro fuel
    induction fuel with
    | zero => intro s; rw [serLoop]; split; exacts [Tally.refl s, trivial]
    | succ fuel ih =>
      intro s
      have same : ∀ st, Tally s { s with stk := st } := fun st => .of_same rfl rfl List.suffix_rfl
      rw [serLoop]
      split
      · exact Tally.refl s
      · split
        · exact Res.Tallies.bind ((writeBits_tally _ _).after (same _)) fun _ t =>
            (writeBits_tally _ t).bind fun _ u => ih u
        · exact Res.Tallies.bind ((writeBits_tally _ _).after (same _)) fun _ t =>
            (ih _).after (.of_same rfl rfl List.suffix_rfl)
        all_goals trivial
      all_goals trivial
  unfold serialize
  split
  · trivial
  · exact (loop _ _).after (.of_same rfl rfl List.suffix_rfl)

theorem codeSymbol_tally (s : State) : (codeSymbol s).Tallies s := by
  refine Res.Tallies.bind (.of_within (srcRead_only 1 s) (srcRead_keeps 1 s) (by simp) (by simp)) fun d t => ?_
  split
  · trivial
  · split
    · exact (writeBits_tally _ t).bind fun _ u => .of_same rfl rfl List.suffix_rfl
    · trivial
    · trivial

theorem walk_tally (s : State) : (walk s).Tallies s := by
  unfold walk
  split
  · trivial
  · exact Res.Tallies.bind ((Res.Tallies.of_within (descend_only _ _) (descend_keeps _ _) (by simp) (by simp)).after
      (.of_same rfl rfl List.suffix_rfl)) fun pv t => by
        have := sinkWrite_tally [pv.2] t (k := fun u => { u with wrTotal := u.wrTotal + 1, outcnt := u.outcnt + 1 })
          fun u => ⟨rfl, rfl, rfl⟩
        revert this
        cases sinkWrite [pv.2] t <;> exact id

theorem readCodeToken_tally (p : List Bool) (s : State) : (readCodeToken p s).Tallies s :=
  (walk_tally s).bind fun _ t => by split; exacts [Tally.refl t, trivial]

end Sys2Proof.Machine
end

