-- ==== Sys2Proof/Tests/Slice0.lean ====
section
/-! SUPPORT. The model's own tests: ill-formed terms are refused, a word written out from the spec's encoding decodes for
every constructor, one step of every instruction against the examples and vectors of spec/ (named at each test), and
for every statement with hypotheses a state that meets them. -/

namespace Sys2Proof.Tests

open Sys2Proof.Machine

/-! ### Well-formedness -/

theorem test_wf_bitat : (Instr.accBitAt .writer 128).wellFormed = false := by decide
theorem test_wf_heapInsert : (Instr.heapInsert 511).wellFormed = false := by decide
theorem test_wf_code : (Instr.code (List.replicate 256 true)).wellFormed = false := by
  decide +kernel
theorem test_wf_pad : (Instr.pad 8).wellFormed = false := by decide

/-! ### Decoding: words written out from 30_encoding.md R90, R92, R96, R99 to R106, bit 0 of an id first -/

theorem test_decode_nop : decode ⟨.cmd, [false, false]⟩ =
    .ok .nop := by rfl
theorem test_decode_compress : decode ⟨.cmd, [true, false]⟩ =
    .ok .compress := by rfl
theorem test_decode_decompress : decode ⟨.cmd, [false, true]⟩ =
    .ok .decompress := by rfl
theorem test_decode_reservedCmd3 : decode ⟨.cmd, [true, true]⟩ =
    .ok .reservedCmd3 := by rfl
theorem test_decode_accClear : decode ⟨.uop, [false, false, false, false, false, false, true]⟩ =
    .ok (.accClear .reader) := by rfl
theorem test_decode_accIsFull : decode ⟨.uop, [true, false, false, false, false, false, false]⟩ =
    .ok (.accIsFull .writer) := by rfl
theorem test_decode_accPushBit : decode ⟨.uop, [false, true, false, false, false, false, true, true]⟩ =
    .ok (.accPushBit .reader true) := by rfl
theorem test_decode_accBitAt : decode ⟨.uop, [true, true, false, false, false, false, false, true, false, false, false, false, false, true]⟩ =
    .ok (.accBitAt .writer 65) := by rfl
theorem test_decode_wrFlush : decode ⟨.uop, [false, false, true, false, false, false]⟩ =
    .ok .wrFlush := by rfl
theorem test_decode_wrWriteBits : decode ⟨.uop, [true, false, true, false, false, false, true, true, false]⟩ =
    .ok (.wrWriteBits [true, true, false]) := by rfl
theorem test_decode_wrWriteByte : decode ⟨.uop, [false, true, true, false, false, false, true, false, false, false, false, false, true, false]⟩ =
    .ok (.wrWriteByte 0x41#8) := by rfl
theorem test_decode_wrFinish : decode ⟨.uop, [true, true, true, false, false, false]⟩ =
    .ok .wrFinish := by rfl
theorem test_decode_rdRefill : decode ⟨.uop, [false, false, false, true, false, false]⟩ =
    .ok .rdRefill := by rfl
theorem test_decode_rdPopBit : decode ⟨.uop, [true, false, false, true, false, false]⟩ =
    .ok .rdPopBit := by rfl
theorem test_decode_rdPopByte : decode ⟨.uop, [false, true, false, true, false, false]⟩ =
    .ok .rdPopByte := by rfl
theorem test_decode_freqScan : decode ⟨.uop, [false, false, false, false, true, false]⟩ =
    .ok .freqScan := by rfl
theorem test_decode_heapInsert : decode ⟨.uop, [false, false, false, true, true, false, false, true, false, false, false, false, false, false, true]⟩ =
    .ok (.heapInsert 258) := by rfl
theorem test_decode_heapExtractMin : decode ⟨.uop, [true, false, false, true, true, false]⟩ =
    .ok .heapExtractMin := by rfl
theorem test_decode_tbLeaves : decode ⟨.uop, [false, true, false, true, true, false]⟩ =
    .ok .tbLeaves := by rfl
theorem test_decode_tbMerge : decode ⟨.uop, [true, true, false, true, true, false]⟩ =
    .ok .tbMerge := by rfl
theorem test_decode_tbBuild : decode ⟨.uop, [false, false, true, true, true, false]⟩ =
    .ok .tbBuild := by rfl
theorem test_decode_tcSerialize : decode ⟨.uop, [false, false, false, false, false, true]⟩ =
    .ok .tcSerialize := by rfl
theorem test_decode_tcDeserialize : decode ⟨.uop, [true, false, false, false, false, true]⟩ =
    .ok .tcDeserialize := by rfl
theorem test_decode_ctDerive : decode ⟨.uop, [false, false, false, true, false, true]⟩ =
    .ok .ctDerive := by rfl
theorem test_decode_encLen : decode ⟨.uop, [false, false, false, false, true, true]⟩ =
    .ok .encLen := by rfl
theorem test_decode_encBody : decode ⟨.uop, [true, false, false, false, true, true]⟩ =
    .ok .encBody := by rfl
theorem test_decode_decLen : decode ⟨.uop, [false, true, false, false, true, true]⟩ =
    .ok .decLen := by rfl
theorem test_decode_decWalk : decode ⟨.uop, [true, true, false, false, true, true]⟩ =
    .ok .decWalk := by rfl
theorem test_decode_len : decode ⟨.lenTok, [false, true, false, true, false, false, false, false, false, false, false, false, false, false, false, false, false, false, false, false, false, false, false, false, false, false, false, false, false, false, false, false]⟩ =
    .ok (.len 10#32) := by rfl
theorem test_decode_internal : decode ⟨.nodeTok, [false]⟩ =
    .ok .internal := by rfl
theorem test_decode_leaf : decode ⟨.nodeTok, [true, true, false, false, false, false, false, true, false]⟩ =
    .ok (.leaf 0x41#8) := by rfl
theorem test_decode_code : decode ⟨.codeTok, [true, false]⟩ =
    .ok (.code [true, false]) := by rfl
theorem test_decode_pad : decode ⟨.padTok, [false, false, false]⟩ =
    .ok (.pad 3) := by rfl

/-- `OPID` 001011 names nothing (R92). -/
theorem test_decode_noOpid : decode ⟨.uop, [true, true, false, true, false, false]⟩ = .error (.noSuchOpid 11) := by rfl
/-- Padding bits are zero (R106). -/
theorem test_decode_badPad : decode ⟨.padTok, [true]⟩ = .error .badPad := by rfl
/-- A leaf has eight symbol bits (R102). -/
theorem test_decode_shortLeaf : decode ⟨.nodeTok, [true, false]⟩ = .error .badNodeToken := by rfl
/-- `HEAP.INSERT 511`: no such entry (10_state.md R49). -/
theorem test_decode_noNode : decode ⟨.uop, [false, false, false, true, true, false, true, true, true, true, true, true, true, true, true]⟩ = .error (.noSuchNode 511) := by rfl
theorem test_tableWord_compress : decodeTableWord 8 1 = some .compress := by rfl
theorem test_tableWord_walk : decodeTableWord 8 0x33 = some .decWalk := by rfl

/-! ### One step of each instruction -/

/-- What `f` reads of the next state; `none` where the machine stops. -/
def after {α : Type} (o : Host.Outcome State Fault Refusal) (f : State → α) : Option α :=
  match o with
  | .next t => some (f t)
  | .fault _ => none
  | .refused _ => none

/-- A writer that holds these bits. -/
def holding (bits : List Bool) : State := { State.reset with wacc := bits }

/-- A core with this source. -/
def reading (src : List Byte) : State := { State.reset with src := src }

/-- "AAAAABBBCC" (95_test_vectors.md S1). -/
def sample : List Byte := [0x41#8, 0x41#8, 0x41#8, 0x41#8, 0x41#8, 0x42#8, 0x42#8, 0x42#8, 0x43#8, 0x43#8]

/-- The leaves of "AAAAABBBCC" and its heap (42_treebuilder.md R161). -/
def built : State :=
  { State.reset with node := [.leaf 0x41#8 5, .leaf 0x42#8 3, .leaf 0x43#8 2], heap := [2, 0, 1], n := 3 }

/-- The tree of "AAAAABBBCC" (95_test_vectors.md T36). -/
def whole : State :=
  { State.reset with
    node := [.leaf 0x41#8 5, .leaf 0x42#8 3, .leaf 0x43#8 2, .internal 5 (some 2) (some 1),
      .internal 10 (some 0) (some 3)]
    n := 3
    root := some 4 }

/-- The counts of "AAAAABBBCC". -/
def counts : List Nat := ((List.replicate 256 0).set 0x41 5 |>.set 0x42 3) |>.set 0x43 2

/-- R90, R96. -/
theorem test_nop : exec .nop (holding [true]) = .next (holding [true]) := by rfl
theorem test_reservedCmd3 : exec .reservedCmd3 (holding [true]) = .next (holding [true]) := by rfl
/-- 10_state.md R44: accepted, and ignored while busy. -/
theorem test_compress : after (exec .compress (holding [true])) (fun t => (t.phase, t.wacc, t.freq.length)) =
    some (.cFreq, [], 256) := by decide +kernel
theorem test_decompress_busy : after (exec .decompress { State.reset with phase := .cFin }) (fun t => t.phase) =
    some .cFin := by rfl
theorem test_decompress : after (exec .decompress { State.reset with phase := .error, err := some .ioError })
    (fun t => (t.phase, t.err)) = some (.dLen, none) := by rfl
/-- T1. -/
theorem test_accClear : after (exec (.accClear .writer) (holding [true, false])) (fun t => t.wacc) = some [] := by
  rfl
/-- T10, T5. -/
theorem test_accIsFull_63 : after (exec (.accIsFull .writer) (holding (List.replicate 63 true))) (fun t => t.ret) =
    some (.bit false) := by rfl
theorem test_accIsFull_64 : after (exec (.accIsFull .writer) (holding (List.replicate 64 true))) (fun t => t.ret) =
    some (.bit true) := by rfl
/-- T2, T6. -/
theorem test_accPushBit : after (exec (.accPushBit .writer true) (holding [false])) (fun t => t.wacc) =
    some [false, true] := by rfl
theorem test_accPushBit_full : after (exec (.accPushBit .reader true) { State.reset with racc := List.replicate 64 true })
    (fun t => (t.phase, t.err, t.racc.length)) = some (.error, some .capacityExceeded, 64) := by rfl
/-- T7, T8. -/
theorem test_accBitAt : after (exec (.accBitAt .writer 1) (holding [true, false, true])) (fun t => t.ret) =
    some (.bit false) := by rfl
theorem test_accBitAt_out : after (exec (.accBitAt .writer 3) (holding [true, false, true]))
    (fun t => (t.phase, t.err)) = some (.error, some .outOfRange) := by rfl

/-- R128's example: 0a 00 00 00 06 39 54 08. -/
theorem test_wrFlush : after (exec .wrFlush (holding [false, true, false, true, false, false, false, false, false, false, false, false, false, false, false, false, false, false, false, false, false, false, false, false, false, false, false, false, false, false, false, false, false, true, true, false, false, false, false, false, true, false, false, true, true, true, false, false, false, false, true, false, true, false, true, false, false, false, false, true, false, false, false, false]))
    (fun t => (t.sink, t.wrTotal, t.wacc)) =
    some ([0x0a#8, 0x00#8, 0x00#8, 0x00#8, 0x06#8, 0x39#8, 0x54#8, 0x08#8], 8, []) := by rfl
/-- The host fails the write (R128, 60_exceptions.md R243). -/
theorem test_wrFlush_fails : after (exec .wrFlush { holding (List.replicate 8 true) with draws := [.fails [7#8]] })
    (fun t => (t.err, t.sink, t.wrTotal, t.wacc.length)) = some (some .ioError, [7#8], 0, 8) := by rfl

/-- R129's example. -/
theorem test_wrWriteBits : after (exec (.wrWriteBits [true, false, true]) (holding (List.replicate 62 true)))
    (fun t => (t.sink.length, t.wrTotal, t.wacc)) = some (8, 8, [true]) := by rfl
/-- R130's second example: 0x83 and a 0. -/
theorem test_wrWriteByte : after (exec (.wrWriteByte 0x41#8) (holding [true])) (fun t => t.wacc) =
    some [true, true, false, false, false, false, false, true, false] := by rfl
/-- R131's example: fc 05. -/
theorem test_wrFinish : after (exec .wrFinish { holding [false, false, true, true, true, true, true, true, true, false, true, false] with wrTotal := 8 })
    (fun t => (t.sink, t.wrTotal, t.wacc, t.ret)) = some ([0xfc#8, 0x05#8], 10, [], .count 10) := by rfl
/-- T18. -/
theorem test_wrFinish_63 : after (exec .wrFinish (holding (List.replicate 63 true)))
    (fun t => (t.sink, t.ret)) =
    some ([0xff#8, 0xff#8, 0xff#8, 0xff#8, 0xff#8, 0xff#8, 0xff#8, 0x7f#8], .count 8) := by rfl
/-- R137's example. -/
theorem test_rdRefill : after (exec .rdRefill (reading [0x01#8, 0x00#8, 0x00#8, 0x00#8, 0x83#8, 0x00#8]))
    (fun t => (t.racc.length, t.rdCursor, t.srcPos)) = some (48, 0, 6) := by rfl
theorem test_rdRefill_empty : after (exec .rdRefill (reading [])) (fun t => t.err) = some (some .endOfInput) := by rfl
/-- T21, T24. -/
theorem test_rdPopBit : after (exec .rdPopBit (reading [0xa5#8, 0x3c#8])) (fun t => (t.ret, t.rdCursor, t.srcPos)) =
    some (.bit true, 1, 2) := by rfl
theorem test_rdPopBit_empty : after (exec .rdPopBit (reading [])) (fun t => (t.err, t.srcPos)) =
    some (some .endOfInput, 0) := by rfl
/-- T26: the byte 0xa5 after three bits of 2b 05. -/
theorem test_rdPopByte : after (exec .rdPopByte { reading [0x2b#8, 0x05#8] with
      racc := bytesBits [0x2b#8, 0x05#8], rdCursor := 3, srcPos := 2 }) (fun t => (t.ret, t.rdCursor)) =
    some (.byte 0xa5#8, 11) := by rfl
/-- T25: the second refill, of one byte. -/
theorem test_rdPopByte_refill : after (exec .rdPopByte { reading [1#8, 2#8, 3#8, 4#8, 5#8, 6#8, 7#8, 8#8, 9#8] with
      racc := List.replicate 64 true, rdCursor := 64, srcPos := 8 }) (fun t => (t.ret, t.rdCursor, t.srcPos)) =
    some (.byte 9#8, 8, 9) := by rfl
/-- T32. -/
theorem test_freqScan : after (exec .freqScan (reading sample))
    (fun t => (t.freq[0x41]?, t.freq[0x42]?, t.freq[0x43]?, t.freq[0x44]?, t.total)) =
    some (some 5, some 3, some 2, some 0, 10) := by
  decide +kernel
/-- T36 step 3, and 20_memory.md R84. -/
theorem test_heapInsert : after (exec (.heapInsert 2) { built with heap := [1, 0] }) (fun t => t.heap) =
    some [2, 0, 1] := by rfl
theorem test_heapInsert_noNode : exec (.heapInsert 3) built = .fault .nodeIndex := by rfl
/-- R166's example, and the left child on a tie. -/
theorem test_heapExtractMin : after (exec .heapExtractMin built) (fun t => (t.heap, t.ret)) =
    some ([1, 0], .node 2) := by rfl
theorem test_heapExtractMin_tie : after (exec .heapExtractMin { State.reset with
      node := [.leaf 0#8 1, .leaf 1#8 2, .leaf 2#8 2, .leaf 3#8 3], heap := [0, 1, 2, 3] })
    (fun t => (t.heap, t.ret)) = some ([1, 3, 2], .node 0) := by rfl
/-- R161's example. -/
theorem test_tbLeaves : after (exec .tbLeaves { State.reset with freq := counts })
    (fun t => (t.node, t.heap, t.n)) = some (built.node, [2, 0, 1], 3) := by
  decide +kernel
/-- R169's example. -/
theorem test_tbMerge : after (exec .tbMerge built) (fun t => (t.node[3]?, t.heap)) =
    some (some (.internal 5 (some 2) (some 1)), [0, 3]) := by rfl
/-- T36. -/
theorem test_tbBuild : after (exec .tbBuild { State.reset with freq := counts })
    (fun t => (t.node, t.heap, t.n, t.root)) = some (whole.node, [], 3, some 4) := by
  decide +kernel
/-- T49. -/
theorem test_tcSerialize : after (exec .tcSerialize whole) (fun t => (t.wacc, t.stk)) =
    some ([false, true, true, false, false, false, false, false, true, false, false, true, true, true, false, false, false, false, true, false, true, false, true, false, false, false, false, true, false], []) := by rfl
/-- T49: preorder indices, weights 0. -/
theorem test_tcDeserialize : after (exec .tcDeserialize { State.reset with
      racc := [false, true, true, false, false, false, false, false, true, false, false, true, true, true, false, false, false, false, true, false, true, false, true, false, false, false, false, true, false] })
    (fun t => (t.node, t.root, t.rdCursor)) =
    some ([.internal 0 (some 1) (some 2), .leaf 0x41#8 0, .internal 0 (some 3) (some 4), .leaf 0x43#8 0,
      .leaf 0x42#8 0], some 0, 29) := by rfl
/-- The flag bit is popped, then the store is full (60_exceptions.md R247). -/
theorem test_tcDeserialize_empty : after (exec .tcDeserialize (reading [])) (fun t => (t.err, t.root)) =
    some (some .endOfInput, none) := by rfl
/-- T51. -/
theorem test_ctDerive : after (exec .ctDerive whole)
    (fun t => (t.code[0x41]?, t.code[0x42]?, t.code[0x43]?, t.code[0x44]?)) =
    some (some (some [false]), some (some [true, true]), some (some [true, false]), some none) := by rfl
/-- R207's second example, through the writer's accumulator. -/
theorem test_encLen : after (exec .encLen { State.reset with l := 0x01020304#32 }) (fun t => fullBytes t.wacc) =
    some [0x04#8, 0x03#8, 0x02#8, 0x01#8] := by rfl
/-- R208: the symbol "C" writes `10`. -/
theorem test_encBody : after (exec .encBody { reading sample with
      srcPos := 9, outcnt := 9, code := (List.replicate 256 none).set 0x43 (some [true, false]) })
    (fun t => (t.wacc, t.srcPos, t.outcnt)) = some ([true, false], 10, 10) := by rfl
/-- R212's example. -/
theorem test_decLen : after (exec .decLen (reading [0x0a#8, 0x00#8, 0x00#8, 0x00#8])) (fun t => t.l) =
    some 10#32 := by rfl
theorem test_decLen_short : after (exec .decLen (reading [0x0a#8, 0x00#8, 0x00#8])) (fun t => t.err) =
    some (some .endOfInput) := by rfl
/-- R214's example, on the tree of T49. -/
theorem test_decWalk : after (exec .decWalk { State.reset with
      node := [.internal 0 (some 1) (some 2), .leaf 0x41#8 0, .internal 0 (some 3) (some 4), .leaf 0x43#8 0,
        .leaf 0x42#8 0]
      root := some 0
      racc := [true, true, false] }) (fun t => (t.sink, t.rdCursor, t.cur, t.wrTotal)) =
    some ([0x42#8], 2, some 4, 1) := by rfl
/-- R216: the degenerate tree pops nothing. -/
theorem test_decWalk_leaf : after (exec .decWalk { State.reset with node := [.leaf 0x5a#8 0], root := some 0 })
    (fun t => (t.sink, t.rdCursor)) = some ([0x5a#8], 0) := by rfl
/-- The tokens, written and read (log entry 4; R99, R101, R102, R105, R106). -/
theorem test_len : after (exec (.len 10#32) State.reset) (fun t => fullBytes t.wacc) =
    some [0x0a#8, 0x00#8, 0x00#8, 0x00#8] := by rfl
theorem test_len_read : after (exec (.len 10#32) { reading [0x0a#8, 0x00#8, 0x00#8, 0x00#8] with phase := .dLen })
    (fun t => t.l) = some 10#32 := by rfl
theorem test_internal : after (exec .internal State.reset) (fun t => t.wacc) = some [false] := by rfl
theorem test_internal_read : after (exec .internal { reading [0x06#8] with phase := .dTree }) (fun t => (t.node, t.stk)) =
    some ([.internal 0 none none], [.build 0 false]) := by rfl
theorem test_leaf : after (exec (.leaf 0x41#8) State.reset) (fun t => t.wacc) =
    some [true, true, false, false, false, false, false, true, false] := by rfl
theorem test_leaf_read : after (exec (.leaf 0x41#8) { reading [0x83#8, 0x00#8] with phase := .dTree })
    (fun t => (t.node, t.root)) = some ([.leaf 0x41#8 0], some 0) := by rfl
theorem test_code : after (exec (.code [true, false]) State.reset) (fun t => t.wacc) = some [true, false] := by rfl
theorem test_pad : after (exec (.pad 3) (holding [true])) (fun t => t.wacc) =
    some [true, false, false, false] := by rfl

/-! ### The host's steps -/

/-- `STATUS` after an abort with `EndOfInput` is 0x0b (95_test_vectors.md). -/
theorem test_read_status : after (step { State.reset with phase := .error, err := some .endOfInput, script := [.read .status] })
    (fun t => t.ret) = some (.word 0x0b#64) := by rfl
theorem test_bind_busy : step { State.reset with phase := .cFreq, script := [.bind [] []] } = .refused .bindWhileBusy := by
  rfl
theorem test_reset_running : after (step { State.reset with phase := .dWalk, outcnt := 3, sink := [1#8], script := [.reset] })
    (fun t => (t.phase, t.outcnt, t.sink)) = some (.idle, 0, [1#8]) := by rfl
theorem test_withFetchWord : after (step (State.reset.withFetchWord 8 1)) (fun t => t.phase) = some .cFreq := by rfl

/-! ### Witnesses: for each statement with hypotheses, states and operands that meet them -/

theorem serves_reset : Serves State.reset := fun d hd => by cases hd

theorem serves_of {s : State} (h : s.draws = []) : Serves s := fun d hd => by rw [h] at hd; cases hd

/-- The tree of T49. -/
def tree : Tree := .node (.leaf 0x41#8) (.node (.leaf 0x43#8) (.leaf 0x42#8))

theorem holds_whole : Holds whole.node 4 tree := ⟨10, 0, 3, rfl, ⟨5, rfl⟩, 5, 2, 1, rfl, ⟨2, rfl⟩, ⟨3, rfl⟩⟩

theorem tree_nodup : tree.leaves.Nodup := by decide

/-- A reader with these bits still to read. -/
def toRead (bits : List Bool) : State := { State.reset with racc := bits }

theorem unread_toRead (bits : List Bool) : unread (toRead bits) = bits ++ [] := rfl

/-- The largest operands of each range. -/
theorem witness_DecodeEncodeRoundTrip : (Instr.accBitAt .reader 127).wellFormed = true ∧
    (Instr.heapInsert 510).wellFormed = true ∧ (Instr.code (List.replicate 255 true)).wellFormed = true ∧
    (Instr.pad 7).wellFormed = true := by decide +kernel

theorem witness_DecodedWordsAreEncodings : ∃ i, decode ⟨.uop, [false, false, false, true, false, true]⟩ = .ok i :=
  ⟨.ctDerive, rfl⟩

theorem witness_UnknownOperationIdsRefused :
    63 ∉ [0, 1, 2, 3, 4, 5, 6, 7, 8, 9, 10, 16, 24, 25, 26, 27, 28, 32, 33, 40, 48, 49, 50, 51] ∧
    11 ∉ [0, 1, 2, 3, 4, 5, 6, 7, 8, 9, 10, 16, 24, 25, 26, 27, 28, 32, 33, 40, 48, 49, 50, 51] ∧
    step { State.reset with script := [.issue ⟨.uop, bitsOfNat 6 63 ++ []⟩] } =
      .refused (.undefinedEncoding (.noSuchOpid 63)) := ⟨by decide, by decide, rfl⟩

theorem witness_StepRunsDecodedWord :
    decode ⟨.uop, [true, false, false, true, false, false]⟩ = .ok .rdPopBit ∧
    decode ⟨.cmd, [(2#64).getLsbD 0, (2#64).getLsbD 1]⟩ = .ok .decompress ∧
    decodeTableWord 8 0x10 = some .freqScan := ⟨rfl, rfl, rfl⟩

/-- A core in a phase, with a heap and a count of symbols done of two. -/
def inPhase (p : Phase) (heap : List Nat) (done : Nat) : State :=
  { State.reset with phase := p, heap := heap, outcnt := done, l := 2#32 }

theorem witness_SequencerRunsThePhase :
    (inPhase .cMerge [0, 1] 0).script = [] ∧ 1 < (inPhase .cMerge [0, 1] 0).heap.length ∧
    (inPhase .cMerge [0] 0).heap.length ≤ 1 ∧ (inPhase .cBody [] 1).outcnt < (inPhase .cBody [] 1).l.toNat ∧
    (inPhase .dWalk [] 1).outcnt < (inPhase .dWalk [] 1).l.toNat ∧
    { State.reset with script := [.quiet] }.script = Line.quiet :: [] := by decide

/-- Steps of busy cores whose host does nothing: the length read is 0 and is not, the last symbol is out, the root is
extracted, an abort. -/
theorem witness_SequencerTransitions :
    busy { reading [0#8, 0#8, 0#8, 0#8] with phase := .dLen } = true ∧
    after (step { reading [0#8, 0#8, 0#8, 0#8] with phase := .dLen }) (fun t => t.phase) = some .done ∧
    after (step { reading [1#8, 0#8, 0#8, 0#8] with phase := .dLen }) (fun t => t.phase) = some .dTree ∧
    after (step (inPhase .dWalk [] 2)) (fun t => t.phase) = some .done ∧
    after (step (inPhase .cBody [] 2)) (fun t => t.phase) = some .cFin ∧
    after (step { whole with phase := .cMerge, heap := [4], root := none }) (fun t => (t.phase, t.root)) =
      some (.cSer, some 4) ∧
    after (step { built with phase := .cMerge }) (fun t => t.phase) = some .cMerge ∧
    after (step { reading [] with phase := .dLen }) (fun t => (t.phase, t.err)) = some (.error, some .endOfInput) :=
  ⟨rfl, rfl, rfl, rfl, rfl, rfl, rfl, rfl⟩

theorem witness_HostRegisterAccess :
    { State.reset with script := [.read .cmd] }.script = [Line.read .cmd] ∧
    { State.reset with script := [.read .status] }.script = [Line.read .status] ∧
    { State.reset with script := [.read .result] }.script = [Line.read .result] ∧
    { State.reset with script := [.write .status 5#64] }.script = [Line.write .status 5#64] := ⟨rfl, rfl, rfl, rfl⟩

theorem witness_HardwareReset : (State.reset = State.reset) ∧ hardReset whole = hardReset whole ∧
    (hardReset whole).script = [] ∧ hardReset whole ≠ whole := by decide

theorem witness_ResetAndBindLines : { whole with script := [.reset] }.script = [Line.reset] ∧
    { whole with script := [.bind [1#8] []] }.script = [Line.bind [1#8] []] ∧ whole.phase = .idle ∧
    { State.reset with phase := .error }.phase = .error ∧ (inPhase .dWalk [] 0).phase ≠ .idle ∧
    (inPhase .dWalk [] 0).phase ≠ .done ∧ (inPhase .dWalk [] 0).phase ≠ .error ∧
    after (step { whole with script := [.reset], src := [1#8] }) (fun t => (t.src, t.node)) = some ([1#8], []) ∧
    step { inPhase .dWalk [] 0 with script := [.bind [1#8] []] } = .refused .bindWhileBusy :=
  ⟨rfl, rfl, rfl, rfl, by decide, by decide, by decide, rfl, rfl⟩

/-- A source of that many zero bytes. -/
theorem zeros_length (n : Nat) : (reading (List.replicate n 0#8)).src.length = n := List.length_replicate ..

theorem zeros_phase (n : Nat) : (reading (List.replicate n 0#8)).phase = .idle := rfl

theorem zeros_serves (n : Nat) : Serves (reading (List.replicate n 0#8)) := serves_of rfl

theorem zeros_drop (n : Nat) : ((reading (List.replicate n 0#8)).src.drop (reading (List.replicate n 0#8)).srcPos).length = n :=
  List.length_replicate ..

theorem scanned_source (n : Nat) : ∃ s : State, Serves s ∧ (s.src.drop s.srcPos).length < n + 1 ∧
    n + 1 ≤ (s.src.drop s.srcPos).length + 1 :=
  ⟨reading (List.replicate n 0#8), zeros_serves n, Nat.lt_succ_of_le (Nat.le_of_eq (zeros_drop n)),
    Nat.succ_le_succ (Nat.le_of_eq (zeros_drop n).symm)⟩

theorem long_source (n : Nat) : ∃ s : State, Serves s ∧ n ≤ (s.src.drop s.srcPos).length :=
  ⟨reading (List.replicate n 0#8), zeros_serves n, Nat.le_of_eq (zeros_drop n).symm⟩

theorem accepted_source (n : Nat) : ∃ s : State, s.phase = .idle ∧ s.src.length ≤ n ∧ n ≤ s.src.length :=
  ⟨reading (List.replicate n 0#8), zeros_phase n, Nat.le_of_eq (zeros_length n), Nat.le_of_eq (zeros_length n).symm⟩

theorem refused_source (n : Nat) : ∃ s : State, s.phase = .error ∧ n ≤ s.src.length :=
  ⟨{ reading (List.replicate n 0#8) with phase := .error }, rfl, Nat.le_of_eq (zeros_length n).symm⟩

theorem witness_CommandAccepted : (∃ s : State, s.phase = .idle ∧ s.src.length ≤ 2 ^ 32 - 1 ∧
      2 ^ 32 - 1 ≤ s.src.length) ∧ (∃ s : State, s.phase = .error ∧ 2 ^ 32 ≤ s.src.length) ∧
    ∃ s : State, s.phase = .done :=
  ⟨accepted_source _, refused_source _, { State.reset with phase := .done }, rfl⟩

theorem witness_CommandIgnoredWhileBusy : (inPhase .cFreq [] 0).phase ≠ .idle ∧ (inPhase .cFreq [] 0).phase ≠ .done ∧
    (inPhase .cFreq [] 0).phase ≠ .error := by decide

theorem witness_NopAndReservedChangeNothing : decode ⟨.cmd, [true, true]⟩ = .ok .reservedCmd3 := rfl

theorem witness_AccPushBit : (acc .writer (holding (List.replicate 64 true))).length = 64 ∧
    (acc .writer (holding (List.replicate 63 true))).length < 64 := by decide

theorem witness_AccBitAt : 2 < (acc .writer (holding [true, false, true])).length ∧
    (acc .writer (holding [true, false, true])).length ≤ 3 := by decide

theorem witness_WriterFlush : Serves (holding (List.replicate 8 true)) ∧
    0 < (holding (List.replicate 8 true)).wacc.length / 8 ∧ 8 ≤ (holding (List.replicate 8 true)).wacc.length ∧
    { holding (List.replicate 8 true) with draws := [.fails []] }.draws = HostDraw.fails [] :: [] :=
  ⟨serves_of rfl, by decide, by decide, rfl⟩

theorem witness_WriterAppends : Serves (holding (List.replicate 63 true)) ∧
    (holding (List.replicate 63 true)).wacc.length < 64 := ⟨serves_of rfl, by decide⟩

theorem witness_WriterFinish : Serves (holding (List.replicate 63 true)) ∧
    (holding (List.replicate 63 true)).wacc.length < 64 := witness_WriterAppends

theorem witness_TokensWritten : Serves (holding (List.replicate 57 true)) ∧
    (holding (List.replicate 57 true)).wacc.length < 64 ∧ (holding (List.replicate 57 true)).phase ≠ .dLen ∧
    (holding (List.replicate 57 true)).phase ≠ .dTree ∧ (holding (List.replicate 57 true)).phase ≠ .dWalk ∧
    (holding (List.replicate 57 true)).wacc.length + 7 ≤ 64 := ⟨serves_of rfl, by decide⟩

theorem witness_ReaderRefill : Serves (reading [1#8]) ∧ (reading [1#8]).srcPos < (reading [1#8]).src.length ∧
    { reading [1#8] with srcPos := 1 }.src.length ≤ 1 ∧
    { reading [1#8] with draws := [.fails []] }.draws = HostDraw.fails [] :: [] :=
  ⟨serves_of rfl, by decide, by decide, rfl⟩

theorem witness_ReaderPops : Serves (toRead [true]) ∧ (toRead [true]).rdCursor ≤ (toRead [true]).racc.length ∧
    unread (toRead [true]) = true :: [] ∧ unread (toRead []) = [] ∧
    unread (toRead (List.replicate 8 true)) = [(255#8).getLsbD 0, (255#8).getLsbD 1, (255#8).getLsbD 2,
      (255#8).getLsbD 3, (255#8).getLsbD 4, (255#8).getLsbD 5, (255#8).getLsbD 6, (255#8).getLsbD 7] ++ [] ∧
    (unread (toRead (List.replicate 7 true))).length < 8 :=
  ⟨serves_of rfl, by decide, rfl, rfl, rfl, by decide⟩

theorem witness_FrequencyPass : (∃ s : State, Serves s ∧ (s.src.drop s.srcPos).length < 2 ^ 32 ∧
      2 ^ 32 ≤ (s.src.drop s.srcPos).length + 1) ∧
    ∃ s : State, Serves s ∧ 2 ^ 32 ≤ (s.src.drop s.srcPos).length :=
  ⟨scanned_source (2 ^ 32 - 1), long_source _⟩

/-- A core with one leaf and a heap of that many references to it. -/
def crowded (k : Nat) : State := { State.reset with node := [.leaf 0#8 1], heap := List.replicate k 0 }

theorem crowded_ordered (k : Nat) : HeapOrdered (crowded k).node (crowded k).heap := by
  have h0 : ∀ x ∈ (crowded k).heap, x = 0 := fun x hx => (List.mem_replicate.1 hx).2
  refine ⟨fun x hx => by rw [h0 x hx]; rfl, fun j p c _ hp hc => ?_⟩
  rw [h0 p (List.mem_of_getElem? hp), h0 c (List.mem_of_getElem? hc)]
  rfl

theorem crowded_length (k : Nat) : (crowded k).heap.length = k := List.length_replicate ..

/-- The 256th entry, as heavy as its parent. -/
theorem witness_HeapInsert : HeapOrdered (crowded 255).node (crowded 255).heap ∧
    (weight? (crowded 255).node 0).isSome ∧ (crowded 255).heap.length < 256 ∧ (crowded 255).node.length ≤ 1 ∧
    0 < (crowded 256).node.length ∧ 256 ≤ (crowded 256).heap.length ∧
    (crowded 255).heap[(255 - 1) / 2]? = some 0 ∧ weight? (crowded 255).node 0 = weight? (crowded 255).node 0 :=
  ⟨crowded_ordered 255, rfl, by rw [crowded_length]; decide, by decide, by decide, by rw [crowded_length], by decide, rfl⟩

/-- A heap whose root has two equally light children, and a heavier last entry. -/
def twins : State :=
  { State.reset with node := [.leaf 0#8 1, .leaf 1#8 2, .leaf 2#8 2, .leaf 3#8 3], heap := [0, 1, 2, 3] }

theorem twins_ordered : HeapOrdered twins.node twins.heap := by
  refine ⟨by decide, fun k p c hk hp hc => ?_⟩
  have hlt : k < 4 := (List.getElem?_eq_some_iff.1 hc).1
  have h3 : k = 1 ∨ k = 2 ∨ k = 3 := by omega
  rcases h3 with rfl | rfl | rfl <;> cases hp <;> cases hc <;> rfl

theorem witness_HeapExtractMin : HeapOrdered (crowded 1).node (crowded 1).heap ∧ (crowded 1).heap ≠ [] ∧
    HeapOrdered twins.node twins.heap ∧ twins.heap = 0 :: ([1, 2] ++ [3]) ∧
    weight? twins.node 1 = weight? twins.node 2 ∧ less twins.node 1 3 = some true ∧
    after (exec .heapExtractMin twins) (fun t => t.heap) = some [1, 3, 2] :=
  ⟨crowded_ordered 1, by decide, twins_ordered, rfl, rfl, rfl, rfl⟩

theorem witness_TreeBuilderPreconditions : (crowded 0).heap = [] ∧ (crowded 1).heap.length < 2 ∧
    State.reset.freq = [] ∧ { State.reset with freq := List.replicate 256 0 }.freq = List.replicate 256 0 :=
  ⟨rfl, by decide, rfl, rfl⟩

/-- Counts in which only the symbol 0 occurs. -/
def onlyZero (v : Byte) : Nat := if v = 0#8 then 7 else 0

/-- The store of those counts. -/
def zeroCounts (n : Nat) : List Nat := (List.range n).map fun v => onlyZero (BitVec.ofNat 8 v)

theorem zeroCounts_length (n : Nat) : (zeroCounts n).length = n := by rw [zeroCounts, List.length_map, List.length_range]

theorem zeroCounts_at {n : Nat} (v : Byte) (h : v.toNat < n) : (zeroCounts n)[v.toNat]? = some (onlyZero v) := by
  simp [zeroCounts, h]

theorem witness_TreeLeaves : (zeroCounts 256).length = 256 ∧
    ∀ v : Byte, (zeroCounts 256)[v.toNat]? = some (onlyZero v) :=
  ⟨zeroCounts_length 256, fun v => zeroCounts_at v v.isLt⟩

/-- A heap of two references to a leaf of the largest weight. -/
def heavy : State := { State.reset with node := [.leaf 0#8 (2 ^ 32 - 1)], heap := [0, 0] }

theorem heavy_ordered : HeapOrdered heavy.node heavy.heap := by
  have h0 : ∀ x ∈ heavy.heap, x = 0 := by decide
  refine ⟨fun x hx => by rw [h0 x hx]; rfl, fun j p c _ hp hc => ?_⟩
  rw [h0 p (List.mem_of_getElem? hp), h0 c (List.mem_of_getElem? hc)]
  decide

/-- Two weights whose sum fits 32 bits, and two whose sum does not. -/
theorem witness_TreeMerge : HeapOrdered (crowded 2).node (crowded 2).heap ∧ 2 ≤ (crowded 2).heap.length ∧
    (crowded 2).heap.length ≤ 256 ∧ (crowded 2).node.length < 511 ∧ weight? (crowded 2).node 0 = some 1 ∧
    HeapOrdered heavy.node heavy.heap ∧ weight? heavy.node 0 = some (2 ^ 32 - 1) ∧
    after (exec .tbMerge heavy) (fun t => t.heap) = some [1] :=
  ⟨crowded_ordered 2, by decide, by decide, by decide, rfl, heavy_ordered, rfl, rfl⟩

theorem witness_TreeBuild : (∃ v, 0 < onlyZero v) ∧ (zeroCounts 256).sum < 2 ^ 32 ∧
    (∀ v : Byte, (zeroCounts 256)[v.toNat]? = some (onlyZero v)) :=
  ⟨⟨0#8, by decide⟩, by decide +kernel, witness_TreeLeaves.2⟩

theorem witness_TreeSerialize : Serves whole ∧ whole.wacc.length < 64 ∧ whole.root = some 4 ∧
    Holds whole.node 4 tree ∧ tree.size ≤ whole.node.length ∧ State.reset.root = none :=
  ⟨serves_of rfl, by decide, rfl, holds_whole, by decide, rfl⟩

theorem witness_TreeDeserialize : Serves (toRead tree.bits) ∧ (toRead tree.bits).rdCursor ≤ (toRead tree.bits).racc.length ∧
    unread (toRead tree.bits) = tree.bits ++ [] ∧ tree.size ≤ 511 := ⟨serves_of rfl, by decide, rfl, by decide⟩

theorem witness_SerializeThenDeserialize : Serves whole ∧ whole.wacc = [] ∧ whole.sink = [] ∧ whole.root = some 4 ∧
    Holds whole.node 4 tree ∧ tree.size ≤ whole.node.length ∧ whole.node.length ≤ 511 ∧
    (∃ r : State, Serves r ∧ r.racc = [] ∧ r.rdCursor = 0 ∧ r.srcPos = 0) :=
  ⟨serves_of rfl, rfl, rfl, rfl, holds_whole, by decide, by decide, State.reset, serves_reset, rfl, rfl, rfl⟩

/-- A tree of 2k + 1 nodes. -/
def comb : Nat → Tree
  | 0 => .leaf 0#8
  | k + 1 => .node (.leaf 0#8) (comb k)

theorem comb_size (k : Nat) : (comb k).size = 2 * k + 1 := by
  induction k with
  | zero => rfl
  | succ k ih => simp only [comb, Tree.size, ih]; omega

theorem noTree_nil (t : Tree) : ¬ t.bits <+: [] := fun h => by
  have hl := t.bits_length
  have hs := t.size_eq_leaves
  rw [List.prefix_nil.1 h] at hl
  simp only [List.length_nil] at hl
  omega

theorem stillOpen_internals (n k : Nat) (hk : 1 ≤ k) : StillOpen k (List.replicate n none) := by
  induction n generalizing k with
  | zero => exact hk
  | succ n ih => exact ⟨hk, ih (k + 1) (by omega)⟩

/-- As many `INTERNAL` tokens as the store holds, and the flag of one more. -/
theorem overflows_zeros (n : Nat) (bits : List Bool) (h : bits = List.replicate n false ++ [false]) :
    OverflowsFrom 1 n bits :=
  have hb : (List.replicate n none).flatMap nodeTokenBits = List.replicate n false := by
    rw [List.flatMap_replicate]
    simp [nodeTokenBits, List.flatten_replicate_singleton]
  ⟨List.replicate n none, false, [], List.length_replicate .., stillOpen_internals n 1 (Nat.le_refl 1), by rw [hb]; exact h⟩

theorem witness_TreeDeserializeErrors : Serves (toRead []) ∧ (toRead []).rdCursor ≤ (toRead []).racc.length ∧
    (∀ t : Tree, t.size ≤ 511 → ¬ t.bits <+: unread (toRead [])) ∧ ¬ Overflows (unread (toRead [])) ∧
    Overflows (unread (toRead (List.replicate 511 false ++ [false]))) ∧
    (comb 256).bits <+: unread (toRead (comb 256).bits) ∧ 511 < (comb 256).size := by
  refine ⟨serves_of rfl, by decide, fun t _ h => noTree_nil t h, not_overflowsFrom_nil 1 _,
    overflows_zeros 511 _ (by rw [unread_toRead, List.append_nil]), ⟨[], by rw [unread_toRead, List.append_nil]⟩, ?_⟩
  rw [comb_size]
  omega

theorem witness_CodeTable : whole.root = some 4 ∧ Holds whole.node 4 tree ∧ tree.size ≤ whole.node.length ∧
    tree.leaves.Nodup ∧ State.reset.root = none := ⟨rfl, holds_whole, by decide, tree_nodup, rfl⟩

theorem witness_CodesArePrefixFree : tree.codeOf 0x42#8 = some [true, true] ∧
    tree.follow [true, true] = some (.leaf 0x42#8) ∧ [true, true] <+: [true, true] :=
  ⟨by decide, rfl, List.prefix_rfl⟩

/-- A core about to code "C". -/
def coding : State :=
  { reading sample with srcPos := 9, code := (List.replicate 256 none).set 0x43 (some [true, false]) }

theorem witness_EncodeSymbol : Serves coding ∧ coding.wacc.length < 64 ∧ coding.src[coding.srcPos]? = some 0x43#8 ∧
    coding.code[(0x43#8).toNat]? = some (some [true, false]) ∧
    { coding with srcPos := 10 }.src.length ≤ 10 ∧
    { coding with srcPos := 8 }.src[8]? = some 0x43#8 ∧
    { coding with code := List.replicate 256 none }.code[(0x43#8).toNat]? = some none :=
  ⟨serves_of rfl, by decide, rfl, by decide +kernel, by decide, rfl, by decide +kernel⟩

theorem witness_DecodeLength : Serves (reading [10#8, 0#8, 0#8, 0#8]) ∧
    unread (reading [10#8, 0#8, 0#8, 0#8]) = bytesBits [10#8, 0#8, 0#8, 0#8] ++ [] ∧
    (unread (toRead (List.replicate 31 true))).length < 32 := ⟨serves_of rfl, rfl, by decide⟩

/-- The tree of T49, and bits to walk it. -/
def walking (bits : List Bool) : State := { whole with racc := bits }

/-- No code of T49's tree is within these bits. -/
theorem noCode_one {bits : List Bool} (hb : bits = [] ∨ bits = [true]) :
    ∀ p v, tree.follow p = some (.leaf v) → ¬ p <+: bits := by
  intro p v hp h
  match p, h with
  | [], _ => cases hp
  | [b], h =>
    rcases hb with rfl | rfl
    · simp at h
    · obtain rfl : b = true := by simpa using h
      cases hp
  | _ :: _ :: _, h => rcases hb with rfl | rfl <;> simpa using h.length_le

theorem witness_DecodeSymbol : Serves (walking [true, true]) ∧
    (walking [true, true]).rdCursor ≤ (walking [true, true]).racc.length ∧ (walking [true, true]).root = some 4 ∧
    Holds (walking [true, true]).node 4 tree ∧ tree.follow [true, true] = some (.leaf 0x42#8) ∧
    unread (walking [true, true]) = [true, true] ++ [] ∧
    (∀ p v, tree.follow p = some (.leaf v) → ¬ p <+: unread (walking [true])) :=
  ⟨serves_of rfl, by decide, rfl, holds_whole, rfl, rfl, noCode_one (.inr rfl)⟩

theorem witness_DegenerateWalk : Serves { State.reset with node := [.leaf 0x5a#8 0], root := some 0 } ∧
    { State.reset with node := [.leaf 0x5a#8 0], root := some 0 }.node[0]? = some (.leaf 0x5a#8 0) :=
  ⟨serves_of rfl, rfl⟩

/-- A deserializer with `n` internal nodes, the first waiting for a child, and bits to read. -/
def waiting (n : Nat) (leftDone : Bool) (bits : List Bool) : State :=
  { toRead bits with
    phase := .dTree, node := List.replicate n (.internal 0 (some 1) none), stk := [.build 0 leftDone] }

theorem waiting_node (n : Nat) (d : Bool) (bits : List Bool) (h : 0 < n) :
    (waiting n d bits).node[0]? = some (.internal 0 (some 1) none) ∧ (waiting n d bits).node.length = n := by
  simp [waiting, h]

theorem witness_TokensRead :
    Serves { reading [10#8, 0#8, 0#8, 0#8] with phase := .dLen } ∧
    unread { reading [10#8, 0#8, 0#8, 0#8] with phase := .dLen } = (encode (.len 10#32)).bits ++ [] ∧
    (unread { toRead (List.replicate 31 true) with phase := .dLen }).length < 32 ∧
    unread { toRead [false] with phase := .dTree } = (encode .internal).bits ++ [] ∧
    unread { toRead (true :: byteBits 0x41#8) with phase := .dTree } = (encode (.leaf 0x41#8)).bits ++ [] ∧
    unread { walking [true, true] with phase := .dWalk } = (encode (.code [true, true])).bits ++ [] ∧
    (∀ p v, tree.follow p = some (.leaf v) → ¬ p <+: unread { walking [true] with phase := .dWalk }) ∧
    (10#32 : BitVec 32) ≠ 11#32 ∧ (0x41#8 : Byte) ≠ 0x42#8 ∧ ([true, false] : List Bool) ≠ [true, true] :=
  ⟨serves_of rfl, rfl, by decide, rfl, rfl, rfl, noCode_one (.inr rfl), by decide, by decide, by decide⟩

/-- A node waits, with the store all but full and full. -/
theorem witness_TokensRead_waiting : Serves (waiting 510 false [false]) ∧
    (waiting 510 true [false]).node[0]? = some (.internal 0 (some 1) none) ∧
    (waiting 510 true [false]).node.length < 511 ∧ unread (waiting 510 true [false]) = (encode .internal).bits ++ [] ∧
    unread (waiting 510 false (true :: byteBits 0x41#8)) = (encode (.leaf 0x41#8)).bits ++ [] ∧
    unread (waiting 510 false []) = [] ∧ unread (waiting 510 false (true :: List.replicate 7 true)) =
      true :: List.replicate 7 true ∧ (List.replicate 7 true).length < 8 ∧
    (waiting 511 true [false]).node[0]? = some (.internal 0 (some 1) none) ∧
    (waiting 511 true [false]).node.length = 511 ∧ unread (waiting 511 true [false]) = false :: [] :=
  ⟨serves_of rfl, (waiting_node 510 _ _ (by decide)).1, by rw [(waiting_node 510 _ _ (by decide)).2]; decide, rfl, rfl, rfl,
    rfl, by decide, (waiting_node 511 _ _ (by decide)).1, (waiting_node 511 _ _ (by decide)).2, rfl⟩

theorem witness_TokensOutOfPlace : (inPhase .dTree [] 0).phase = .dTree ∧ (inPhase .dWalk [] 0).phase = .dWalk ∧
    (inPhase .dLen [] 0).phase = .dLen ∧ (inPhase .dTree [] 0).stk = [] ∧
    { whole with phase := .dTree }.stk = [] ∧ { whole with phase := .dTree }.node ≠ [] := by decide

/-- A host that serves `m` transfers and fails the next. -/
def failing (m : Nat) (s : State) : State := { s with draws := List.replicate m .serves ++ [.fails [1#8]] }

theorem witness_HostFailureAborts : (failing 0 State.reset).draws = HostDraw.fails [1#8] :: [] ∧
    (inPhase .cCodes [] 0).phase = .cCodes ∧
    (failing 1 (reading [7#8])).draws = List.replicate 1 .serves ++ HostDraw.fails [1#8] :: [] ∧
    1 ≤ ((failing 1 (reading [7#8])).src.drop (failing 1 (reading [7#8])).srcPos).length := ⟨rfl, rfl, rfl, by decide⟩

/-- The reader's refills: none, and one of a last byte; then the bits given are too few, hold no tree and no code, or
begin with a code. -/
theorem witness_HostFailureAborts_reader : 8 * 1 < ((reading [7#8]).src.drop (reading [7#8]).srcPos).length + 8 ∧
    bitsServed 0 (failing 0 (toRead [])) = [] ∧ (bitsServed 0 (failing 0 (toRead (List.replicate 7 true)))).length < 8 ∧
    (bitsServed 1 { failing 1 (toRead (List.replicate 23 true)) with src := [7#8] }).length < 32 ∧
    (∀ t : Tree, t.size ≤ 511 → ¬ t.bits <+: bitsServed 0 (failing 0 (toRead []))) ∧
    ¬ Overflows (bitsServed 0 (failing 0 (toRead []))) ∧
    (∀ p v, tree.follow p = some (.leaf v) → ¬ p <+: bitsServed 0 (failing 0 (walking [true]))) ∧
    [true, true] <+: bitsServed 1 { failing 1 (walking [true]) with src := [7#8] } ∧
    (bitsServed 0 { failing 1 (walking [true]) with src := [7#8] }).length < [true, true].length :=
  ⟨by decide, rfl, by decide, by decide, fun t _ h => noTree_nil t h, not_overflowsFrom_nil 1 _, noCode_one (.inr rfl),
    by decide, by decide⟩

/-- At the boundary: the sequence ends with the last bit of the accumulator whose flush the host fails. -/
theorem witness_WriterFailureAborts : (holding (List.replicate 63 true)).wacc.length < 64 ∧
    64 * (1 + 1) ≤ (holding (List.replicate 63 true)).wacc.length + (List.replicate 65 true).length ∧
    64 * (0 + 1) ≤ (holding (List.replicate 56 true)).wacc.length + ((List.range 8).map fun k => (1#8).getLsbD k).length ∧
    64 * (0 + 1) ≤ (holding (List.replicate 32 true)).wacc.length + ((List.range 32).map fun k => (1#32).getLsbD k).length ∧
    64 * (0 + 1) ≤ (holding (List.replicate 63 true)).wacc.length + (encode .internal).bits.length ∧
    64 * (0 + 1) ≤ { whole with wacc := List.replicate 35 true }.wacc.length + tree.bits.length ∧
    { whole with wacc := List.replicate 35 true }.root = some 4 ∧ Holds whole.node 4 tree ∧
    64 * (0 + 1) ≤ { coding with wacc := List.replicate 62 true }.wacc.length + [true, false].length ∧
    (failing 1 coding).draws = .serves :: List.replicate 0 .serves ++ HostDraw.fails [1#8] :: [] ∧
    (holding [true]).wacc ≠ [] :=
  ⟨by decide, by decide, by decide, by decide, by decide, by decide, rfl, holds_whole, by decide, rfl, by decide⟩

/-- The second of two flushes fails: the bits of the first are out, those of the failed one are held, the 129th is not
pushed (40_bitchannel.md R129; 60_exceptions.md R243). -/
theorem test_wrWriteBits_fails :
    after (exec (.wrWriteBits (List.replicate 129 true)) (failing 1 State.reset))
      (fun t => (t.err, t.result, t.wacc.length, t.sink.length)) = some (some .ioError, 8, 64, 9) := by decide +kernel

/-- Whether an instruction answers a next state. -/
def runs (i : Instr) (s : State) : Bool := (after (exec i s) fun _ => ()).isSome

theorem witness_OnlyAbortsEnd : runs .nop State.reset = true ∧ runs .compress State.reset = true ∧
    runs .decompress State.reset = true ∧ runs .rdPopBit State.reset = true := ⟨rfl, rfl, rfl, rfl⟩

theorem witness_SourceAndSinkKept : runs .wrFinish { holding [true] with sink := [1#8] } = true := rfl

/-- Every instruction of the frame of what stores nothing answers a next state somewhere. -/
theorem witness_FrameOfNonStoring : runs (.accClear .writer) State.reset = true ∧
    runs (.accPushBit .reader true) State.reset = true ∧ runs (.accIsFull .writer) State.reset = true ∧
    runs (.accBitAt .writer 0) (holding [true]) = true ∧ runs .rdRefill (reading [1#8]) = true ∧
    runs .rdPopBit (reading [1#8]) = true ∧ runs .rdPopByte (reading [1#8]) = true ∧
    runs .freqScan (reading [1#8]) = true ∧ runs (.heapInsert 0) (crowded 0) = true ∧
    runs .heapExtractMin built = true ∧ runs .tbLeaves { State.reset with freq := counts } = true ∧
    runs .tbMerge built = true ∧ runs .tbBuild { State.reset with freq := counts } = true ∧
    runs .tcDeserialize (toRead tree.bits) = true ∧ runs .ctDerive whole = true ∧
    runs .decLen (reading [1#8, 0#8, 0#8, 0#8]) = true ∧
    runs (.len 1#32) { reading [1#8, 0#8, 0#8, 0#8] with phase := .dLen } = true ∧
    runs .internal { toRead [false] with phase := .dTree } = true ∧
    runs (.leaf 0x41#8) { toRead (true :: byteBits 0x41#8) with phase := .dTree } = true ∧
    runs (.pad 7) (inPhase .dWalk [] 0) = true := by decide +kernel

/-- Every instruction of the frame of what stores to SINK answers a next state somewhere. -/
theorem witness_FrameOfStoring : runs .wrFlush (holding (List.replicate 8 true)) = true ∧
    runs (.wrWriteBits [true]) (holding (List.replicate 63 true)) = true ∧ runs (.wrWriteByte 1#8) State.reset = true ∧
    runs .wrFinish (holding [true]) = true ∧ runs .tcSerialize whole = true ∧ runs .encLen State.reset = true ∧
    runs .encBody coding = true ∧ runs .decWalk (walking [true, true]) = true ∧
    runs (.code [true, true]) { walking [true, true] with phase := .dWalk } = true ∧
    runs (.len 1#32) State.reset = true ∧ runs .internal State.reset = true ∧ runs (.leaf 1#8) State.reset = true ∧
    runs (.code [true]) State.reset = true ∧ runs (.pad 7) State.reset = true ∧ Serves State.reset :=
  ⟨rfl, rfl, rfl, rfl, rfl, rfl, by decide +kernel, rfl, rfl, rfl, rfl, rfl, rfl, rfl, serves_reset⟩

theorem witness_InvariantKept : Inv State.reset ∧ step State.reset = .next State.reset :=
  ⟨Inv.hardReset State.reset, rfl⟩

theorem witness_CompressWritesTheContainer : Undisturbed State.reset ∧ State.reset.phase = .idle ∧
    State.reset.src = [] ∧ Undisturbed (reading sample) ∧ (reading sample).src.length ≤ 2 ^ 32 - 1 ∧
    (reading sample).src ≠ [] := ⟨⟨rfl, serves_reset⟩, rfl, rfl, ⟨rfl, serves_of rfl⟩, by decide, by decide⟩

/-- The empty container decodes to nothing, and the empty source to nothing at all. -/
theorem witness_DecompressDecodesTheStream : Undisturbed (reading [0#8, 0#8, 0#8, 0#8]) ∧
    Decodes (bytesBits (reading [0#8, 0#8, 0#8, 0#8]).src) [] ∧
    ∀ out, ¬ Decodes (bytesBits State.reset.src) out := by
  refine ⟨⟨rfl, serves_of rfl⟩, ⟨0#32, [], rfl, rfl, .inl rfl⟩, fun out h => ?_⟩
  obtain ⟨l, rest, hb, -⟩ := h
  have := congrArg List.length hb
  simp [State.reset, bytesBits, wordBits_length] at this
  omega

theorem zeros_bits (n : Nat) : bytesBits (List.replicate n 0#8) = List.replicate (8 * n) false := by
  induction n with
  | zero => rfl
  | succ n ih =>
    have h8 : byteBits 0#8 = List.replicate 8 false := rfl
    rw [List.replicate_succ, bytesBits, ih, h8, List.replicate_append_replicate]
    congr 1
    omega

/-- Each way to fail: nothing to read; a length and no tree; a length and 512 `INTERNAL` tokens; T49's tree, three codes
and a fourth wanted. -/
theorem witness_DecompressFails : Fails (bytesBits []) [] .endOfInput ∧
    Fails (bytesBits [1#8, 0#8, 0#8, 0#8]) [] .endOfInput ∧
    Fails (bytesBits ([1#8, 0#8, 0#8, 0#8] ++ List.replicate 64 0#8)) [] .nodeStoreOverflow ∧
    Fails (bytesBits [4#8, 0#8, 0#8, 0#8, 0x06#8, 0x39#8, 0x54#8, 0x08#8]) [0x41#8, 0x41#8, 0x41#8] .endOfInput := by
  refine ⟨.noLength (by decide), .noTree (l := 1#32) (rest := []) (by decide) rfl (fun t _ h => noTree_nil t h)
    (not_overflowsFrom_nil 1 _), .tooLarge (l := 1#32) (rest := bytesBits (List.replicate 64 0#8)) (by decide) ?_
    (overflows_zeros 511 _ (by rw [zeros_bits, ← List.replicate_succ'])),
    .noCode (l := 4#32) (t := tree) (paths := [[false], [false], [false]]) (after := []) (by decide) rfl
      (.cons rfl (.cons rfl (.cons rfl .nil))) (by decide) (noCode_one (.inl rfl))⟩
  rw [bytesBits_append]
  rfl

theorem witness_AnyTreeDecompresses : Undisturbed (reading (container (.leaf 0x5a#8) [0x5a#8] ++ [1#8])) ∧
    (Tree.leaf 0x5a#8).size ≤ 511 ∧ (∀ v ∈ [0x5a#8], v ∈ (Tree.leaf 0x5a#8).leaves) ∧
    (reading (container (.leaf 0x5a#8) [0x5a#8] ++ [1#8])).src = container (.leaf 0x5a#8) [0x5a#8] ++ [1#8] :=
  ⟨⟨rfl, serves_of rfl⟩, by decide, by decide, rfl⟩

/-- The container of 1 × 0x41 (T55a). -/
theorem test_container : container (.leaf 0x41#8) [0x41#8] = [1#8, 0#8, 0#8, 0#8, 0x83#8, 0#8] := by rfl

/-- The container of "AAAAABBBCC" (T56). -/
theorem test_container_sample : container tree sample =
    [0x0a#8, 0x00#8, 0x00#8, 0x00#8, 0x06#8, 0x39#8, 0x54#8, 0x08#8, 0xfc#8, 0x05#8] := by rfl

theorem witness_RoundTrip : Undisturbed (reading sample) ∧ (reading sample).phase = .idle ∧ (reading sample).sink = [] ∧
    (reading sample).src.length ≤ 2 ^ 32 - 1 := ⟨⟨rfl, serves_of rfl⟩, rfl, rfl, by decide⟩

theorem witness_EveryCommandEnds : { reading sample with draws := [.serves, .fails []] }.script = [] ∧
    { reading sample with draws := [.serves, .fails []] }.phase = .idle ∧
    { reading sample with draws := [.serves, .fails []] }.src.length ≤ 2 ^ 32 - 1 := by decide

end Sys2Proof.Tests
end

section
/-! PROOFS. The family of 10_state.md: the invariant, the frames of SRC and SINK, the cells of the byte spaces, and what a
step runs. -/

namespace Sys2Proof.Machine

/-! ### The invariant -/

/-- Every step keeps the invariant: an operation by `Inv.exec`, the sequencer's transition by `Inv.advance`, and the
host's own moves write nothing it bounds but the last result. -/
theorem Inv.step {s t : State} (h : Inv s) (e : step s = .next t) : Inv t := by
  obtain ⟨s0, hs0, hcase⟩ := step_next e
  have h0 : Inv s0 := by
    rcases hs0 with rfl | ⟨rest, rfl⟩
    · exact h
    · exact { h with }
  rcases hcase with ⟨i, hi⟩ | ⟨i, u, -, hi, rfl⟩ | ⟨-, rfl⟩ | rfl | ⟨v, rfl⟩ | ⟨src, sink, -, rfl⟩ | rfl
  · exact h0.exec hi
  · exact (h0.exec hi).advance
  · exact h0.advance
  · exact h0
  · exact { h0 with ret_lt := fun x hx => by cases hx }
  · exact { h0 with }
  · exact Inv.hardReset s0

/-- Settles O52, by the cases of a step (`step_next`). -/
theorem invariantKept : Obligations.InvariantKept := fun _ _ h e => h.step e

/-- Settles O51: the state after reset is a hardware reset of itself. -/
theorem invariantAtReset : Obligations.InvariantAtReset := Inv.hardReset State.reset

/-! ### SRC and SINK -/

/-- No instruction writes SRC or a byte already in SINK. -/
theorem exec_src_sink {i : Instr} {s t : State} (e : exec i s = .next t) : t.src = s.src ∧ s.sink <+: t.sink := by
  rcases exec_next e with ⟨-, -, -, rfl⟩ | ⟨-, -, rfl⟩ | ⟨u, r, hm, rfl, -⟩ | ⟨er, u, hm, rfl⟩
  · exact ⟨rfl, List.prefix_rfl⟩
  · exact ⟨rfl, List.prefix_rfl⟩
  · exact ⟨hm.src, hm.sink⟩
  · exact ⟨hm.src, hm.sink⟩

/-- Where SINK has only grown, the addresses it had read as before. -/
theorem sinkByte_of_grown {s t : State} (h : s.sink <+: t.sink) {a : Nat} (ha : a < s.sink.length) :
    sinkByte a t = sinkByte a s := by
  obtain ⟨v, hv⟩ := h
  rw [← sinkByte_append s v a ha, hv, sinkByte]

/-- Exactly the addresses from `SNK_LEN` on hold no byte (10_state.md R56). -/
theorem sinkByte_eq_none_iff {a : Nat} {s : State} : sinkByte a s = none ↔ s.sink.length ≤ a :=
  List.getElem?_eq_none_iff

/-- Settles O48, from what exec can do to SRC and SINK (`exec_src_sink`). -/
theorem sourceAndSinkKept : Obligations.SourceAndSinkKept := by
  intro i s t e
  obtain ⟨hsrc, hsink⟩ := exec_src_sink e
  exact ⟨fun a => by rw [srcByte, srcByte, hsrc], fun a ha => sinkByte_of_grown hsink ha, hsink.length_le⟩

/-- Settles O53: the cells of any byte sequence are canonical and list exactly its bytes. -/
theorem memoryCanonical : Obligations.MemoryCanonical := fun s =>
  ⟨spaceCells_wf s.src, spaceCells_wf s.sink, fun _ _ => ⟨mem_spaceCells, mem_spaceCells⟩⟩

/-! ### The operations that store to SINK -/

/-- What an instruction does to what the host sees of the run: nothing, an abort, or the acceptance of a command. -/
theorem exec_sameOrAborted_or_accepted {i : Instr} {s t : State} (e : exec i s = .next t) :
    SameOrAborted s t ∨ busy s = false ∧
      (i = .compress ∧ t = commandStart .cFreq s ∨ i = .decompress ∧ t = commandStart .dLen s) := by
  rcases exec_next e with ⟨hb, hi, -, ht⟩ | ⟨hb, hi, ht⟩ | ⟨u, r, hm, rfl, -⟩ | ⟨er, u, hm, rfl⟩
  · exact .inr ⟨hb, .inl ⟨hi, ht⟩⟩
  · exact .inr ⟨hb, .inr ⟨hi, ht⟩⟩
  · exact .inl (.inl ⟨hm.phase, hm.err, hm.result⟩)
  · exact .inl (.inr ⟨rfl, rfl, rfl, hm.ret⟩)

/-- An abort writes `PHASE`, `err` and `RESULT` (60_exceptions.md R243). -/
theorem abort_only (e : Err) (s : State) : Only [.phase, .err, .result] s (abort e s) := fun f hf => by
  cases f <;> simp [Field.Same] at hf ⊢

theorem setRet_only (r : Ret) (s : State) : Only [.ret] s { s with ret := r } := fun f hf => by
  cases f <;> simp [Field.Same] at hf ⊢

/-- The step an operation is writes what the operation may write and, in an abort, `PHASE`, `err` and `RESULT`. -/
theorem Res.Within.outcome_only {α : Type} {x : Res α} {fs : List Field} {s t : State} (h : x.Within fs s)
    (e : x.outcome = .next t) : Only ([.phase, .err, .result] ++ fs) s t := by
  rcases h.outcome e with ⟨-, -, ho⟩ | ⟨er, u, -, rfl, ho⟩
  · exact ho.mono (List.subset_append_right _ _)
  · exact (ho.mono (List.subset_append_right _ _)).trans ((abort_only er u).mono (List.subset_append_left _ _))

/-- The abort of an operation stores nothing. -/
theorem Res.Tallies.outcome {α : Type} {x : Res α} {s t : State} (h : x.Tallies s) (e : x.outcome = .next t) :
    Tally s t := by
  cases x with
  | ok a u => injection e with e; exact e ▸ h
  | raise er u => injection e with e; exact e ▸ h.trans (.of_same rfl rfl List.suffix_rfl)
  | fault f => cases e
  | refused r => cases e

/-- What FrameOfStoring says of a step that may write the fields `fs`. -/
def StoringFrame (fs : List Field) (s t : State) : Prop :=
  Only ([.phase, .err, .result] ++ fs) s t ∧ SameOrAborted s t ∧
    (∀ a, a < s.sink.length → sinkByte a t = sinkByte a s) ∧
    (Serves s → s.wrTotal ≤ t.wrTotal ∧
      ∀ a, sinkByte a t = none ↔ s.sink.length + (t.wrTotal - s.wrTotal) ≤ a)

/-- An instruction that is an operation of the core, no command, has the frame of the operation: its fields, and as many
bytes in SINK as it counts. -/
theorem StoringFrame.of_outcome {α : Type} {i : Instr} {x : Res α} {fs : List Field} {s t : State}
    (e : exec i s = .next t) (hw : x.Within fs s) (ht : x.Tallies s) (hx : exec i s = x.outcome) (hc : i ≠ .compress)
    (hd : i ≠ .decompress) : StoringFrame fs s t := by
  have hsame : SameOrAborted s t := by
    rcases exec_sameOrAborted_or_accepted e with h | ⟨-, ⟨h, -⟩ | ⟨h, -⟩⟩
    · exact h
    · exact (hc h).elim
    · exact (hd h).elim
  refine ⟨hw.outcome_only (hx ▸ e), hsame, fun a ha => sinkByte_of_grown (exec_src_sink e).2 ha, fun hs => ?_⟩
  obtain ⟨-, hlen, hle⟩ := ht.outcome (hx ▸ e) hs
  refine ⟨hle, fun a => ?_⟩
  rw [sinkByte_eq_none_iff]
  omega

/-- WR.FINISH as one operation: `finish`, and its count kept as the last result (log entry 18). -/
def finishRet (s : State) : Res Unit := (finish s).bind fun c u => .ok () { u with ret := .count c }

theorem exec_wrFinish_eq (s : State) : exec .wrFinish s = (finishRet s).outcome := rfl

theorem finishRet_only (s : State) : (finishRet s).Within [.wacc, .sink, .wrTotal, .draws, .ret] s :=
  ((finish_only s).mono (by simp)).bind fun c u => Only.mono (setRet_only (.count c) u) (by simp)

theorem finishRet_tally (s : State) : (finishRet s).Tallies s :=
  (finish_tally s).bind fun _ _ => Tally.of_same rfl rfl List.suffix_rfl

/-! ### The tokens outside DECOMPRESS -/

theorem reading_eq_false {s : State} (h1 : s.phase ≠ .dLen) (h2 : s.phase ≠ .dTree) (h3 : s.phase ≠ .dWalk) :
    reading s = false := by
  cases h : s.phase <;> simp_all [reading]

section
variable {s : State} (hr : reading s = false)
include hr

theorem exec_len_written (l : BitVec 32) : exec (.len l) s = (writeBits (wordBits l) s).outcome := by
  simp [exec, execLen, hr]

theorem exec_internal_written : exec .internal s = (writeBits [false] s).outcome := by
  simp [exec, execInternal, hr]

theorem exec_leaf_written (v : Byte) : exec (.leaf v) s = (writeBits (true :: byteBits v) s).outcome := by
  simp [exec, execLeaf, hr]

theorem exec_code_written (p : List Bool) : exec (.code p) s = (writeBits p s).outcome := by
  simp [exec, execCode, hr]

theorem exec_pad_written (z : Nat) :
    exec (.pad z) s = (accPushBits .writer (List.replicate z false) s).outcome := by
  simp [exec, execPad, hr]

end

/-- `CODE` issued in `D_WALK` is a walk of the decoder (30_encoding.md R105, log entry 4). -/
theorem exec_code_walked {s : State} (h : s.phase = .dWalk) (p : List Bool) :
    exec (.code p) s = (readCodeToken p s).outcome := by
  simp [exec, execCode, reading, h]

/-- Settles O50, one operation at a time: its fields (`_only`) and its count of bytes (`_tally`). -/
theorem frameOfStoring : Obligations.FrameOfStoring := by
  intro i fs s t h e
  change StoringFrame fs s t
  rcases h with ⟨rfl, rfl | ⟨seq, rfl⟩ | ⟨v, rfl⟩ | rfl⟩ | ⟨rfl, rfl⟩ | ⟨rfl, rfl⟩ | ⟨rfl, rfl⟩ |
    ⟨rfl, rfl | ⟨hp, p, rfl⟩⟩ | ⟨rfl, h1, h2, h3, htok⟩
  · exact .of_outcome e (flush_only s) (flush_tally s) rfl nofun nofun
  · exact .of_outcome e (writeBits_only seq s) (writeBits_tally seq s) rfl nofun nofun
  · exact .of_outcome e (writeByte_only v s) (writeBits_tally _ s) rfl nofun nofun
  · exact .of_outcome e (writeLength_only s) (writeLength_tally s) rfl nofun nofun
  · exact .of_outcome e (finishRet_only s) (finishRet_tally s) (exec_wrFinish_eq s) nofun nofun
  · exact .of_outcome e (serialize_only s) (serialize_tally s) rfl nofun nofun
  · exact .of_outcome e (codeSymbol_only s) (codeSymbol_tally s) rfl nofun nofun
  · exact .of_outcome e (walk_only s) (walk_tally s) rfl nofun nofun
  · exact .of_outcome e (readCodeToken_only p s) (readCodeToken_tally p s) (exec_code_walked hp p) nofun nofun
  · have hr := reading_eq_false h1 h2 h3
    rcases htok with ⟨l, rfl⟩ | rfl | ⟨v, rfl⟩ | ⟨p, rfl⟩ | ⟨z, rfl⟩
    · exact .of_outcome e (writeBits_only _ s) (writeBits_tally _ s) (exec_len_written hr l) nofun nofun
    · exact .of_outcome e (writeBits_only _ s) (writeBits_tally _ s) (exec_internal_written hr) nofun nofun
    · exact .of_outcome e (writeBits_only _ s) (writeBits_tally _ s) (exec_leaf_written hr v) nofun nofun
    · exact .of_outcome e (writeBits_only _ s) (writeBits_tally _ s) (exec_code_written hr p) nofun nofun
    · exact .of_outcome e ((accPushBits_only .writer _ s).mono (by simp [accField]))
        (accPushBits_tally .writer _ s) (exec_pad_written hr z) nofun nofun

/-! ### A step and its scenario line -/

/-- An issued word that decodes runs its instruction. -/
theorem step_issue {s : State} {w : Enc} {i : Instr} {rest : List Line} (hd : decode w = .ok i)
    (hs : s.script = .issue w :: rest) : step s = exec i { s with script := rest } := by
  simp only [step, fetch, hs, fetchWord, hd]

/-- A write of `CMD` runs the command of bits 1:0 of the value (10_state.md R44). -/
theorem step_write_cmd {s : State} {v : BitVec 64} {i : Instr} {rest : List Line}
    (hd : decode ⟨.cmd, bitsOfNat 2 v.toNat⟩ = .ok i) (hs : s.script = .write .cmd v :: rest) :
    step s = exec i { s with script := rest } := by
  simp only [step, fetch, hs, fetchWrite, fetchWord, hd]

theorem bitsOfNat_two (v : BitVec 64) : bitsOfNat 2 v.toNat = [v.getLsbD 0, v.getLsbD 1] := by
  simp [bitsOfNat, BitVec.getLsbD, Nat.testBit_eq_decide_div_mod_eq]

/-- A command code is two bits (30_encoding.md R90). -/
theorem length_of_decodeCmd {bits : List Bool} {i : Instr} (h : decodeCmd bits = .ok i) : bits.length = 2 := by
  unfold decodeCmd at h
  split at h
  case h_5 => cases h
  all_goals rfl

/-- The line of a word that decodes runs its instruction, whatever its format. -/
theorem step_lineOf {s : State} {w : Enc} {i : Instr} {rest : List Line} (hd : decode w = .ok i)
    (hs : s.script = lineOf w :: rest) : step s = exec i { s with script := rest } := by
  obtain ⟨fmt, bits⟩ := w
  cases fmt with
  | cmd =>
    have hl : bits.length = 2 := length_of_decodeCmd hd
    have hlt := natOfBits_lt bits
    have hv : bitsOfNat 2 (BitVec.ofNat 64 (natOfBits bits)).toNat = bits := by
      rw [BitVec.toNat_ofNat, Nat.mod_eq_of_lt (by rw [hl] at hlt; omega), bitsOfNat_natOfBits_of_length hl]
    exact step_write_cmd (by rw [hv]; exact hd) hs
  | uop => exact step_issue hd hs
  | lenTok => exact step_issue hd hs
  | nodeTok => exact step_issue hd hs
  | codeTok => exact step_issue hd hs
  | padTok => exact step_issue hd hs

/-- A row of the opcode table that names an instruction has a word that decodes to it. -/
theorem decodeTableWord_eq_some {nbits w : Nat} {i : Instr} (h : decodeTableWord nbits w = some i) :
    ∃ e, tableWord nbits w = some e ∧ decode e = .ok i := by
  unfold decodeTableWord at h
  split at h
  · rename_i e he
    refine ⟨e, he, ?_⟩
    cases hd : decode e with
    | ok j => rw [hd] at h; cases h; rfl
    | error r => rw [hd] at h; cases h
  · cases h

/-- Settles O7, by the line of the word (`step_issue`, `step_write_cmd`, `step_lineOf`). -/
theorem stepRunsDecodedWord : Obligations.StepRunsDecodedWord := by
  refine ⟨fun s w i rest hd hs => step_issue hd hs, fun s v i rest hd hs => ?_, fun s nbits w i h => ?_⟩
  · exact step_write_cmd (by rw [bitsOfNat_two]; exact hd) hs
  · obtain ⟨e, he, hd⟩ := decodeTableWord_eq_some h
    simp only [State.withFetchWord, he]
    exact step_lineOf hd rfl

/-- Where the host does nothing a step is the sequencer's: the operation of the phase and its transition, or the
transition alone. `s0` is the state with the quiet line, if there is one, taken. -/
theorem step_quiet {s s0 : State}
    (h : (s.script = [] ∧ s0 = s) ∨ ∃ rest, s.script = .quiet :: rest ∧ s0 = { s with script := rest }) :
    (∀ i, nextOp s = some i → step s = sequenced (exec i s0)) ∧
      (nextOp s = none → step s = .next (advance s0)) := by
  rcases h with ⟨hs, rfl⟩ | ⟨rest, hs, rfl⟩
  · exact ⟨fun i hn => step_sequence hs hn, step_wait hs⟩
  · have hn : nextOp { s with script := rest } = nextOp s := rfl
    exact ⟨fun i h => by simp only [step, fetch, hs, fetchQuiet, hn, h],
      fun h => by simp only [step, fetch, hs, fetchQuiet, hn, h]⟩

/-- In the phases in which the core waits the sequencer starts nothing, -/
theorem nextOp_waiting {s : State} (h : s.phase = .idle ∨ s.phase = .done ∨ s.phase = .error) : nextOp s = none := by
  rcases h with h | h | h <;> simp only [nextOp, h]

/-- and there is no transition (60_exceptions.md R249). -/
theorem advance_waiting {s : State} (h : s.phase = .idle ∨ s.phase = .done ∨ s.phase = .error) : advance s = s := by
  rcases h with h | h | h <;> simp only [advance, h]

/-- Settles O8, phase by phase (`step_quiet`). -/
theorem sequencerRunsThePhase : Obligations.SequencerRunsThePhase := by
  intro s s0 h
  obtain ⟨run, wait⟩ := step_quiet h
  have hphase : s0.phase = s.phase := by rcases h with ⟨-, rfl⟩ | ⟨rest, -, rfl⟩ <;> rfl
  exact ⟨fun hp => run _ (by simp only [nextOp, hp]),
    fun hp => run _ (by simp only [nextOp, hp]),
    fun hp => run _ (by simp only [nextOp, hp]),
    fun hp hl => run _ (by simp only [nextOp, hp, hl, if_true]),
    fun hp hl => run _ (by simp only [nextOp, hp, Nat.not_lt.mpr hl, if_false]),
    fun hp => run _ (by simp only [nextOp, hp]),
    fun hp => run _ (by simp only [nextOp, hp]),
    fun hp hl => run _ (by simp [nextOp, hp, allDone, hl]),
    fun hp => run _ (by simp only [nextOp, hp]),
    fun hp => run _ (by simp only [nextOp, hp]),
    fun hp => run _ (by simp only [nextOp, hp]),
    fun hp hl => run _ (by simp [nextOp, hp, allDone, hl]),
    fun hp => by rw [wait (nextOp_waiting hp), advance_waiting (hphase ▸ hp)]⟩

/-! ### The host's registers -/

theorem step_read {s : State} {r : HostReg} {rest : List Line} (hs : s.script = .read r :: rest) :
    step s = .next { s with script := rest, ret := .word (readReg r s) } := by
  simp only [step, fetch, hs]

theorem statusState_le (s : State) : statusState s ≤ 3 := by
  unfold statusState; split <;> decide

theorem errCode_le (e : Option Err) : errCode e ≤ 5 := by
  unfold errCode; split <;> decide

/-- `STATUS` as a number: the state in bits 1:0, the error code above (10_state.md R45). -/
theorem readReg_status_toNat (s : State) : (readReg .status s).toNat = statusState s + 4 * errCode s.err := by
  have h1 := statusState_le s
  have h2 := errCode_le s.err
  simp only [readReg, statusReg, BitVec.toNat_setWidth, BitVec.toNat_ofNat]
  omega

/-- Settles O10, register by register. -/
theorem hostRegisterAccess : Obligations.HostRegisterAccess := by
  intro s rest
  refine ⟨step_read, fun hs => ⟨readReg .status s, step_read hs, ?_⟩, step_read, fun v hs => ?_⟩
  · have hv := readReg_status_toNat s
    have h1 := statusState_le s
    have h2 := errCode_le s.err
    refine ⟨by omega, ?_, ?_⟩
    · rw [show (readReg .status s).toNat % 4 = statusState s by omega, statusState]
      cases s.phase <;> rfl
    · rw [show (readReg .status s).toNat / 4 = errCode s.err by omega]
      rfl
  · rcases hs with hs | hs <;> simp only [step, fetch, hs, fetchWrite]

/-! ### The commands -/

theorem execCompress_busy {s : State} (h : busy s = true) : execCompress s = .next s := by
  simp only [execCompress, h, if_true]

theorem execDecompress_busy {s : State} (h : busy s = true) : execDecompress s = .next s := by
  simp only [execDecompress, h, if_true]

theorem execCompress_accepted {s : State} (h : busy s = false) (hl : s.src.length < 2 ^ Config.lenW) :
    execCompress s = .next (commandStart .cFreq s) := by
  simp only [execCompress, h, hl, if_true, Bool.false_eq_true, if_false]

theorem execCompress_tooLong {s : State} (h : busy s = false) (hl : 2 ^ Config.lenW ≤ s.src.length) :
    execCompress s = .refused .inputTooLong := by
  simp only [execCompress, h, Nat.not_lt.mpr hl, Bool.false_eq_true, if_false]

theorem execDecompress_accepted {s : State} (h : busy s = false) :
    execDecompress s = .next (commandStart .dLen s) := by
  simp only [execDecompress, h, Bool.false_eq_true, if_false]

/-- Settles O12: an accepted command starts from `commandStart`. -/
theorem commandAccepted : Obligations.CommandAccepted := by
  intro s h
  have hb := (busy_eq_false s).mpr h
  exact ⟨fun hl => execCompress_accepted hb (by simp only [Config.lenW]; omega), execCompress_tooLong hb,
    execDecompress_accepted hb⟩

/-- Settles O13: a phase that is none of the three waiting ones is busy. -/
theorem commandIgnoredWhileBusy : Obligations.CommandIgnoredWhileBusy := by
  intro s h1 h2 h3
  have hb : busy s = true := Bool.eq_true_of_not_eq_false fun h => by
    rcases (busy_eq_false s).mp h with h | h | h
    · exact h1 h
    · exact h2 h
    · exact h3 h
  exact ⟨execCompress_busy hb, execDecompress_busy hb⟩

end Sys2Proof.Machine
end

section
/-! PROOFS. The family of 20_memory.md: the order of the bits of a stream. -/

namespace Sys2Proof.Machine

/-- A command starts with an empty `RACC` and `SRC_POS` at 0 (70_reset_and_hazards.md R267), so nothing of SRC has been
read. -/
theorem unread_commandStart (p : Phase) (s : State) : unread (commandStart p s) = bytesBits s.src := by
  rw [unread, commandStart_racc, commandStart_srcPos, commandStart_src, List.drop_nil, List.drop_zero, List.nil_append]

/-- Settles O26: the unread bits are those of all of SRC (`unread_commandStart`), in the order of
`bytesBits_getElem?`. -/
theorem streamBitOrder : Obligations.StreamBitOrder := fun s k => by
  rw [unread_commandStart, bytesBits_getElem?]

end Sys2Proof.Machine
end

section
/-! PROOFS. The family of 30_encoding.md: the decoder and the encoder. -/

namespace Sys2Proof

@[simp] theorem accOfBit_bit (a : Acc) : accOfBit a.bit = a := by cases a <;> rfl

@[simp] theorem bit_accOfBit (b : Bool) : (accOfBit b).bit = b := by cases b <;> rfl

/-! ### The words of format UOP (30_encoding.md R92) -/

theorem uopEnc_take (n : Nat) (ops : List Bool) : (uopEnc n ops).bits.take 6 = bitsOfNat 6 n :=
  List.take_left' (bitsOfNat_length 6 n)

/-- The decoder reads back the id and the operand bits of a unit operation's word. -/
theorem decode_uopEnc {n : Nat} (hn : n < 64) (ops : List Bool) : decode (uopEnc n ops) = decodeUop n ops := by
  have h : natOfBits (bitsOfNat 6 n) = n := by rw [natOfBits_bitsOfNat]; omega
  simp only [bitsOfNat] at h
  simp only [decode, uopEnc, bitsOfNat, List.cons_append, List.nil_append, decodeUopBits, h]

/-- A word of at least six bits is the word of an id and operand bits; a shorter one names nothing. -/
theorem decodeUopBits_eq_ok {bits : List Bool} {i : Instr} (h : decodeUopBits bits = .ok i) :
    ∃ n ops, ⟨.uop, bits⟩ = uopEnc n ops ∧ decodeUop n ops = .ok i := by
  unfold decodeUopBits at h
  split at h
  · rename_i b0 b1 b2 b3 b4 b5 ops
    have hb := bitsOfNat_natOfBits [b0, b1, b2, b3, b4, b5]
    simp only [List.length_cons, List.length_nil] at hb
    exact ⟨_, ops, by rw [uopEnc, hb]; rfl, h⟩
  · cases h

/-- The seven index bits of `ACC.BITAT`. -/
theorem decodeAccOp_bitAt (a : Bool) {i : Nat} (hi : i < 128) :
    decodeAccOp 3 (a :: bitsOfNat 7 i) = .ok (.accBitAt (accOfBit a) i) := by
  have h : natOfBits (bitsOfNat 7 i) = i := by rw [natOfBits_bitsOfNat]; omega
  simp only [bitsOfNat] at h
  simp only [decodeAccOp, bitsOfNat, h]

theorem decodeUop_heapInsert {x : Nat} (hx : x < Config.nodeCap) :
    decodeUop 24 (bitsOfNat 9 x) = .ok (.heapInsert x) := by
  have h : natOfBits (bitsOfNat 9 x) = x := by
    simp only [Config.nodeCap] at hx
    rw [natOfBits_bitsOfNat]; omega
  simp only [decodeUop, bitsOfNat_length, h, hx, if_true]

/-- An id that the table of 30_encoding.md R92 does not list names nothing. -/
theorem decodeUop_unknown {n : Nat} (ops : List Bool)
    (h : n ∉ [0, 1, 2, 3, 4, 5, 6, 7, 8, 9, 10, 16, 24, 25, 26, 27, 28, 32, 33, 40, 48, 49, 50, 51]) :
    decodeUop n ops = .error (.noSuchOpid n) := by
  unfold decodeUop
  split
  case h_25 => rfl
  all_goals exact absurd (by decide) h

/-! ### Decoding an encoding -/

theorem decodePadTok_replicate {z : Nat} (hz : z < 8) : decodePadTok (List.replicate z false) = .ok (.pad z) := by
  simp [decodePadTok, hz]

/-- Settles O1, instruction by instruction: the id of a unit operation by `decode_uopEnc`, each operand by the law that
reads back its bits. -/
theorem decodeEncodeRoundTrip : Obligations.DecodeEncodeRoundTrip := by
  intro i hi
  cases i with
  | accClear | accIsFull | accPushBit =>
    simp only [encode, decode_uopEnc, Nat.reduceLT, decodeUop, decodeAccOp, accOfBit_bit]
  | accBitAt a n =>
    have hn : n < 128 := of_decide_eq_true hi
    simp only [encode, decode_uopEnc, Nat.reduceLT, decodeUop, decodeAccOp_bitAt _ hn, accOfBit_bit]
  | wrWriteByte v =>
    simp only [encode, decode_uopEnc, Nat.reduceLT, decodeUop, byteBits_length, if_true, byteOfBits_byteBits]
  | heapInsert x => exact (decode_uopEnc (by decide) _).trans (decodeUop_heapInsert (of_decide_eq_true hi))
  | len l =>
    have hl : natOfBits (wordBits l) = l.toNat := by rw [wordBits, natOfBits_bitsOfNat, Nat.mod_eq_of_lt l.isLt]
    simp only [encode, decode, decodeLenTok, wordBits_length, if_true, hl, BitVec.ofNat_toNat, BitVec.setWidth_eq]
  | leaf v => simp only [encode, decode, decodeNodeTok, byteBits_length, if_true, byteOfBits_byteBits]
  | code p =>
    have hp : p.length ≤ Config.codeLenMax := of_decide_eq_true hi
    simp only [encode, decode, decodeCodeTok, hp, if_true]
  | pad z => exact decodePadTok_replicate (of_decide_eq_true hi)
  | wrWriteBits seq => exact decode_uopEnc (by decide) seq
  | _ => rfl

/-! ### What the decoder accepts -/

/-- `e` is the word of the instruction `i`, whose operands are in their ranges. -/
def IsEncoding (e : Enc) (i : Instr) : Prop := i.wellFormed = true ∧ encode i = e

/-- An operation without operands. -/
theorem decodePlain_isEncoding {n : Nat} {i j : Instr} {ops : List Bool} (hi : IsEncoding (uopEnc n []) i)
    (h : decodePlain n i ops = .ok j) : IsEncoding (uopEnc n ops) j := by
  cases ops with
  | nil => cases h; exact hi
  | cons b ops => cases h

/-- The operations on an accumulator. -/
theorem decodeAccOp_isEncoding {n : Nat} {ops : List Bool} {i : Instr} (h : decodeAccOp n ops = .ok i) :
    IsEncoding (uopEnc n ops) i := by
  unfold decodeAccOp at h
  split at h
  · cases h
  split at h
  case h_1 => cases h; simp [IsEncoding, Instr.wellFormed, encode]
  case h_2 => cases h; simp [IsEncoding, Instr.wellFormed, encode]
  case h_3 => cases h; simp [IsEncoding, Instr.wellFormed, encode]
  case h_4 i0 i1 i2 i3 i4 i5 i6 =>
    cases h
    have hlt := natOfBits_lt [i0, i1, i2, i3, i4, i5, i6]
    have hb := bitsOfNat_natOfBits [i0, i1, i2, i3, i4, i5, i6]
    simp only [List.length_cons, List.length_nil] at hlt hb
    exact ⟨decide_eq_true hlt, by rw [encode, bit_accOfBit, hb]⟩
  case h_5 => cases h

/-- The unit operations, along the table of 30_encoding.md R92. -/
theorem decodeUop_isEncoding {n : Nat} {ops : List Bool} {i : Instr} (h : decodeUop n ops = .ok i) :
    IsEncoding (uopEnc n ops) i := by
  unfold decodeUop at h
  split at h
  case h_1 => exact decodeAccOp_isEncoding h
  case h_2 => exact decodeAccOp_isEncoding h
  case h_3 => exact decodeAccOp_isEncoding h
  case h_4 => exact decodeAccOp_isEncoding h
  case h_6 => cases h; exact ⟨rfl, rfl⟩
  case h_7 =>
    split at h
    case isTrue hl => cases h; exact ⟨rfl, by rw [encode, byteBits_byteOfBits hl]⟩
    case isFalse => cases h
  case h_13 =>
    split at h
    case isFalse => cases h
    case isTrue hl =>
      split at h
      case isTrue hx => cases h; exact ⟨decide_eq_true hx, by rw [encode, bitsOfNat_natOfBits_of_length hl]⟩
      case isFalse => cases h
  case h_25 => cases h
  all_goals exact decodePlain_isEncoding ⟨rfl, rfl⟩ h

/-- The four command codes are all there is (30_encoding.md R90, R96). -/
theorem decodeCmd_eq_ok {bits : List Bool} {i : Instr} (h : decodeCmd bits = .ok i) :
    (bits = [false, false] ∧ i = .nop) ∨ (bits = [true, false] ∧ i = .compress) ∨
    (bits = [false, true] ∧ i = .decompress) ∨ (bits = [true, true] ∧ i = .reservedCmd3) := by
  unfold decodeCmd at h
  split at h
  case h_5 => cases h
  all_goals cases h; simp

theorem decodeCmd_isEncoding {bits : List Bool} {i : Instr} (h : decodeCmd bits = .ok i) :
    IsEncoding ⟨.cmd, bits⟩ i := by
  rcases decodeCmd_eq_ok h with ⟨rfl, rfl⟩ | ⟨rfl, rfl⟩ | ⟨rfl, rfl⟩ | ⟨rfl, rfl⟩ <;> exact ⟨rfl, rfl⟩

theorem decodeLenTok_isEncoding {bits : List Bool} {i : Instr} (h : decodeLenTok bits = .ok i) :
    IsEncoding ⟨.lenTok, bits⟩ i := by
  unfold decodeLenTok at h
  split at h
  case isTrue hl =>
    cases h
    exact ⟨rfl, by rw [encode, lenBits_ofNat, bitsOfNat_natOfBits_of_length hl]⟩
  case isFalse => cases h

theorem decodeNodeTok_isEncoding {bits : List Bool} {i : Instr} (h : decodeNodeTok bits = .ok i) :
    IsEncoding ⟨.nodeTok, bits⟩ i := by
  unfold decodeNodeTok at h
  split at h
  · cases h; exact ⟨rfl, rfl⟩
  · split at h
    case isTrue hl => cases h; exact ⟨rfl, by rw [encode, byteBits_byteOfBits hl]⟩
    case isFalse => cases h
  · cases h

theorem decodeCodeTok_isEncoding {bits : List Bool} {i : Instr} (h : decodeCodeTok bits = .ok i) :
    IsEncoding ⟨.codeTok, bits⟩ i := by
  unfold decodeCodeTok at h
  split at h
  case isTrue hl => cases h; exact ⟨decide_eq_true hl, rfl⟩
  case isFalse => cases h

theorem decodePadTok_isEncoding {bits : List Bool} {i : Instr} (h : decodePadTok bits = .ok i) :
    IsEncoding ⟨.padTok, bits⟩ i := by
  unfold decodePadTok at h
  split at h
  case isTrue hz =>
    obtain ⟨hl, hall⟩ := hz
    cases h
    have hrep : bits = List.replicate bits.length false :=
      List.eq_replicate_iff.mpr ⟨rfl, fun b hb => by simpa using List.all_eq_true.mp hall b hb⟩
    exact ⟨decide_eq_true hl, by rw [encode, ← hrep]⟩
  case isFalse => cases h

/-- Settles O2, format by format. -/
theorem decodedWordsAreEncodings : Obligations.DecodedWordsAreEncodings := by
  rintro ⟨fmt, bits⟩ i h
  change IsEncoding ⟨fmt, bits⟩ i
  cases fmt with
  | cmd => exact decodeCmd_isEncoding h
  | uop =>
    obtain ⟨n, ops, he, hi⟩ := decodeUopBits_eq_ok h
    exact he ▸ decodeUop_isEncoding hi
  | lenTok => exact decodeLenTok_isEncoding h
  | nodeTok => exact decodeNodeTok_isEncoding h
  | codeTok => exact decodeCodeTok_isEncoding h
  | padTok => exact decodePadTok_isEncoding h

/-- Settles O3: the id is the first six bits of a unit operation's word. -/
theorem operationIds : Obligations.OperationIds := by
  unfold Obligations.OperationIds
  and_intros
  all_goals intros; exact uopEnc_take _ _

/-- Settles O5, by the bits of a word and of a byte (`wordBits_eq`, `byteBits_eq`). -/
theorem tokenBits : Obligations.TokenBits := by
  refine ⟨fun l i hi => ?_, wordBits_length, rfl, fun v => congrArg (true :: ·) (byteBits_eq v), fun _ => rfl,
    fun _ => rfl⟩
  simp only [encode, wordBits_eq, List.getElem?_map, List.getElem?_range hi, Option.map_some]

/-- Settles O6: each word is decoded by computation. -/
theorem specWordsDecode : Obligations.SpecWordsDecode :=
  ⟨rfl, rfl, rfl, rfl, rfl, rfl, rfl, rfl, rfl, rfl, rfl⟩

namespace Machine

/-- An issued word that the decoder refuses stops the machine (93_implementation_defined.md U12). -/
theorem step_issue_undefined {s : State} {w : Enc} {e : DecodeError} {rest : List Line} (hd : decode w = .error e)
    (hs : s.script = .issue w :: rest) : step s = .refused (.undefinedEncoding e) := by
  simp only [step, fetch, hs, fetchWord, hd]

/-- Settles O4: the id is read back (`decode_uopEnc`), and the table does not list it (`decodeUop_unknown`). -/
theorem unknownOperationIdsRefused : Obligations.UnknownOperationIdsRefused := fun _ ops _ _ hn hid hs =>
  step_issue_undefined ((decode_uopEnc hn ops).trans (decodeUop_unknown ops hid)) hs

/-- Settles O14: the command codes by `decodeCmd_eq_ok`; the meaning of `NOP` and of the reserved code is the state
itself. -/
theorem nopAndReservedChangeNothing : Obligations.NopAndReservedChangeNothing :=
  ⟨fun _ _ h => decodeCmd_eq_ok h, fun _ => ⟨rfl, rfl⟩⟩

end Machine

end Sys2Proof
end

section
/-! PROOFS. The family of 30_encoding.md: the tokens of the container as instructions, and the codes of a tree. -/

namespace Sys2Proof.Machine

theorem Res.Within.of_ok {α : Type} {x : Res α} {fs : List Field} {s t : State} {a : α} (h : x.Within fs s)
    (e : x = .ok a t) : Only fs s t := by subst e; exact h

theorem Res.Within.of_raise {α : Type} {x : Res α} {fs : List Field} {s t : State} {e : Err} (h : x.Within fs s)
    (he : x = .raise e t) : Only fs s t := by subst he; exact h

/-- A field that is known to be the same need not be listed. -/
theorem Only.without {fs gs : List Field} {f : Field} {s t : State} (h : Only fs s t) (hf : f.Same s t)
    (hs : fs ⊆ f :: gs) : Only gs s t := fun g hg => by
  by_cases he : g = f
  · exact he ▸ hf
  · exact h g fun hm => (List.mem_cons.mp (hs hm)).elim he hg

theorem setCur_only (x : Option Nat) (s : State) : Only [.cur] s { s with cur := x } := fun f hf => by
  cases f <;> simp [Field.Same] at hf ⊢

theorem ReaderMoved.only {s t : State} (h : ReaderMoved s t) : Only [.racc, .rdCursor, .srcPos, .draws] s t := by
  rw [h.1]
  exact fun f hf => by cases f <;> simp [Field.Same] at hf ⊢

/-! ### The codes of a tree -/

/-- Settles O39: a symbol's code is the path to its first leaf (`Tree.codeOf_isSome`, `Tree.follow_codeOf`), a path has
a leaf beside each of its bits (`Tree.follow_length`), and no path to a leaf goes on to another
(`Tree.follow_unique`). -/
theorem codesArePrefixFree : Obligations.CodesArePrefixFree := by
  intro t
  refine ⟨fun v => ⟨Tree.codeOf_isSome, fun ⟨p, h⟩ => ?_⟩, fun v p h => ⟨Tree.follow_codeOf h,
    Tree.follow_length (Tree.follow_codeOf h)⟩, fun p q v w hp hq ⟨r, hr⟩ => ?_⟩
  · have hm : (v, p) ∈ t.codes [] := Tree.mem_codes_iff.mpr ⟨p, rfl, Tree.follow_codeOf h⟩
    rw [← Tree.codes_fst [] t]
    exact List.mem_map_of_mem hm
  · exact Tree.follow_unique hp hq (hr.trans (List.append_nil q).symm)

/-! ### Tokens written -/

/-- An instruction that writes the bits of its encoding appends them to the stream. -/
theorem exec_appends {i : Instr} {s : State} (hs : Serves s) (hw : s.wacc.length < Config.accCap)
    (he : exec i s = (writeBits (encode i).bits s).outcome) :
    ∃ t, exec i s = .next t ∧ Appended (encode i).bits s t ∧ Only [.wacc, .sink, .wrTotal, .draws] s t := by
  obtain ⟨_, t, ht, -, happ⟩ := (writeBits_appended (encode i).bits s hw).served hs
  exact ⟨t, by rw [he, ht, Res.outcome_ok], happ, (writeBits_only _ s).of_ok ht⟩

/-- Settles O23, token by token: each is written as its encoding (`exec_appends`), `PAD` is only pushed. -/
theorem tokensWritten : Obligations.TokensWritten := by
  intro s hs hw h1 h2 h3
  have hr := reading_eq_false h1 h2 h3
  refine ⟨?_, fun z hz => ?_⟩
  · rintro i (⟨l, rfl⟩ | rfl | ⟨v, rfl⟩ | ⟨p, rfl⟩)
    · exact exec_appends hs hw (exec_len_written hr l)
    · exact exec_appends hs hw (exec_internal_written hr)
    · exact exec_appends hs hw (exec_leaf_written hr v)
    · exact exec_appends hs hw (exec_code_written hr p)
  · rw [exec_pad_written hr, accPushBits_eq .writer _ s (by rw [List.length_replicate]; exact hz)]
    rfl

/-! ### Tokens refused by their place -/

theorem exec_len_outOfOrder {s : State} (h : s.phase = .dTree ∨ s.phase = .dWalk) (l : BitVec 32) :
    exec (.len l) s = .refused .outOfOrder := by
  rcases h with h | h <;> simp [exec, execLen, reading, h]

theorem exec_code_outOfOrder {s : State} (h : s.phase = .dLen ∨ s.phase = .dTree) (p : List Bool) :
    exec (.code p) s = .refused .outOfOrder := by
  rcases h with h | h <;> simp [exec, execCode, reading, h]

/-- The instruction of a node token: `INTERNAL`, or `LEAF` of a symbol (30_encoding.md R100). -/
def nodeToken : Option Byte → Instr
  | none => .internal
  | some v => .leaf v

theorem encode_nodeToken (tok : Option Byte) : (encode (nodeToken tok)).bits = nodeTokenBits tok := by
  cases tok <;> rfl

/-- In `D_TREE` a node token is one round of the deserializer. -/
theorem exec_nodeToken_reads {s : State} (h : s.phase = .dTree) (tok : Option Byte) :
    exec (nodeToken tok) s = (readNodeToken tok s).outcome := by
  cases tok <;> simp [nodeToken, exec, execInternal, execLeaf, reading, h]

/-- In the other phases of DECOMPRESS, and once the tree is complete, there is no node token. -/
theorem exec_nodeToken_outOfOrder {s : State}
    (h : s.phase = .dLen ∨ s.phase = .dWalk ∨ (s.phase = .dTree ∧ s.stk = [] ∧ s.node ≠ [])) (tok : Option Byte) :
    exec (nodeToken tok) s = .refused .outOfOrder := by
  rcases h with h | h | ⟨h, hdone⟩
  · cases tok <;> simp [nodeToken, exec, execInternal, execLeaf, reading, h]
  · cases tok <;> simp [nodeToken, exec, execInternal, execLeaf, reading, h]
  · rw [exec_nodeToken_reads h, readNodeToken, if_pos hdone, Res.outcome_refused]

/-- Settles O45, token by token. -/
theorem tokensOutOfPlace : Obligations.TokensOutOfPlace := fun _ =>
  ⟨exec_len_outOfOrder,
    fun h => ⟨exec_nodeToken_outOfOrder h none, fun v => exec_nodeToken_outOfOrder h (some v)⟩,
    exec_code_outOfOrder⟩

/-! ### The reader where the host serves every transfer -/

section
variable {s : State} (hs : Serves s) (hc : s.rdCursor ≤ s.racc.length)
include hs hc

theorem popBit_next {b : Bool} {rest : List Bool} (hu : unread s = b :: rest) :
    ∃ t, popBit s = .ok b t ∧ ReaderMoved s t ∧ unread t = rest := by
  rcases (popBit_meets s hc).cases with ⟨c, t, ht, hm, h⟩ | ⟨e, t, -, hf | ⟨-, hlt, -⟩⟩
  · obtain ⟨rfl, hr⟩ := List.cons.inj (hu.symm.trans h)
    exact ⟨t, ht, hm, hr.symm⟩
  · exact (hf.not_serves hs).elim
  · rw [hu] at hlt
    simp at hlt

/-- Where no bit is left the read of SRC finds no byte, and nothing is consumed (40_bitchannel.md R138, R140). -/
theorem popBit_ended (hu : unread s = []) : ∃ t, popBit s = .raise .endOfInput t ∧ Only [.draws] s t := by
  obtain ⟨hheld, hsrc⟩ := List.append_eq_nil_iff.mp hu
  have he : s.rdCursor = s.racc.length := Nat.le_antisymm hc (List.drop_eq_nil_iff.mp hheld)
  have hbytes : srcBytes s.srcPos 8 s = [] := by
    have hlen := bytesBits_length (s.src.drop s.srcPos)
    rw [hsrc, List.length_nil] at hlen
    rw [srcBytes, List.length_eq_zero_iff.mp (by omega : (s.src.drop s.srcPos).length = 0), List.take_nil]
  rcases (refill_cases s).cases with ⟨_, t, -, hne, -⟩ | ⟨e, t, ht, hf | ⟨rfl, -, rfl⟩⟩
  · exact (hne hbytes).elim
  · exact (hf.not_serves hs).elim
  · exact ⟨_, by rw [popBit_empty he, ht, Res.bind_raise], answered_only s⟩

theorem readLength_next {l : BitVec 32} {rest : List Bool} (hu : unread s = wordBits l ++ rest) :
    ∃ t, readLength s = .ok () t ∧ t.l = l ∧ unread t = rest := by
  rcases (readLength_meets s hc).cases with ⟨_, t, ht, u, -, h, hl⟩ | ⟨e, t, -, hf | ⟨-, hlt, -⟩⟩
  · obtain ⟨hm, hr⟩ := wordBits_unique (h.symm.trans hu)
    exact ⟨t, ht, hm, by rw [hl]; exact hr⟩
  · exact (hf.not_serves hs).elim
  · rw [hu, List.length_append, wordBits_length] at hlt
    omega

theorem readLength_ended (hu : (unread s).length < 32) : ∃ t, readLength s = .raise .endOfInput t ∧ unread t = [] := by
  rcases (readLength_meets s hc).cases with ⟨_, t, ht, u, -, h, -⟩ | ⟨e, t, ht, hf | ⟨rfl, -, -, h⟩⟩
  · rw [h, List.length_append, wordBits_length] at hu
    omega
  · exact (hf.not_serves hs).elim
  · exact ⟨t, ht, h⟩

theorem walk_next {x : Nat} {t : Tree} (hr : s.root = some x) (hx : Holds s.node x t) {p rest : List Bool} {v : Byte}
    (hp : t.follow p = some (.leaf v)) (hu : unread s = p ++ rest) :
    ∃ u, walk s = .ok p u ∧ u.sink = s.sink ++ [v] ∧ unread u = rest := by
  rcases (walk_meets s x t hc hr hx).cases with ⟨q, u, hw, w, hq, h, -, m, -, -, he⟩ | ⟨e, u, -, hf | ⟨-, hno, -⟩⟩
  · obtain ⟨rfl, rfl⟩ := Tree.follow_unique hp hq (hu.symm.trans h)
    exact ⟨u, hw, by rw [he], List.append_cancel_left (h.symm.trans hu)⟩
  · exact (hf.not_serves hs).elim
  · exact (hno p v hp ⟨rest, hu.symm⟩).elim

/-- Where the bits left begin with no code they are all consumed, and nothing is written (45_encoder_decoder.md R215). -/
theorem walk_ended {x : Nat} {t : Tree} (hr : s.root = some x) (hx : Holds s.node x t)
    (hno : ∀ p v, t.follow p = some (.leaf v) → ¬ p <+: unread s) :
    ∃ u, walk s = .raise .endOfInput u ∧ unread u = [] ∧ Only [.racc, .rdCursor, .srcPos, .draws, .cur] s u := by
  rcases (walk_meets s x t hc hr hx).cases with ⟨q, u, -, w, hq, h, -⟩ | ⟨e, u, hw, hf | ⟨rfl, -, h, ⟨m, hm, he⟩, -⟩⟩
  · exact (hno q w hq ⟨unread u, h.symm⟩).elim
  · exact (hf.not_serves hs).elim
  · have hcur := setCur_only u.cur m
    rw [← he] at hcur
    exact ⟨u, hw, h, (hm.only.mono (by simp)).trans (hcur.mono (by simp))⟩

end

/-! ### A node token read -/

theorem nodeTokenBits_unique {a b : Option Byte} {x y : List Bool}
    (h : nodeTokenBits a ++ x = nodeTokenBits b ++ y) : a = b ∧ x = y := by
  cases a with
  | none =>
    cases b with
    | none => exact ⟨rfl, (List.cons.inj h).2⟩
    | some w => cases (List.cons.inj h).1
  | some v =>
    cases b with
    | none => cases (List.cons.inj h).1
    | some w =>
      obtain ⟨hb, hr⟩ := List.append_inj (List.cons.inj h).2 (by rw [byteBits_length, byteBits_length])
      exact ⟨by rw [← byteOfBits_byteBits v, hb, byteOfBits_byteBits], hr⟩

/-- The entry of NODE that a node token makes (43_treecodec.md R188). -/
def tokenNode : Option Byte → Node
  | none => .internal 0 none none
  | some v => .leaf v 0

/-- The stack after node `i` has been made by a node token: an internal node waits for its left child. -/
def tokenStk (i : Nat) (st : List StkEntry) : Option Byte → List StkEntry
  | none => .build i false :: st
  | some _ => st

/-- The deserializer can take a node token: it has read none yet, or an internal node of the store waits for a child. -/
def Expects (s : State) : Prop := Waiting s.node s.stk ∧ ¬ (s.stk = [] ∧ s.node ≠ [])

theorem Expects.of_start {s : State} (hk : s.stk = []) (hn : s.node = []) : Expects s :=
  ⟨by rw [hk]; trivial, fun h => h.2 hn⟩

theorem Expects.of_waiting {s : State} {p : Nat} {d : Bool} {st : List StkEntry} {w : Nat} {l r : Option Nat}
    (hk : s.stk = .build p d :: st) (hg : s.node[p]? = some (.internal w l r)) : Expects s :=
  ⟨by rw [hk]; exact ⟨w, l, r, hg⟩, fun h => by rw [hk] at h; cases h.1⟩

theorem readNodeToken_of_expects {s : State} (h : Expects s) (tok : Option Byte) : readNodeToken tok s =
    (readNode s).bind fun t s => if t = tok then .ok () (closeTree s) else .refused .tokenMismatch :=
  if_neg h.2

/-- What the deserializer raises, a node token raises. -/
theorem exec_nodeToken_raise {s t : State} {e : Err} (hp : s.phase = .dTree) (he : Expects s)
    (h : readNode s = .raise e t) (tok : Option Byte) : exec (nodeToken tok) s = .next (abort e t) := by
  rw [exec_nodeToken_reads hp, readNodeToken_of_expects he, h, Res.bind_raise, Res.outcome_raise]

theorem closeTree_root (s : State) : (closeTree s).root = if s.stk = [] then some 0 else s.root := by
  unfold closeTree
  split <;> simp [*]

theorem unread_closeTree (s : State) : unread (closeTree s) = unread s := by
  unfold closeTree
  split <;> rfl

/-- From `s` to `t` the node token has been read: its node is attached and made, and `ROOT` is written once no node
waits (43_treecodec.md R188). -/
structure NodeRead (tok : Option Byte) (s t : State) : Prop where
  node : t.node = attachNodes s.node.length s.node s.stk ++ [tokenNode tok]
  stk : t.stk = tokenStk s.node.length (attachStk s.stk) tok
  root : t.root = if t.stk = [] then some 0 else s.root
  only : Only [.racc, .rdCursor, .srcPos, .draws, .node, .stk, .root] s t

section
variable {s : State} (hs : Serves s) (hc : s.rdCursor ≤ s.racc.length)
include hs hc

/-- A round of the deserializer on a stream that begins with a node token. -/
theorem readNode_next (hw : Waiting s.node s.stk) (hn : s.node.length < Config.nodeCap) {tok : Option Byte}
    {rest : List Bool} (hu : unread s = nodeTokenBits tok ++ rest) :
    ∃ t, readNode s = .ok tok t ∧ unread t = rest ∧
      t.node = attachNodes s.node.length s.node s.stk ++ [tokenNode tok] ∧
      t.stk = tokenStk s.node.length (attachStk s.stk) tok := by
  have key : ∀ (tok' : Option Byte) (m : List Bool), unread s = nodeTokenBits tok' ++ m → tok' = tok ∧ m = rest :=
    fun tok' m h => nodeTokenBits_unique (h.symm.trans hu)
  rcases (readNode_meets s hc hw).cases with
    ⟨tok', t, ht, m, -, -, ⟨rfl, h, he⟩ | ⟨v, rfl, h, he⟩⟩ | ⟨e, t, -, hf | ⟨-, -, h | ⟨r, h, hr, -⟩⟩ | ⟨-, -, hl, -⟩⟩
  · obtain ⟨rfl, hm⟩ := key none _ h
    exact ⟨t, ht, by rw [he]; exact hm, by rw [he]; rfl, by rw [he]; rfl⟩
  · obtain ⟨rfl, hm⟩ := key (some v) _ h
    exact ⟨t, ht, by rw [he]; exact hm, by rw [he]; rfl, by rw [he]; rfl⟩
  · exact (hf.not_serves hs).elim
  · cases tok <;> simp [hu, nodeTokenBits] at h
  · cases tok with
    | none => simp [hu, nodeTokenBits] at h
    | some v =>
      obtain rfl : byteBits v ++ rest = r := by simpa [hu, nodeTokenBits] using h
      rw [List.length_append, byteBits_length] at hr
      omega
  · exact (Nat.ne_of_lt hn hl).elim

/-- A stream that ends before the round's first bit, -/
theorem readNode_noFlag (hu : unread s = []) : ∃ t, readNode s = .raise .endOfInput t ∧ Only [.draws] s t := by
  obtain ⟨t, ht, ho⟩ := popBit_ended hs hc hu
  exact ⟨t, by rw [readNode, ht, Res.bind_raise], ho⟩

/-- or within the symbol of a leaf (43_treecodec.md R189); -/
theorem readNode_noSymbol (hw : Waiting s.node s.stk) (hn : s.node.length < Config.nodeCap) {rest : List Bool}
    (hu : unread s = true :: rest) (hr : rest.length < 8) :
    ∃ t, readNode s = .raise .endOfInput t ∧ unread t = [] := by
  rcases (readNode_meets s hc hw).cases with
    ⟨tok, t, -, m, -, -, ⟨-, h, -⟩ | ⟨v, -, h, -⟩⟩ | ⟨e, t, ht, hf | ⟨rfl, h, -⟩ | ⟨-, -, hl, -⟩⟩
  · simp [hu] at h
  · obtain rfl := (List.cons.inj (hu.symm.trans h)).2
    rw [List.length_append, byteBits_length] at hr
    omega
  · exact (hf.not_serves hs).elim
  · exact ⟨t, ht, h⟩
  · exact (Nat.ne_of_lt hn hl).elim

/-- and a node store that is full once the flag bit has been read (43_treecodec.md R187, 60_exceptions.md R247). -/
theorem readNode_full (hn : s.node.length = Config.nodeCap) {b : Bool} {rest : List Bool} (hu : unread s = b :: rest) :
    ∃ t, readNode s = .raise .nodeStoreOverflow t ∧ unread t = rest ∧
      Only [.racc, .rdCursor, .srcPos, .draws] s t := by
  obtain ⟨t, ht, hm, hr⟩ := popBit_next hs hc hu
  have hl : t.node.length = Config.nodeCap := by rw [hm.1]; exact hn
  exact ⟨t, by rw [readNode, ht, Res.bind_ok, if_pos hl], hr, hm.only⟩

/-- A node token on a stream that begins with a node token: the token itself is consumed, another is refused. -/
theorem exec_nodeToken_next (hp : s.phase = .dTree) (he : Expects s) (hn : s.node.length < Config.nodeCap)
    {tok : Option Byte} {rest : List Bool} (hu : unread s = nodeTokenBits tok ++ rest) :
    (∃ t, exec (nodeToken tok) s = .next t ∧ NodeRead tok s t ∧ unread t = rest) ∧
      ∀ tok', tok' ≠ tok → exec (nodeToken tok') s = .refused .tokenMismatch := by
  obtain ⟨t, ht, hr, hnode, hstk⟩ := readNode_next hs hc he.1 hn hu
  have hx : ∀ tok', exec (nodeToken tok') s = (readNodeToken tok' s).outcome := exec_nodeToken_reads hp
  have hok : readNodeToken tok s = .ok () (closeTree t) := by
    rw [readNodeToken_of_expects he, ht, Res.bind_ok, if_pos rfl]
  have hclose := closeTree_only t
  have hcn : (closeTree t).node = t.node := hclose .node (by decide)
  have hck : (closeTree t).stk = t.stk := hclose .stk (by decide)
  have hroot : t.root = s.root := (readNode_only s).of_ok ht .root (by decide)
  refine ⟨⟨closeTree t, by rw [hx, hok, Res.outcome_ok], ⟨by rw [hcn, hnode], by rw [hck, hstk], ?_,
    (readNodeToken_only tok s).of_ok hok⟩, by rw [unread_closeTree, hr]⟩, fun tok' h => ?_⟩
  · rw [closeTree_root, hck, hroot]
  · rw [hx, readNodeToken_of_expects he, ht, Res.bind_ok, if_neg (Ne.symm h), Res.outcome_refused]

/-- `INTERNAL` is next: the stack is not empty afterwards, so `ROOT` is not written. -/
theorem exec_internal_next (hp : s.phase = .dTree) (he : Expects s) (hn : s.node.length < Config.nodeCap)
    {rest : List Bool} (hu : unread s = (encode .internal).bits ++ rest) :
    (∃ t, exec .internal s = .next t ∧
      t.node = attachNodes s.node.length s.node s.stk ++ [.internal 0 none none] ∧
      t.stk = .build s.node.length false :: attachStk s.stk ∧ unread t = rest ∧
      Only [.racc, .rdCursor, .srcPos, .draws, .node, .stk] s t) ∧
    ∀ v, exec (.leaf v) s = .refused .tokenMismatch := by
  obtain ⟨⟨t, ht, h, hr⟩, hne⟩ := exec_nodeToken_next hs hc hp he hn (tok := none) hu
  have hroot : t.root = s.root := by rw [h.root, h.stk]; exact if_neg (List.cons_ne_nil _ _)
  exact ⟨⟨t, ht, h.node, h.stk, hr, h.only.without (f := .root) hroot (by decide)⟩, fun v => hne (some v) nofun⟩

/-- `LEAF` of a symbol is next. -/
theorem exec_leaf_next (hp : s.phase = .dTree) (he : Expects s) (hn : s.node.length < Config.nodeCap) {v : Byte}
    {rest : List Bool} (hu : unread s = (encode (.leaf v)).bits ++ rest) :
    (∃ t, exec (.leaf v) s = .next t ∧ t.node = attachNodes s.node.length s.node s.stk ++ [.leaf v 0] ∧
      t.stk = attachStk s.stk ∧ t.root = (if attachStk s.stk = [] then some 0 else s.root) ∧ unread t = rest ∧
      Only [.racc, .rdCursor, .srcPos, .draws, .node, .stk, .root] s t) ∧
    exec .internal s = .refused .tokenMismatch ∧ ∀ w, w ≠ v → exec (.leaf w) s = .refused .tokenMismatch := by
  obtain ⟨⟨t, ht, h, hr⟩, hne⟩ := exec_nodeToken_next hs hc hp he hn (tok := some v) hu
  refine ⟨⟨t, ht, h.node, h.stk, ?_, hr, h.only⟩, hne none nofun,
    fun w hw => hne (some w) fun h => hw (Option.some.inj h)⟩
  rw [h.root, h.stk]
  rfl

end

/-! ### The tokens read -/

theorem exec_len_reads {s : State} (h : s.phase = .dLen) (l : BitVec 32) :
    exec (.len l) s = (readLenToken l s).outcome := by
  simp [exec, execLen, reading, h]

theorem exec_pad_reading {s : State} (h : s.phase = .dLen ∨ s.phase = .dTree ∨ s.phase = .dWalk) (z : Nat) :
    exec (.pad z) s = .next s := by
  rcases h with h | h | h <;> simp [exec, execPad, reading, h]

/-- The node that waits on top of the stack gets its left child, or its right one and leaves the stack. -/
theorem attach_waiting {nodes : List Node} {p : Nat} {d : Bool} {st : List StkEntry} {w : Nat} {l r : Option Nat}
    (i : Nat) (hg : nodes[p]? = some (.internal w l r)) :
    attachNodes i nodes (.build p d :: st) =
      nodes.set p (if d then .internal w l (some i) else .internal w (some i) r) ∧
    attachStk (.build p d :: st) = if d then st else .build p true :: st := by
  cases d <;> simp [attachNodes, attachStk, hg]

section
variable {s : State} (hs : Serves s) (hc : s.rdCursor ≤ s.racc.length)
include hs hc

theorem exec_len_next (hp : s.phase = .dLen) {m : BitVec 32} {rest : List Bool}
    (hu : unread s = (encode (.len m)).bits ++ rest) :
    (∃ t, exec (.len m) s = .next t ∧ t.l = m ∧ unread t = rest ∧ Only [.racc, .rdCursor, .srcPos, .draws, .l] s t) ∧
    ∀ l, l ≠ m → exec (.len l) s = .refused .tokenMismatch := by
  obtain ⟨t, ht, rfl, hr⟩ := readLength_next hs hc hu
  refine ⟨⟨t, ?_, rfl, hr, (readLength_only s).of_ok ht⟩, fun l hl => ?_⟩
  · rw [exec_len_reads hp, readLenToken, ht, Res.bind_ok, if_pos rfl, Res.outcome_ok]
  · rw [exec_len_reads hp, readLenToken, ht, Res.bind_ok, if_neg (Ne.symm hl), Res.outcome_refused]

theorem exec_len_ended (hp : s.phase = .dLen) (hu : (unread s).length < 32) (l : BitVec 32) :
    ∃ t, exec (.len l) s = .next (abort .endOfInput t) ∧ unread t = [] ∧
      Only [.racc, .rdCursor, .srcPos, .draws, .l] s t := by
  obtain ⟨t, ht, hr⟩ := readLength_ended hs hc hu
  exact ⟨t, by rw [exec_len_reads hp, readLenToken, ht, Res.bind_raise, Res.outcome_raise], hr,
    (readLength_only s).of_raise ht⟩

/-- A node token on a stream that ends within it, or where a 512th node would be needed. -/
theorem exec_nodeToken_fails (hp : s.phase = .dTree) (he : Expects s) (tok : Option Byte) :
    (unread s = [] → ∃ t, exec (nodeToken tok) s = .next (abort .endOfInput t) ∧ Only [.draws] s t) ∧
    (∀ rest, unread s = true :: rest → rest.length < 8 → s.node.length < Config.nodeCap →
      ∃ t, exec (nodeToken tok) s = .next (abort .endOfInput t) ∧ unread t = [] ∧
        Only [.racc, .rdCursor, .srcPos, .draws, .node, .stk] s t) ∧
    (∀ b rest, unread s = b :: rest → s.node.length = Config.nodeCap →
      ∃ t, exec (nodeToken tok) s = .next (abort .nodeStoreOverflow t) ∧ unread t = rest ∧
        Only [.racc, .rdCursor, .srcPos, .draws] s t) := by
  refine ⟨fun hu => ?_, fun rest hu hr hn => ?_, fun b rest hu hn => ?_⟩
  · obtain ⟨t, ht, ho⟩ := readNode_noFlag hs hc hu
    exact ⟨t, exec_nodeToken_raise hp he ht tok, ho⟩
  · obtain ⟨t, ht, hend⟩ := readNode_noSymbol hs hc he.1 hn hu hr
    exact ⟨t, exec_nodeToken_raise hp he ht tok, hend, (readNode_only s).of_raise ht⟩
  · obtain ⟨t, ht, hrest, ho⟩ := readNode_full hs hc hn hu
    exact ⟨t, exec_nodeToken_raise hp he ht tok, hrest, ho⟩

section
variable (hp : s.phase = .dWalk) {x : Nat} {t : Tree} (hr : s.root = some x) (hx : Holds s.node x t)
include hp hr hx

theorem exec_code_next {p rest : List Bool} {v : Byte} (hv : t.follow p = some (.leaf v))
    (hu : unread s = (encode (.code p)).bits ++ rest) :
    (∃ u, exec (.code p) s = .next u ∧ u.sink = s.sink ++ [v] ∧ unread u = rest ∧
      Only [.racc, .rdCursor, .srcPos, .draws, .cur, .sink, .wrTotal, .outcnt] s u) ∧
    ∀ q, q ≠ p → exec (.code q) s = .refused .tokenMismatch := by
  obtain ⟨u, hw, hsink, hrest⟩ := walk_next hs hc hr hx hv hu
  refine ⟨⟨u, ?_, hsink, hrest, (walk_only s).of_ok hw⟩, fun q hq => ?_⟩
  · rw [exec_code_walked hp, readCodeToken, hw, Res.bind_ok, if_pos rfl, Res.outcome_ok]
  · rw [exec_code_walked hp, readCodeToken, hw, Res.bind_ok, if_neg (Ne.symm hq), Res.outcome_refused]

theorem exec_code_ended (hno : ∀ p v, t.follow p = some (.leaf v) → ¬ p <+: unread s) (q : List Bool) :
    ∃ u, exec (.code q) s = .next (abort .endOfInput u) ∧ unread u = [] ∧
      Only [.racc, .rdCursor, .srcPos, .draws, .cur] s u := by
  obtain ⟨u, hw, hend, ho⟩ := walk_ended hs hc hr hx hno
  exact ⟨u, by rw [exec_code_walked hp, readCodeToken, hw, Res.bind_raise, Res.outcome_raise], hend, ho⟩

end

end

/-- Settles O44, token by token; the node token that starts the tree and the one a node waits for by the same lemmas
(`exec_internal_next`, `exec_leaf_next`). -/
theorem tokensRead : Obligations.TokensRead := by
  intro s hs hc
  refine ⟨fun hp => ⟨fun l m rest hu => ?_, exec_len_ended hs hc hp⟩, fun hp hn hk => ?_,
    fun p d st waits w l r attached hp hk hg hlt hwaits hatt => ?_, fun i hi hp hexp => ?_,
    fun x t hp hr hx => ⟨fun p rest v => exec_code_next hs hc hp hr hx, exec_code_ended hs hc hp hr hx⟩,
    fun z hp => exec_pad_reading hp z⟩
  · obtain ⟨hnext, hother⟩ := exec_len_next hs hc hp hu
    exact ⟨fun h => h ▸ hnext, hother l⟩
  · have he := Expects.of_start hk hn
    have hlt : s.node.length < Config.nodeCap := by rw [hn]; decide
    have hnode : attachNodes s.node.length s.node s.stk = [] := by rw [hk, hn]; rfl
    have hstk : attachStk s.stk = [] := by rw [hk]; rfl
    refine ⟨fun rest hu => ?_, fun v rest hu => ?_⟩
    · have h := exec_internal_next hs hc hp he hlt hu
      rwa [hnode, hstk, hn] at h
    · obtain ⟨⟨t, ht, htn, htk, htr, hrest, ho⟩, hother⟩ := exec_leaf_next hs hc hp he hlt hu
      rw [hnode] at htn
      rw [if_pos hstk] at htr
      exact ⟨⟨t, ht, htn, htr, hrest, ho.without (f := .stk) (htk.trans (hstk.trans hk.symm)) (by decide)⟩, hother⟩
  · obtain ⟨hnode, hstk⟩ := attach_waiting (d := d) (st := st) s.node.length hg
    rw [← hatt, ← hk] at hnode
    rw [← hwaits, ← hk] at hstk
    rw [← hnode, ← hstk]
    have he := Expects.of_waiting hk hg
    exact ⟨fun rest => exec_internal_next hs hc hp he hlt, fun v rest => exec_leaf_next hs hc hp he hlt⟩
  · have he : Expects s := by
      rcases hexp with ⟨hk, hn⟩ | ⟨p, d, st, w, l, r, hk, hg⟩
      · exact .of_start hk hn
      · exact .of_waiting hk hg
    rcases hi with rfl | ⟨v, rfl⟩
    · exact exec_nodeToken_fails hs hc hp he none
    · exact exec_nodeToken_fails hs hc hp he (some v)

end Sys2Proof.Machine
end

section
/-! PROOFS. The family of 40_bitchannel.md: the accumulator, the writer and the reader. -/

namespace Sys2Proof

theorem fullBytes_ne_nil {bits : List Bool} (h : 8 ≤ bits.length) : fullBytes bits ≠ [] := by
  obtain ⟨v, rest, rfl⟩ := exists_byte_of_length h
  rw [fullBytes_byteBits_append]
  exact List.cons_ne_nil v _

namespace Machine

/-! ### The accumulator (40_bitchannel.md R121 to R124) -/

section
variable {a : Acc} {s : State}

theorem isFull_eq_true_iff : isFull a s = true ↔ (acc a s).length = Config.accCap := decide_eq_true_iff

theorem accPushBit_full (h : (acc a s).length = Config.accCap) (b : Bool) :
    accPushBit a b s = .raise .capacityExceeded s :=
  if_pos (isFull_eq_true_iff.mpr h)

theorem accPushBit_free (h : (acc a s).length < Config.accCap) (b : Bool) :
    accPushBit a b s = .ok () (setAcc a (acc a s ++ [b]) s) :=
  if_neg fun hf => Nat.ne_of_lt h (isFull_eq_true_iff.mp hf)

theorem accBitAt_held {i : Nat} (h : i < (acc a s).length) : accBitAt a i s = .ok (acc a s)[i] s := by
  rw [accBitAt, List.getElem?_eq_getElem h]

theorem accBitAt_past {i : Nat} (h : (acc a s).length ≤ i) : accBitAt a i s = .raise .outOfRange s := by
  rw [accBitAt, List.getElem?_eq_none h]

end

end Machine

open Machine

/-- Settles O15: `ACC.CLEAR` is `setAcc` of no bit. -/
theorem accClear : Obligations.AccClear := fun a s =>
  ⟨uopEnc_take 0 _, setAcc a [] s, rfl, acc_setAcc a [] s, by simp [isFull, Config.accCap], setAcc_only a [] s⟩

/-- Settles O16: the answer is `isFull`, which is held = C by definition. -/
theorem accIsFull : Obligations.AccIsFull := fun _ _ => ⟨uopEnc_take 1 _, rfl⟩

/-- Settles O17, by the full accumulator (`accPushBit_full`) and the one with room (`accPushBit_free`). -/
theorem accPushBit : Obligations.AccPushBit := by
  refine fun a b s => ⟨uopEnc_take 2 _, fun h => ?_, fun h => ?_⟩
  · exact congrArg Res.outcome (accPushBit_full h b)
  · have hlen : (acc a (setAcc a (acc a s ++ [b]) s)).length = (acc a s).length + 1 := by
      rw [acc_setAcc, List.length_append, List.length_singleton]
    exact ⟨_, congrArg Res.outcome (accPushBit_free h b), acc_setAcc a _ s, hlen,
      isFull_eq_true_iff.trans (by rw [hlen]; rfl), setAcc_only a _ s⟩

/-- Settles O18, by the index of a bit held (`accBitAt_held`) and one past them (`accBitAt_past`). -/
theorem accBitAt : Obligations.AccBitAt := fun _ _ _ =>
  ⟨uopEnc_take 3 _, fun h => congrArg (Res.outcomeRet .bit) (accBitAt_held h),
    fun h => congrArg (Res.outcomeRet .bit) (accBitAt_past h)⟩

namespace Machine

/-! ### The writer (40_bitchannel.md R128 to R134) -/

/-- Settles O19: the served flush by `flush_meets`, its bytes by `fullBytes_getElem?`, the failed one by `flush_fails`. -/
theorem writerFlush : Obligations.WriterFlush := by
  intro s
  refine ⟨fun hs => ?_, fun k => fullBytes_getElem? s.wacc k, fullBytes_length s.wacc, fun r ds hd hl => ?_⟩
  · obtain ⟨_, t, ht, hd, he⟩ := (flush_meets s).served hs
    rw [fullBytes_length] at he
    exact ⟨t.draws, hd, (congrArg Res.outcome ht).trans (congrArg _ he)⟩
  · exact congrArg Res.outcome (flush_fails hd (fullBytes_ne_nil hl))

theorem exec_wrWriteByte_eq (v : Byte) (s : State) :
    exec (.wrWriteByte v) s = (writeBits (byteBits v) s).outcome := rfl

theorem exec_encLen_eq (s : State) : exec .encLen s = (writeBits (wordBits s.l) s).outcome :=
  congrArg Res.outcome (writeLength_eq s)

/-- Settles O21, by the eight bits of a byte (`byteBits_eq`). -/
theorem writeByteIsWriteBits : Obligations.WriteByteIsWriteBits := fun v s =>
  ⟨uopEnc_take 6 _, by rw [exec_wrWriteByte_eq, byteBits_eq]; rfl⟩

/-- An instruction that is `writeBits` of some bits, whether or not they are its encoding, appends them to the stream. -/
theorem exec_appends_bits {i : Instr} {bits : List Bool} {s : State} (hs : Serves s)
    (hw : s.wacc.length < Config.accCap) (he : exec i s = (writeBits bits s).outcome) :
    ∃ t, exec i s = .next t ∧ Appended bits s t ∧ Only [.wacc, .sink, .wrTotal, .draws] s t := by
  obtain ⟨_, t, ht, -, happ⟩ := (writeBits_appended bits s hw).served hs
  exact ⟨t, by rw [he, ht, Res.outcome_ok], happ, (writeBits_only _ s).of_ok ht⟩

/-- Settles O20: each of the three is `writeBits` (`exec_appends_bits`). -/
theorem writerAppends : Obligations.WriterAppends := by
  intro s hs hw
  refine ⟨fun seq => exec_appends_bits hs hw rfl, fun v => ?_, ?_⟩
  · rw [← byteBits_eq]
    exact exec_appends_bits hs hw (exec_wrWriteByte_eq v s)
  · rw [← wordBits_eq]
    exact exec_appends_bits hs hw (exec_encLen_eq s)

/-- Settles O22: what `finish` does is `finish_meets`, and the padded bits come back as the bytes' (`bytesBits_packed`). -/
theorem writerFinish : Obligations.WriterFinish := by
  intro s hs hw
  obtain ⟨c, t, ht, -, rfl, he⟩ := (finish_meets s hw).served hs
  have hrun : finishRet s = .ok () { t with ret := .count (s.wrTotal + (s.wacc.length + 7) / 8) } := by
    rw [finishRet, ht, Res.bind_ok]
  have hsink : t.sink = s.sink ++ packed s.wacc := by rw [he]
  have hwacc : t.wacc = [] := by rw [he]
  have htotal : t.wrTotal = s.wrTotal + (s.wacc.length + 7) / 8 := by rw [he]
  refine ⟨_, (exec_wrFinish_eq s).trans (congrArg Res.outcome hrun), ?_, hwacc, htotal, congrArg Ret.count htotal.symm,
    (finishRet_only s).of_ok hrun⟩
  change bytesBits t.sink = _
  rw [hsink, bytesBits_append, bytesBits_packed, List.append_assoc]
  rfl

/-! ### The writer where the host fails a flush (60_exceptions.md R237, R243) -/

theorem serialize_eq {s : State} {x : Nat} (hr : s.root = some x) :
    serialize s = serLoop s.node.length { s with stk := [.visit x] } := by
  unfold serialize
  rw [hr]

theorem srcRead_serves (n : Nat) {s : State} {ds : List HostDraw} (hd : s.draws = .serves :: ds) :
    srcRead n s = .ok (srcBytes s.srcPos n s)
      { s with srcPos := s.srcPos + (srcBytes s.srcPos n s).length, draws := ds } := by
  simp only [srcRead, memRead, hostFails_serves hd, Res.bind_ok, answered, hd, List.tail_cons]

theorem srcBytes_one {s : State} {p : Nat} {v : Byte} (h : s.src[p]? = some v) : srcBytes p 1 s = [v] := by
  rw [srcBytes, List.take_one, List.head?_drop, h, Option.toList_some]

/-- ENC.BODY where the host serves the read (45_encoder_decoder.md R208). -/
theorem codeSymbol_serves {s : State} {v : Byte} {p : List Bool} {ds : List HostDraw} (hd : s.draws = .serves :: ds)
    (hv : s.src[s.srcPos]? = some v) (hp : s.code[v.toNat]? = some (some p)) :
    codeSymbol s = (writeBits p { s with srcPos := s.srcPos + 1, draws := ds }).bind fun _ t =>
      .ok () { t with outcnt := t.outcnt + 1 } := by
  rw [codeSymbol, srcRead_serves 1 hd, srcBytes_one hv, Res.bind_ok]
  simp only [hp, List.length_singleton]

section
variable {s : State} {r : List Byte} {ds : List HostDraw} (hw : s.wacc.length < Config.accCap)
include hw

/-- WR.FINISH with bits held: the padding is pushed, and the flush fails (40_bitchannel.md R131). -/
theorem finish_fails (hd : s.draws = .fails r :: ds) (hne : s.wacc ≠ []) :
    finish s = .raise .ioError { s with
      wacc := s.wacc ++ List.replicate (padCount s.wacc.length) false, sink := s.sink ++ r, draws := ds } := by
  have hpos : 0 < s.wacc.length := List.length_pos_iff.mpr hne
  have hdvd := padCount_dvd s.wacc.length
  have hlt := padCount_lt s.wacc.length
  have hroom : (acc .writer s).length + (List.replicate (padCount s.wacc.length) false).length ≤ Config.accCap := by
    rw [acc_writer, List.length_replicate]
    simp only [Config.accCap] at hw ⊢
    omega
  have hbyte : 8 ≤ (s.wacc ++ List.replicate (padCount s.wacc.length) false).length := by
    rw [List.length_append, List.length_replicate]
    omega
  have hflush := flush_fails (s := { s with wacc := s.wacc ++ List.replicate (padCount s.wacc.length) false }) hd
    (fullBytes_ne_nil hbyte)
  rw [finish, accPushBits_eq .writer _ s hroom, Res.bind_ok, acc_writer, setAcc_writer, hflush, Res.bind_raise]

variable {m : Nat}

/-- TC.SERIALIZE fails where writing the bits of the tree does (43_treecodec.md R181). -/
theorem serialize_fails {x : Nat} {t : Tree} (hr : s.root = some x) (hx : Holds s.node x t)
    (hz : t.size ≤ s.node.length) (hd : s.draws = List.replicate m .serves ++ .fails r :: ds)
    (hl : Config.accCap * (m + 1) ≤ s.wacc.length + t.bits.length) :
    ∃ stk, serialize s = .raise .ioError { stoppedWriting t.bits m r ds s with stk := stk } := by
  have hbits : [t].flatMap Tree.bits = t.bits := by simp
  rw [serialize_eq hr]
  exact serLoop_raise s.node.length (.cons hx .nil) (by simpa using hz) (hbits ▸ writeBits_fails t.bits m hw hd hl)

/-- ENC.BODY has read its symbol, and fails where writing the code does (45_encoder_decoder.md R208). -/
theorem codeSymbol_fails {v : Byte} {p : List Bool} (hv : s.src[s.srcPos]? = some v)
    (hp : s.code[v.toNat]? = some (some p)) (hd : s.draws = .serves :: List.replicate m .serves ++ .fails r :: ds)
    (hl : Config.accCap * (m + 1) ≤ s.wacc.length + p.length) :
    codeSymbol s = .raise .ioError { stoppedWriting p m r ds s with srcPos := s.srcPos + 1 } := by
  rw [List.cons_append] at hd
  rw [codeSymbol_serves hd hv hp, writeBits_fails (s := { s with srcPos := s.srcPos + 1, draws := _ }) p m hw rfl hl,
    Res.bind_raise]
  rfl

end

/-- Settles O60: what `writeBits` raises (`writeBits_fails`) is what each instruction that writes a sequence raises. -/
theorem writerFailureAborts : Obligations.WriterFailureAborts := by
  intro s r ds m hw
  refine ⟨fun hd => ⟨fun i seq hi hl => ?_, fun x t hr hx hz hl => ?_⟩, fun hd v p hv hp hl => ?_, fun hd hne => ?_⟩
  · have he : exec i s = (writeBits seq s).outcome := by
      rcases hi with rfl | ⟨v, rfl, rfl⟩ | ⟨rfl, rfl⟩ | ⟨h1, h2, h3, rfl, hi⟩
      · rfl
      · rw [exec_wrWriteByte_eq, byteBits_eq]
        rfl
      · rw [exec_encLen_eq, wordBits_eq]
      · have hr := reading_eq_false h1 h2 h3
        rcases hi with ⟨l, rfl⟩ | rfl | ⟨v, rfl⟩ | ⟨p, rfl⟩
        · exact exec_len_written hr l
        · exact exec_internal_written hr
        · exact exec_leaf_written hr v
        · exact exec_code_written hr p
    rw [he, writeBits_fails seq m hw hd hl, Res.outcome_raise]
  · obtain ⟨stk, h⟩ := serialize_fails hw hr hx hz hd hl
    exact ⟨stk, congrArg Res.outcome h⟩
  · exact congrArg Res.outcome (codeSymbol_fails hw hv hp hd hl)
  · exact congrArg (Res.outcomeRet .count) (finish_fails hw hd hne)

/-! ### The reader (40_bitchannel.md R137 to R141) -/

theorem srcBytes_length (p n : Nat) (s : State) : (srcBytes p n s).length = min n (s.src.length - p) := by
  rw [srcBytes, List.length_take, List.length_drop]

theorem refill_next {s : State} (hs : Serves s) (hp : s.srcPos < s.src.length) :
    refill s = .ok () { answered s with
      racc := bytesBits (srcBytes s.srcPos 8 s)
      rdCursor := 0
      srcPos := s.srcPos + min 8 (s.src.length - s.srcPos) } := by
  have hlen := srcBytes_length s.srcPos 8 s
  rcases (refill_cases s).cases with ⟨_, t, ht, -, rfl⟩ | ⟨e, t, -, hf | ⟨-, hnil, -⟩⟩
  · rw [ht, hlen]
  · exact (hf.not_serves hs).elim
  · rw [hnil, List.length_nil] at hlen
    omega

theorem refill_noByte {s : State} (hs : Serves s) (hp : s.src.length ≤ s.srcPos) :
    refill s = .raise .endOfInput (answered s) := by
  have hnil : srcBytes s.srcPos 8 s = [] := by rw [srcBytes, List.drop_eq_nil_of_le hp, List.take_nil]
  rcases (refill_cases s).cases with ⟨_, t, -, hne, -⟩ | ⟨e, t, ht, hf | ⟨rfl, -, rfl⟩⟩
  · exact (hne hnil).elim
  · exact (hf.not_serves hs).elim
  · exact ht

/-- Settles O24, by what a read of SRC finds: bytes (`refill_next`), none (`refill_noByte`), a failure
(`refill_fails`). -/
theorem readerRefill : Obligations.ReaderRefill := fun s =>
  ⟨fun hs hp => ⟨_, tail_suffix s, congrArg Res.outcome (refill_next hs hp)⟩,
    fun hs hp => ⟨_, tail_suffix s, congrArg Res.outcome (refill_noByte hs hp)⟩,
    fun _ _ hd => congrArg Res.outcome (refill_fails hd)⟩

/-- What a read that ends with a value leaves, once the value is kept as the last result (log entry 18). -/
theorem ReaderMoved.outcomeRet {α : Type} {x : Res α} {a : α} {s t : State} (f : α → Ret) (h : ReaderMoved s t)
    (hx : x = .ok a t) : ∃ u, x.outcomeRet f = .next u ∧ u.ret = f a ∧ unread u = unread t ∧
      u.rdCursor ≤ u.racc.length ∧ Only [.racc, .rdCursor, .srcPos, .draws, .ret] s u :=
  ⟨{ t with ret := f a }, congrArg (Res.outcomeRet f) hx, rfl, rfl, h.2.2,
    (h.only.mono (by simp)).trans ((setRet_only (f a) t).mono (by simp))⟩

section
variable {s : State} (hs : Serves s) (hc : s.rdCursor ≤ s.racc.length)
include hs hc

/-- A pop with no bit left consumes nothing: only the host's answer is gone (40_bitchannel.md R140). -/
theorem popBit_noBit (hu : unread s = []) :
    ∃ d, d <:+ s.draws ∧ popBit s = .raise .endOfInput { s with draws := d } := by
  obtain ⟨t, ht, ho⟩ := popBit_ended hs hc hu
  have hm : ReaderMoved s t := by
    have h := popBit_meets s hc
    rw [ht, Res.meets_raise] at h
    rcases h with hf | ⟨-, -, hm, -⟩
    · exact (hf.not_serves hs).elim
    · exact hm
  have hracc : t.racc = s.racc := ho .racc (by decide)
  have hcursor : t.rdCursor = s.rdCursor := ho .rdCursor (by decide)
  have hpos : t.srcPos = s.srcPos := ho .srcPos (by decide)
  obtain ⟨he, hd, -⟩ := hm
  rw [hracc, hcursor, hpos] at he
  exact ⟨t.draws, hd, ht.trans (congrArg _ he)⟩

theorem popByte_next {v : Byte} {rest : List Bool} (hu : unread s = byteBits v ++ rest) :
    ∃ t, popByte s = .ok v t ∧ ReaderMoved s t ∧ unread t = rest := by
  rcases (popByte_meets s hc).cases with ⟨w, t, ht, hm, h⟩ | ⟨e, t, -, hf | ⟨-, hlt, -⟩⟩
  · obtain ⟨hb, hr⟩ := List.append_inj (hu.symm.trans h) (by rw [byteBits_length, byteBits_length])
    rw [← byteOfBits_byteBits v, hb, byteOfBits_byteBits]
    exact ⟨t, ht, hm, hr.symm⟩
  · exact (hf.not_serves hs).elim
  · rw [hu, List.length_append, byteBits_length] at hlt
    omega

/-- With fewer than eight bits left they are all consumed (40_bitchannel.md R140). -/
theorem popByte_ended (hu : (unread s).length < 8) :
    ∃ t, popByte s = .raise .endOfInput t ∧ ReaderMoved s t ∧ unread t = [] := by
  rcases (popByte_meets s hc).cases with ⟨v, t, -, -, h⟩ | ⟨e, t, ht, hf | ⟨rfl, -, hm, hend⟩⟩
  · rw [h, List.length_append, byteBits_length] at hu
    omega
  · exact (hf.not_serves hs).elim
  · exact ⟨t, ht, hm, hend⟩

end

/-- Settles O25: a pop by what is left of the stream (`popBit_next`, `popBit_noBit`; `popByte_next`, `popByte_ended`). -/
theorem readerPops : Obligations.ReaderPops := by
  intro s hs hc
  refine ⟨fun b rest hu => ?_, fun hu => ?_, fun v rest hu => ?_, fun hu => ?_⟩
  · obtain ⟨t, ht, hm, rfl⟩ := popBit_next hs hc hu
    exact hm.outcomeRet .bit ht
  · obtain ⟨d, hd, h⟩ := popBit_noBit hs hc hu
    exact ⟨d, hd, congrArg (Res.outcomeRet .bit) h⟩
  · rw [← byteBits_eq] at hu
    obtain ⟨t, ht, hm, rfl⟩ := popByte_next hs hc hu
    exact hm.outcomeRet .byte ht
  · obtain ⟨t, ht, hm, hend⟩ := popByte_ended hs hc hu
    exact ⟨t, congrArg (Res.outcomeRet .byte) ht, hend, hm.only⟩

end Machine

end Sys2Proof
end

section
/-! PROOFS. The family of 41_frequency.md: the frequency pass. -/

namespace Sys2Proof

namespace Machine

/-! ### The table after the bytes of a list (41_frequency.md R151, R153) -/

section
variable (vs : List Byte)

theorem scanned_length : (counted (List.replicate Config.nsym 0) vs).length = Config.nsym := by
  rw [counted_length, List.length_replicate]

theorem scanned_getElem? (w : Byte) :
    (counted (List.replicate Config.nsym 0) vs)[w.toNat]? = some (vs.count w) := by
  have hw : w.toNat < (counted (List.replicate Config.nsym 0) vs).length := by
    rw [scanned_length]
    exact w.isLt
  rw [List.getElem?_eq_getElem hw, ← List.getD_eq_getElem _ 0 hw, scanned_getD, occurrences]

theorem scanned_sum : (counted (List.replicate Config.nsym 0) vs).sum = vs.length := by
  rw [counted_sum _ _ List.length_replicate, sum_zeros, Nat.zero_add]

end

/-- The pass with more bytes left than `TOTAL` can count (41_frequency.md R154). -/
theorem scan_tooLong {s : State} (hs : Serves s) (h : 2 ^ Config.lenW ≤ (s.src.drop s.srcPos).length) :
    scan s = .refused .inputTooLong :=
  freqLoop_tooLong _ _ hs (by simp) (Nat.two_pow_pos _) (by simpa using h)

end Machine

open Machine

/-- Settles O27: a pass that fits the counter leaves the table of the bytes counted (`scan_meets`), read by
`scanned_getElem?` and `scanned_sum`; a longer one is `scan_tooLong`. -/
theorem frequencyPass : Obligations.FrequencyPass := by
  refine fun s hs => ⟨fun hlen => ?_, fun hlen => congrArg Res.outcome (scan_tooLong hs hlen)⟩
  obtain ⟨_, t, hok, -, ht⟩ := (scan_meets s hlen).served hs
  have hfreq : t.freq = counted (List.replicate Config.nsym 0) (s.src.drop s.srcPos) := congrArg State.freq ht
  have htotal : t.total = (s.src.drop s.srcPos).length := congrArg State.total ht
  have honly : (Res.ok _ t).Within [.freq, .total, .srcPos, .draws] s := hok ▸ scan_only s
  refine ⟨t, congrArg Res.outcome hok, (congrArg List.length hfreq).trans (scanned_length _), fun v => ?_, htotal,
    ?_, congrArg State.srcPos ht, honly⟩
  · rw [hfreq, scanned_getElem?]
  · rw [hfreq, scanned_sum, htotal]

end Sys2Proof
end

section
/-! PROOFS. The family of 42_treebuilder.md: the heap, the leaves, the merge and the tree. -/

namespace Sys2Proof

namespace Machine

/-! ### Sifting (42_treebuilder.md R164 to R166) -/

section
variable {nodes : List Node} {x y : Nat}

/-- Entries of equal weight are not lighter than one another (42_treebuilder.md R164). -/
theorem less_of_weight_eq (hx : (weight? nodes x).isSome) (h : weight? nodes x = weight? nodes y) :
    less nodes x y = some false := by
  rw [less_eq hx (h ▸ hx), wt, wt, h]
  simp

/-- An entry not lighter than its parent does not move (42_treebuilder.md R165). -/
theorem SiftsUp.eq_of_not_less {h h' : List Nat} {k p : Nat} (hs : SiftsUp nodes h k h') (hx : h[k]? = some x)
    (hp : h[(k - 1) / 2]? = some p) (hle : less nodes x p = some false) : h' = h := by
  cases hs with
  | top => rfl
  | stays => rfl
  | moves _ hx' hp' hlt _ =>
    obtain rfl := Option.some.inj (hx.symm.trans hx')
    obtain rfl := Option.some.inj (hp.symm.trans hp')
    cases hle.symm.trans hlt

/-- Of two equally light children of the top the left one moves up (42_treebuilder.md R166). -/
theorem SiftsDown.head_of_tie {h h' : List Nat} {last a b : Nat} (hs : SiftsDown nodes h 0 h') (hl : h[0]? = some last)
    (ha : h[1]? = some a) (hb : h[2]? = some b) (hw : weight? nodes a = weight? nodes b)
    (hlt : less nodes a last = some true) : h'[0]? = some a := by
  cases hs with
  | stays hx hle =>
    obtain rfl := Option.some.inj (hl.symm.trans hx)
    cases (hle 1 a (.inl rfl) ha).symm.trans hlt
  | left _ hy _ _ next =>
    obtain rfl := Option.some.inj (ha.symm.trans hy)
    have h0 : 0 < h.length := (List.getElem?_eq_some_iff.mp hl).1
    rw [next.head (by decide), List.getElem?_set_ne (by decide), List.getElem?_set_self h0]
  | right _ hz _ hlt' _ =>
    obtain rfl := Option.some.inj (hb.symm.trans hz)
    have hwb : (weight? nodes b).isSome := hw ▸ (less_some hlt).1
    cases (less_of_weight_eq hwb hw.symm).symm.trans (hlt' a ha)

end

/-! ### HEAP.INSERT and HEAP.EXTRACTMIN (42_treebuilder.md R165, R166) -/

section
variable {s t : State} {x : Nat}

/-- Where HEAP.INSERT ends with a value, it has sifted the new entry up from the end. -/
theorem heapInsert_sifts (h : heapInsert x s = .ok () t) :
    SiftsUp s.node (s.heap ++ [x]) s.heap.length t.heap := by
  obtain ⟨h', rfl, -, hc, hx, -⟩ := heapInsert_ok h
  rw [heapInsert, if_pos hx, if_pos hc] at h
  cases e : siftUp s.node s.heap.length (s.heap ++ [x]) s.heap.length with
  | none => rw [e] at h; cases h
  | some g =>
    rw [e] at h
    cases h
    exact siftUp_sifts (by simp) le_rfl e

theorem heapInsert_noNode (h : s.node.length ≤ x) : heapInsert x s = .fault .nodeIndex :=
  if_neg (Nat.not_lt.mpr h)

theorem heapInsert_full (hx : x < s.node.length) (h : Config.heapCap ≤ s.heap.length) :
    heapInsert x s = .fault .heapIndex := by
  rw [heapInsert, if_pos hx, if_neg (Nat.not_lt.mpr h)]

/-- Where HEAP.EXTRACTMIN ends with a value, it has sifted the last entry down from the top. -/
theorem heapExtractMin_sifts {y last : Nat} {ini : List Nat} (hs : s.heap = y :: (ini ++ [last]))
    (hw : Weighed s.node s.heap) (h : heapExtractMin s = .ok x t) : SiftsDown s.node (last :: ini) 0 t.heap := by
  have hrest : Weighed s.node (ini ++ [last]) := fun z hz => hw z (hs ▸ List.mem_cons_of_mem y hz)
  have hmoved : Weighed s.node (last :: ini) := hrest.perm (List.perm_append_singleton last ini).symm
  have hsift : heapAfterMin s.node (ini ++ [last]) = siftDown s.node (ini ++ [last]).length (last :: ini) 0 := by
    simp [heapAfterMin]
  simp only [heapExtractMin, hs, hsift] at h
  cases e : siftDown s.node (ini ++ [last]).length (last :: ini) 0 with
  | none => rw [e] at h; cases h
  | some g =>
    rw [e] at h
    cases h
    exact siftDown_sifts hmoved (by simp) (by simp) e

theorem heapExtractMin_empty (h : s.heap = []) : heapExtractMin s = .refused .outOfOrder := by
  simp only [heapExtractMin, h]

theorem merge_tooFew (h : s.heap.length < 2) : merge s = .refused .outOfOrder :=
  if_neg (Nat.not_le.mpr h)

end

/-! ### The table of counts (42_treebuilder.md R161, R171) -/

section
variable {s : State} {count : Byte → Nat}

theorem getD_of_counts (hc : ∀ v : Byte, s.freq[v.toNat]? = some (count v)) (v : Byte) :
    count v = s.freq.getD v.toNat 0 := by
  rw [List.getD_eq_getElem?_getD, hc, Option.getD_some]

/-- The table lists the counts of the 256 symbols in ascending order. -/
theorem freq_eq_map (hf : s.freq.length = Config.nsym) (hc : ∀ v : Byte, s.freq[v.toNat]? = some (count v)) :
    s.freq = ((List.range Config.nsym).map (BitVec.ofNat 8)).map count := by
  refine List.ext_getElem (by simp [hf]) fun i hi _ => ?_
  have h := hc (BitVec.ofNat 8 i)
  have hlt : i < 2 ^ 8 := lt_of_lt_of_eq hi hf
  rw [BitVec.toNat_ofNat, Nat.mod_eq_of_lt hlt, List.getElem?_eq_getElem hi] at h
  simpa using h

/-- The counts of the symbols that occur add up to the table's sum. -/
theorem sum_counts (hf : s.freq.length = Config.nsym) (hc : ∀ v : Byte, s.freq[v.toNat]? = some (count v)) :
    ((symbols count).map count).sum = s.freq.sum := by
  rw [symbols, sum_occurring, ← freq_eq_map hf hc]

theorem symbols_zero : symbols (fun _ => 0) = [] :=
  List.eq_nil_iff_forall_not_mem.mpr fun _ h => Nat.lt_irrefl 0 (mem_symbols.mp h)

theorem leaves_noCounts (h : s.freq = []) : leaves s = .fault (.noValue .freqEntry) := by
  have hr : List.range Config.nsym = 0 :: (List.range 255).map Nat.succ := List.range_succ_eq_map
  rw [leaves, hr, leavesLoop, freqAt, h]
  rfl

theorem build_noCounts (h : s.freq = []) : build s = .fault (.noValue .freqEntry) := by
  rw [build, leaves_noCounts h, Res.bind_fault]

/-- TB.BUILD where no symbol occurs comes to HEAP.EXTRACTMIN on an empty heap (42_treebuilder.md R172). -/
theorem build_noSymbol (h : s.freq = List.replicate Config.nsym 0) : build s = .refused .outOfOrder := by
  have hcount : ∀ v : Byte, 0 = s.freq.getD v.toNat 0 := fun v => by
    rw [h, List.getD_replicate (n := Config.nsym) _ v.isLt]
  obtain ⟨heap, -, hok, -, hheap⟩ := leaves_eq (count := fun _ => 0) s (by rw [h, List.length_replicate]) hcount
  obtain rfl : heap = [] := by simpa [leafNodes, symbols_zero] using hheap
  rw [build, hok, Res.bind_ok, List.length_nil, mergeLoop, Res.bind_ok, takeRoot, heapExtractMin_empty rfl]
  rfl

end

end Machine

open Machine

/-- Settles O28: the heap after the insertion is `heapInsert_eq`'s, the sifting `heapInsert_sifts`, and the tie
`SiftsUp.eq_of_not_less`. -/
theorem heapInsert : Obligations.HeapInsert := by
  refine fun s x => ⟨fun ho hx hlen => ?_, fun hn => congrArg Res.outcome (heapInsert_noNode hn),
    fun hn hlen => congrArg Res.outcome (heapInsert_full hn hlen)⟩
  obtain ⟨h, hok, hperm, hord⟩ := heapInsert_eq ho hx hlen
  have hsift := heapInsert_sifts hok
  refine ⟨h, congrArg Res.outcome hok, hperm, hord, hsift, fun p hp hw => ?_⟩
  have hplt : (s.heap.length - 1) / 2 < s.heap.length := (List.getElem?_eq_some_iff.mp hp).1
  exact hsift.eq_of_not_less List.getElem?_concat_length ((List.getElem?_append_left hplt).trans hp)
    (less_of_weight_eq hx hw)

/-- Settles O29: the entry returned and the heap left are `heapExtractMin_eq`'s, the sifting `heapExtractMin_sifts`,
and the tie `SiftsDown.head_of_tie`. -/
theorem heapExtractMin : Obligations.HeapExtractMin := by
  intro s ho hne
  obtain ⟨x, rest, hs⟩ := List.exists_cons_of_ne_nil hne
  obtain ⟨h, hok, hperm, hord, hleast⟩ := heapExtractMin_eq hs ho
  refine ⟨x, rest, h, congrArg (Res.outcomeRet .node) hok, hs, hperm, hleast, hord, fun ini last hrest => ?_⟩
  have hsift := heapExtractMin_sifts (hrest ▸ hs) ho.1 hok
  exact ⟨hsift, fun a b ha hb hw hlt => hsift.head_of_tie rfl ha hb hw hlt⟩

/-- Settles O30, by the empty heap, the heap of fewer than two entries, the table without values and the table of
zeros. -/
theorem treeBuilderPreconditions : Obligations.TreeBuilderPreconditions := by
  refine ⟨fun s h => congrArg (Res.outcomeRet .node) (heapExtractMin_empty h),
    fun s h => congrArg Res.outcome (merge_tooFew h), fun s h => ⟨?_, ?_⟩, fun s h => ?_⟩
  · exact congrArg Res.outcome (leaves_noCounts h)
  · exact congrArg Res.outcome (build_noCounts h)
  · exact congrArg Res.outcome (build_noSymbol h)

/-- Settles O31, by `leaves_eq` with the counts read from the table. -/
theorem treeLeaves : Obligations.TreeLeaves := by
  intro s count hf hc
  obtain ⟨h, ps, hok, hg, hperm⟩ := leaves_eq s hf (getD_of_counts hc)
  rw [leafNodes, List.length_map] at hperm
  exact ⟨h, congrArg Res.outcome hok, hperm, hg.ordered⟩

/-- Settles O32, by `merge_ordered`; a sum that fits is `addWeights`, and then the merge is the relation's. -/
theorem treeMerge : Obligations.TreeMerge := by
  intro s ho h2 hlen hnode
  obtain ⟨a, b, rest, h, hperm, -, hla, hlb, hok, hperm', hord⟩ := merge_ordered ho h2 hlen hnode
  have hwa : weight? s.node a = some (wt s.node a) := weight?_wt (ho.1 a (hperm.mem_iff.mpr (by simp)))
  have hwb : weight? s.node b = some (wt s.node b) := weight?_wt (ho.1 b (hperm.mem_iff.mpr (by simp)))
  refine ⟨a, b, rest, _, _, _, h, hperm, hla, hlb, hwa, hwb, addWeights_lt _ _, congrArg Res.outcome hok, hperm',
    hord, fun hfit => ?_⟩
  rw [addWeights_eq hfit]
  exact ⟨rfl, a, b, rest, _, _, hperm, hla, hlb, hwa, hwb, rfl, hperm'⟩

/-- Settles O33: the tree is `build_eq`'s; its numbers come from its leaves, which are the symbols that occur. -/
theorem treeBuild : Obligations.TreeBuild := by
  intro s count hf hc hfit ⟨v, hv⟩
  have hsum := sum_counts hf hc
  obtain ⟨leafHeap, nodes, x, t, hok, hholds, hsize, hleaves, hweight, hheap, hbuild⟩ :=
    build_eq s hf (getD_of_counts hc) (List.ne_nil_of_mem (mem_symbols.mpr hv)) (hsum ▸ hfit)
  have hnodes : nodes.length + 1 = 2 * (symbols count).length := by
    rw [← hsize, ← hleaves.length_eq, t.size_eq_leaves]
  have htotal : t.weight count = s.freq.sum := by
    rw [t.weight_eq_sum, (hleaves.map count).sum_eq, hsum]
  rw [leafNodes, List.length_map] at hheap
  exact ⟨nodes, x, t, leafHeap, congrArg Res.outcome hok, hholds, hsize.symm, hnodes, hleaves,
    hleaves.nodup_iff.mpr (symbols_nodup count), fun w => hleaves.mem_iff.trans mem_symbols, hweight, htotal, hheap,
    hbuild⟩

end Sys2Proof
end

section
/-! PROOFS. The family of 43_treecodec.md: the tree codec. -/

namespace Sys2Proof

namespace Machine

/-! ### TC.SERIALIZE (43_treecodec.md R181, R183) -/

section
variable {s : State}

theorem Wrote.appended {bits : List Bool} {t : State} (h : Wrote bits s t) : Appended bits s t := by
  rw [h.2]
  exact afterWriting_appended bits s

theorem serialize_noTree (h : s.root = none) : serialize s = .refused .noTree := by
  simp only [serialize, h]

/-- The serializer over the tree under `ROOT`, where the host serves every transfer. -/
theorem serialize_next {x : Nat} {t : Tree} (hs : Serves s) (hw : s.wacc.length < Config.accCap)
    (hr : s.root = some x) (hx : Holds s.node x t) (hz : t.size ≤ s.node.length) :
    ∃ u, serialize s = .ok () u ∧ Wrote t.bits s u ∧ u.stk = [] := by
  obtain ⟨_, u, h⟩ := (serialize_meets s x t hr hx hz hw).served hs
  exact ⟨u, h⟩

end

/-! ### TC.DESERIALIZE (43_treecodec.md R185 to R192) -/

/-- The preorder store of a tree holds it at entry 0 (43_treecodec.md R186). -/
theorem treeNodes_holds (t : Tree) : Holds (treeNodes 0 t) 0 t :=
  holds_treeNodes _ 0 t fun j _ => by rw [Nat.zero_add]

/-- A stream that begins with a tree of at most 511 nodes begins no 512th. -/
theorem not_overflows_of_fits {t : Tree} {bits : List Bool} (h : t.bits <+: bits) (hz : t.size ≤ Config.nodeCap) :
    ¬ Overflows bits :=
  not_overflowsFrom (ts := [t]) rfl (by simpa using hz) (by simpa using h)

section
variable {s : State} (hs : Serves s) (hc : s.rdCursor ≤ s.racc.length)
include hs hc

/-- The deserializer on a stream that begins with a tree of at most 511 nodes, where the host serves every transfer. -/
theorem deserialize_next {t : Tree} {rest : List Bool} (hu : unread s = t.bits ++ rest)
    (hz : t.size ≤ Config.nodeCap) :
    ∃ u, deserialize s = .ok () u ∧ unread u = rest ∧ u.rdCursor ≤ u.racc.length ∧ u.root = some 0 ∧
      u.node = treeNodes 0 t ∧ u.stk = [] := by
  obtain ⟨_, u, hok, hrest, m, hm, rfl⟩ := (deserialize_meets s t rest hc hu hz).served hs
  exact ⟨_, hok, hrest, hm.2.2, rfl, rfl, rfl⟩

/-- How the deserializer ends where the host serves every transfer: with a tree the stream begins with, at the stream's
end, or at the 512th node. -/
theorem deserialize_cases :
    (∃ (t : Tree) (u : State), deserialize s = .ok () u ∧ t.size ≤ Config.nodeCap ∧ t.bits <+: unread s) ∨
    (∃ u, deserialize s = .raise .endOfInput u ∧ unread u = [] ∧ ¬ Overflows (unread s)) ∨
    ∃ u, deserialize s = .raise .nodeStoreOverflow u ∧ u.node.length = Config.nodeCap ∧ Overflows (unread s) := by
  rcases (deserialize_total s hc).cases with
    ⟨_, u, hok, t, hz, hu, -⟩ | ⟨e, u, hraise, hf | ⟨rfl, hend, -, ho⟩ | ⟨rfl, hfull⟩⟩
  · exact .inl ⟨t, u, hok, hz, unread u, hu.symm⟩
  · exact (hf.not_serves hs).elim
  · exact .inr (.inl ⟨u, hraise, hend, ho⟩)
  · exact .inr (.inr ⟨u, hraise, hfull⟩)

theorem deserialize_overflows (ho : Overflows (unread s)) :
    ∃ u, deserialize s = .raise .nodeStoreOverflow u ∧ u.node.length = Config.nodeCap := by
  rcases deserialize_cases hs hc with ⟨t, -, -, hz, ht⟩ | ⟨u, -, -, hno⟩ | ⟨u, hraise, hfull, -⟩
  · exact (not_overflows_of_fits ht hz ho).elim
  · exact (hno ho).elim
  · exact ⟨u, hraise, hfull⟩

theorem deserialize_ended (hno : ∀ t : Tree, t.size ≤ Config.nodeCap → ¬ t.bits <+: unread s)
    (ho : ¬ Overflows (unread s)) : ∃ u, deserialize s = .raise .endOfInput u ∧ unread u = [] := by
  rcases deserialize_cases hs hc with ⟨t, -, -, hz, ht⟩ | ⟨u, hraise, hend, -⟩ | ⟨u, -, -, ho'⟩
  · exact (hno t hz ht).elim
  · exact ⟨u, hraise, hend⟩
  · exact (ho ho').elim

end

/-! ### From the serializer to the deserializer (43_treecodec.md R191) -/

/-- From an empty writer and an empty SINK, SINK and the accumulator hold just the bits given to the writer. -/
theorem Appended.eq_of_empty {bits : List Bool} {s u : State} (h : Appended bits s u) (hw : s.wacc = [])
    (hk : s.sink = []) : bytesBits u.sink ++ u.wacc = bits := by
  rw [h.1, hw, hk]
  rfl

theorem unread_start {r : State} (ha : r.racc = []) (hp : r.srcPos = 0) : unread r = bytesBits r.src := by
  rw [unread, ha, hp, List.drop_nil, List.drop_zero, List.nil_append]

end Machine

open Machine

/-- Settles O34: the bits and the frame are those of `serialize_next`, their number is `Tree.bits_length`, and without
a tree it is `serialize_noTree`. -/
theorem treeSerialize : Obligations.TreeSerialize := by
  refine ⟨fun s x t hs hw hr hx hz => ⟨t.bits_length, ?_⟩, fun s h => congrArg Res.outcome (serialize_noTree h)⟩
  obtain ⟨u, hok, hwrote, hstk⟩ := serialize_next hs hw hr hx hz
  exact ⟨u, congrArg Res.outcome hok, hwrote.appended, hstk, (serialize_only s).of_ok hok⟩

/-- Settles O35: the store left is the preorder store of the tree (`deserialize_next`). -/
theorem treeDeserialize : Obligations.TreeDeserialize := by
  intro s t rest hs hc hu hz
  obtain ⟨u, hok, hrest, hcursor, hroot, hnode, hstk⟩ := deserialize_next hs hc hu hz
  have honly := (deserialize_only s).of_ok hok
  refine ⟨u, congrArg Res.outcome hok, hrest, hcursor, hroot, hnode, ?_⟩
  rw [hnode]
  exact ⟨treeNodes_holds t, treeNodes_length 0 t, treeNodes_weight 0 t, hstk, honly⟩

/-- Settles O37: a 512th node begun (`deserialize_overflows`), a stream that ends before (`deserialize_ended`), and a
larger tree, which begins one (`overflows_of_large`). -/
theorem treeDeserializeErrors : Obligations.TreeDeserializeErrors := by
  refine fun s hs hc => ⟨fun ho => ?_, fun hno ho => ?_, fun t ht hz => ?_⟩
  · obtain ⟨u, hraise, hfull⟩ := deserialize_overflows hs hc ho
    exact ⟨u, congrArg Res.outcome hraise, hfull, deserialize_raise_only hraise⟩
  · obtain ⟨u, hraise, hend⟩ := deserialize_ended hs hc hno ho
    exact ⟨u, congrArg Res.outcome hraise, hend, deserialize_raise_only hraise⟩
  · obtain ⟨u, hraise, hfull⟩ := deserialize_overflows hs hc (overflows_of_large ht hz)
    exact ⟨u, congrArg Res.outcome hraise, hfull⟩

/-- Settles O36: the serializer appends the bits of the tree (`serialize_next`), WR.FINISH sends them to SINK with
padding (`writerFinish`), and the deserializer reads a tree whatever follows it (`deserialize_next`). -/
theorem serializeThenDeserialize : Obligations.SerializeThenDeserialize := by
  intro s x t hs hw hk hr hx hz hn
  have hheld : s.wacc.length < Config.accCap := by rw [hw]; decide
  obtain ⟨u, hser, hwrote, -⟩ := serialize_next hs hheld hr hx hz
  obtain ⟨v, hfin, hsink, -⟩ := writerFinish u (hs.of_suffix hwrote.1) hwrote.wacc_lt
  refine ⟨u, v, congrArg Res.outcome hser, hfin, fun r hserves hracc hcursor hpos hsrc => ?_⟩
  rw [hwrote.appended.eq_of_empty hw hk] at hsink
  have hunread := (unread_start hracc hpos).trans ((congrArg bytesBits hsrc).trans hsink)
  obtain ⟨w, hdes, -, -, hroot, hnode, -⟩ :=
    deserialize_next hserves (hcursor ▸ Nat.zero_le _) hunread (hz.trans hn)
  exact ⟨w, congrArg Res.outcome hdes, hroot, hnode ▸ treeNodes_holds t⟩

end Sys2Proof
end

section
/-! PROOFS. The family of 44_codetable.md: the code table. -/

namespace Sys2Proof

namespace Machine

/-! ### The codes of a tree without repeated symbols (44_codetable.md R199) -/

variable {t : Tree} {v : Byte} {p : List Bool}

/-- The one entry of the codes that has the symbol is the one at the end of the path. -/
theorem Tree.codeOf_eq_some_iff (hn : t.leaves.Nodup) : t.codeOf v = some p ↔ t.follow p = some (.leaf v) := by
  refine ⟨Tree.follow_codeOf, fun hp => ?_⟩
  have hpm : (v, p) ∈ t.codes [] := Tree.mem_codes_iff.mpr ⟨p, rfl, hp⟩
  have hv : v ∈ t.leaves := Tree.codes_fst [] t ▸ List.mem_map_of_mem hpm
  obtain ⟨q, hq⟩ := Tree.codeOf_isSome hv
  have hqm : (v, q) ∈ t.codes [] := Tree.mem_codes_iff.mpr ⟨q, rfl, Tree.follow_codeOf hq⟩
  have hinj := List.inj_on_of_nodup_map ((Tree.codes_fst [] t).symm ▸ hn)
  rw [hq, (Prod.mk.inj (hinj hqm hpm rfl)).2]

theorem Tree.codeOf_eq_none_iff : t.codeOf v = none ↔ v ∉ t.leaves := by
  rw [(codesArePrefixFree t).1 v, not_exists]
  exact Option.eq_none_iff_forall_ne_some

/-! ### CT.DERIVE (44_codetable.md R196) -/

theorem derive_noTree {s : State} (h : s.root = none) : derive s = .refused .noTree := by
  rw [derive, h]

end Machine

open Machine

/-- Settles O38: CODE after the loop (`derive_eq`) holds what `Tree.codeOf` gives (`codeTable_get`), which is the path
of a symbol of the tree and nothing for any other symbol; without a tree it is `derive_noTree`. -/
theorem codeTable : Obligations.CodeTable := by
  refine ⟨fun s x t hr hx hz hn => ?_, fun s h => congrArg Res.outcome (derive_noTree h)⟩
  have hok := derive_eq s x t hr hx hz
  refine ⟨_, congrArg Res.outcome hok, ?_, fun v p => ?_, fun v => ?_, rfl, (derive_only s).of_ok hok⟩
  · exact (bindCodes_length _ _).trans List.length_replicate
  · rw [codeTable_get hn, Option.some_inj]
    exact Tree.codeOf_eq_some_iff hn
  · rw [codeTable_get hn, Option.some_inj]
    exact Tree.codeOf_eq_none_iff

end Sys2Proof
end

section
/-! PROOFS. The family of 45_encoder_decoder.md: whole commands, the transitions of PHASE, and the encoder's and the
decoder's own operations. -/

namespace Sys2Proof

namespace Machine

/-! ### COMPRESS (45_encoder_decoder.md R205, R209, R211) -/

theorem HostAbort.not_serves {s t : State} (hs : Serves s) : ¬ HostAbort s t := fun ⟨_, _, hr⟩ => nomatch hs _ hr

/-- What COMPRESS has done from `s` once it is at its end `t`: the empty source is its length alone, another is the
container made with a tree of the symbols that occur, which the merges of R170 allow. -/
def Compressed (s t : State) : Prop :=
  ∃ bytes, t.sink = s.sink ++ bytes ∧ t.result = bytes.length ∧
    (s.src = [] → bytes = packed (wordBits 0#32)) ∧
    (s.src ≠ [] → ∃ tree, LegalTree s.src tree ∧ tree.leaves.Perm (symbols (occurrences s.src)) ∧
      bytes = container tree s.src)

/-- The four bytes of the length 0 (45_encoder_decoder.md R209). -/
theorem packed_wordBits_zero : packed (wordBits 0#32) = [0#8, 0#8, 0#8, 0#8] := by decide

/-- An accepted COMPRESS, whatever the host answers. -/
theorem compress_ends_compressed {s : State} (hs : s.script = []) (hl : s.src.length < 2 ^ Config.lenW) :
    Ends (commandStart .cFreq s) (Compressed s) (HostAbort s) := by
  refine compress_ends s hs hl (fun h0 t hsink hres => ?_) fun h0 tree hlegal hperm t hsink hres => ?_
  · exact ⟨_, hsink, by rw [hres, packed_wordBits_zero]; rfl, fun _ => rfl, fun h => (h h0).elim⟩
  · exact ⟨_, hsink, hres, fun h => (h0 h).elim, fun _ => ⟨tree, hlegal, hperm, rfl⟩⟩

theorem lt_of_fits_length {n : Nat} (h : n ≤ 2 ^ 32 - 1) : n < 2 ^ Config.lenW :=
  Nat.lt_of_le_pred (Nat.two_pow_pos _) h

section
variable {s t : State}

theorem exec_compress_accepted (hp : s.phase = .idle ∨ s.phase = .done ∨ s.phase = .error)
    (hl : s.src.length ≤ 2 ^ 32 - 1) : exec .compress s = .next (commandStart .cFreq s) :=
  execCompress_accepted ((busy_eq_false s).mpr hp) (lt_of_fits_length hl)

theorem exec_decompress_accepted (hp : s.phase = .idle ∨ s.phase = .done ∨ s.phase = .error) :
    exec .decompress s = .next (commandStart .dLen s) :=
  execDecompress_accepted ((busy_eq_false s).mpr hp)

/-- COMPRESS where the host serves every transfer. -/
theorem compress_runs (hu : Undisturbed s) (hp : s.phase = .idle ∨ s.phase = .done ∨ s.phase = .error)
    (hl : s.src.length ≤ 2 ^ 32 - 1) :
    ∃ u t, exec .compress s = .next u ∧ Reaches u t ∧ t.phase = .done ∧ t.err = none ∧ Compressed s t := by
  obtain ⟨t, hr, hdone | ⟨-, hfail⟩⟩ := compress_ends_compressed hu.1 (lt_of_fits_length hl)
  · exact ⟨_, t, exec_compress_accepted hp hl, hr, hdone⟩
  · exact (hfail.not_serves hu.2).elim

/-- A tree of the symbols that occur has at most 511 nodes (10_state.md R49). -/
theorem size_le_of_perm_symbols {tree : Tree} {count : Byte → Nat} (h : tree.leaves.Perm (symbols count)) :
    tree.size ≤ Config.nodeCap := by
  have hsize := tree.size_eq_leaves
  have hlen : tree.leaves.length ≤ 256 := h.length_eq.trans_le (symbols_length_le count)
  show tree.size ≤ 511
  omega

theorem mem_symbols_occurrences {input : List Byte} {v : Byte} : v ∈ symbols (occurrences input) ↔ v ∈ input := by
  rw [mem_symbols, occurrences, List.count_pos_iff]

/-- What COMPRESS writes into an empty sink decodes to the source (45_encoder_decoder.md R222). -/
theorem Compressed.decodes (h : Compressed s t) (hk : s.sink = []) (hl : s.src.length < 2 ^ Config.lenW) :
    Decodes (bytesBits t.sink) s.src := by
  obtain ⟨bytes, hsink, -, hempty, hfull⟩ := h
  rw [hsink, hk, List.nil_append, ← List.append_nil bytes]
  by_cases h0 : s.src = []
  · rw [hempty h0, h0]
    exact empty_decodes []
  · obtain ⟨tree, -, hperm, rfl⟩ := hfull h0
    exact container_decodes tree s.src [] (size_le_of_perm_symbols hperm) hl
      fun v hv => hperm.mem_iff.mpr (mem_symbols_occurrences.mpr hv)

end

/-! ### The transitions of PHASE (45_encoder_decoder.md R218 to R220) -/

section
variable {s t u : State}

/-- A step of a busy core in which the host does nothing: an abort, or the transition after the phase's operation, or
the transition alone. -/
theorem step_busy_cases (hs : s.script = []) (hb : busy s = true) (h : step s = .next t) :
    (∃ e u, t = abort e u) ∨ ∃ u, t = advance u ∧ u.phase = s.phase ∧ u.err = s.err ∧
      ((nextOp s = none ∧ u = s) ∨ ∃ i, nextOp s = some i ∧ exec i s = .next u) := by
  cases hn : nextOp s with
  | none =>
    rw [step_wait hs hn] at h
    injection h with h
    exact .inr ⟨s, h.symm, rfl, rfl, .inl ⟨rfl, rfl⟩⟩
  | some i =>
    rw [step_sequence hs hn] at h
    cases hx : exec i s with
    | next u =>
      rw [hx] at h
      injection h with h
      have hne : busy s ≠ false := by rw [hb]; nofun
      rcases exec_next hx with ⟨hf, -⟩ | ⟨hf, -⟩ | ⟨v, r, hm, rfl, -⟩ | ⟨e, v, -, rfl⟩
      · exact (hne hf).elim
      · exact (hne hf).elim
      · exact .inr ⟨_, h.symm, hm.phase, hm.err, .inr ⟨i, rfl, hx⟩⟩
      · exact .inl ⟨e, v, by rw [← h, advance_abort]⟩
    | fault f => rw [hx] at h; cases h
    | refused r => rw [hx] at h; cases h

/-- `C_CODES` → `C_BODY` rewinds the source and the counter, or the host fails the rewind. -/
theorem startBody_cases (u : State) : startBody u = abort .ioError (answered u) ∨
    startBody u = { answered u with srcPos := 0, outcnt := 0, phase := .cBody } := by
  unfold startBody
  split
  · exact .inl rfl
  · exact .inr rfl

/-- A merge leaves an entry in the heap (42_treebuilder.md R172). -/
theorem exec_tbMerge_heap (h : exec .tbMerge s = .next u) (hl : 1 < s.heap.length) : u.heap ≠ [] := by
  cases hm : merge s with
  | ok a v =>
    obtain rfl : v = u := by simpa [exec, execTbMerge, hm] using h
    obtain ⟨_, _, _, _, heap, rfl, -, -, -, hlen, -⟩ := merge_ok hm
    exact List.ne_nil_of_length_pos (show 0 < heap.length by omega)
  | raise e v => exact (merge_not_raise s e v hm).elim
  | fault f => simp [exec, execTbMerge, hm] at h
  | refused r => simp [exec, execTbMerge, hm] at h

/-- The extraction of the last entry takes the root; from an empty heap there is none. -/
theorem exec_heapExtractMin_last (h : exec .heapExtractMin s = .next u) (hl : ¬ 1 < s.heap.length) :
    ∃ x, s.heap = [x] ∧ u = { s with heap := [], ret := .node x } := by
  match hh : s.heap with
  | [] => simp [exec, execHeapExtractMin, heapExtractMin, hh] at h
  | [x] => exact ⟨x, rfl, by simpa [exec, execHeapExtractMin, heapExtractMin, hh, heapAfterMin, eq_comm] using h⟩
  | _ :: _ :: _ => simp [hh] at hl

theorem advance_root {x : Nat} (hp : u.phase = .cMerge) (hh : u.heap = []) (hr : u.ret = .node x) :
    advance u = { u with root := some x, phase := .cSer } := by
  simp only [advance, hp, hh, hr]

theorem allDone_iff : allDone u = true ↔ u.l.toNat ≤ u.outcnt := decide_eq_true_iff

theorem advance_body_transition (hp : u.phase = .cBody) : (advance u).err = u.err ∧
    (advance u).phase = if (advance u).outcnt < (advance u).l.toNat then .cBody else .cFin := by
  rw [advance_body hp]
  by_cases hd : allDone u = true
  · rw [if_pos hd]
    exact ⟨rfl, (if_neg (Nat.not_lt.mpr (allDone_iff.mp hd))).symm⟩
  · rw [if_neg hd]
    exact ⟨rfl, hp.trans (if_pos (Nat.lt_of_not_le (mt allDone_iff.mpr hd))).symm⟩

theorem advance_walk_transition (hp : u.phase = .dWalk) : (advance u).err = u.err ∧
    if (advance u).outcnt < (advance u).l.toNat then (advance u).phase = .dWalk
    else (advance u).phase = .done ∧ (advance u).result = (advance u).wrTotal := by
  rw [advance_walk hp]
  by_cases hd : allDone u = true
  · rw [if_pos hd, complete_outcnt, complete_l, if_neg (Nat.not_lt.mpr (allDone_iff.mp hd))]
    exact ⟨rfl, rfl, rfl⟩
  · rw [if_neg hd, if_pos (Nat.lt_of_not_le (mt allDone_iff.mpr hd))]
    exact ⟨rfl, hp⟩

theorem advance_length_transition (hp : u.phase = .dLen) : (advance u).err = u.err ∧
    if (advance u).l = 0#32 then (advance u).phase = .done ∧ (advance u).result = (advance u).wrTotal
    else (advance u).phase = .dTree := by
  by_cases h0 : u.l = 0#32
  · simp [advance, hp, lengthZero, h0]
  · simp [advance, hp, lengthZero, h0]

/-- `C_MERGE` merges while the heap has more than one entry, and then extracts the root (42_treebuilder.md R172). -/
theorem nextOp_merge (hp : s.phase = .cMerge) :
    nextOp s = some (if 1 < s.heap.length then .tbMerge else .heapExtractMin) := by
  rw [nextOp, hp]
  exact (apply_ite some _ _ _).symm

theorem advance_merge_transition (hp : u.phase = .cMerge) (he : u.err = s.err)
    (hx : exec (if 1 < s.heap.length then .tbMerge else .heapExtractMin) s = .next u) :
    (advance u).err = s.err ∧ if 1 < s.heap.length then (advance u).phase = .cMerge
    else (advance u).phase = .cSer ∧ (advance u).heap = [] ∧ (advance u).root.isSome ∧
      (advance u).root = s.heap.head? := by
  by_cases hl : 1 < s.heap.length
  · rw [if_pos hl] at hx ⊢
    rw [advance_merge hp (exec_tbMerge_heap hx hl)]
    exact ⟨he, hp⟩
  · rw [if_neg hl] at hx ⊢
    obtain ⟨x, hheap, rfl⟩ := exec_heapExtractMin_last hx hl
    rw [advance_root hp rfl rfl, hheap]
    exact ⟨he, rfl, rfl, rfl, rfl⟩

end

/-! ### ENC.BODY (45_encoder_decoder.md R208) -/

section
variable {s : State} {v : Byte}

theorem srcBytes_eq_nil (n : Nat) (h : s.src.length ≤ s.srcPos) : srcBytes s.srcPos n s = [] := by
  rw [srcBytes, List.drop_eq_nil_of_le h, List.take_nil]

/-- A read the host serves. -/
theorem srcRead_next (n : Nat) (hs : Serves s) : srcRead n s = .ok (srcBytes s.srcPos n s)
    { answered s with srcPos := s.srcPos + (srcBytes s.srcPos n s).length } := by
  obtain ⟨_, _, h, rfl, rfl⟩ := (srcRead_meets n s).served hs
  exact h

theorem codeSymbol_ended (hs : Serves s) (h : s.src.length ≤ s.srcPos) : codeSymbol s = .refused .sourceChanged := by
  rw [codeSymbol, srcRead_next 1 hs, Res.bind_ok, srcBytes_eq_nil 1 h]

theorem codeSymbol_noCode (hs : Serves s) (hv : s.src[s.srcPos]? = some v) (hc : s.code[v.toNat]? = some none) :
    codeSymbol s = .refused .sourceChanged := by
  rw [codeSymbol, srcRead_next 1 hs, Res.bind_ok, srcBytes_one hv]
  simp only [answered_code, hc]

theorem codeSymbol_next {p : List Bool} (hs : Serves s) (hw : s.wacc.length < Config.accCap)
    (hv : s.src[s.srcPos]? = some v) (hc : s.code[v.toNat]? = some (some p)) :
    ∃ t, codeSymbol s = .ok () t ∧ Appended p s t ∧ t.srcPos = s.srcPos + 1 ∧ t.outcnt = s.outcnt + 1 := by
  obtain ⟨hlt, rfl⟩ := List.getElem?_eq_some_iff.mp hv
  obtain ⟨_, t, h, -, he⟩ := (codeSymbol_meets s _ _ p hw (List.drop_eq_getElem_cons hlt) hc).served hs
  exact ⟨t, h, by rw [he]; exact afterWriting_appended p s, by rw [he], by rw [he]⟩

end

/-! ### DEC.LEN (45_encoder_decoder.md R212) -/

theorem lenOfBytes_toNat (b0 b1 b2 b3 : Byte) :
    (lenOfBytes b0 b1 b2 b3).toNat = b0.toNat + 2 ^ 8 * b1.toNat + 2 ^ 16 * b2.toNat + 2 ^ 24 * b3.toNat := by
  have h0 := b0.isLt
  have h1 := b1.isLt
  have h2 := b2.isLt
  have h3 := b3.isLt
  rw [lenOfBytes, BitVec.toNat_ofNat]
  omega

theorem readLength_cursor {s t : State} (hc : s.rdCursor ≤ s.racc.length) (h : readLength s = .ok () t) :
    t.rdCursor ≤ t.racc.length := by
  have hm := readLength_meets s hc
  rw [h, Res.meets_ok] at hm
  obtain ⟨u, hmoved, -, he⟩ := hm
  rw [he]
  exact hmoved.2.2

/-! ### DEC.WALK (45_encoder_decoder.md R214 to R216) -/

theorem walk_noTree {s : State} (h : s.root = none) : walk s = .refused .noTree := by
  simp only [walk, h]

theorem walk_eq {s : State} {x : Nat} (hr : s.root = some x) :
    walk s = (descend (bitsLeft s + 1) { s with cur := some x }).bind fun pv s =>
      (sinkWrite [pv.2] s).bind fun _ s =>
        .ok pv.1 { s with wrTotal := s.wrTotal + 1, outcnt := s.outcnt + 1 } := by
  unfold walk
  rw [hr]

/-- The descent from a leaf pops no bit. -/
theorem descend_leaf {s : State} {x w : Nat} {v : Byte} (fuel : Nat) (hc : s.cur = some x)
    (hx : s.node[x]? = some (.leaf v w)) : descend (fuel + 1) s = .ok ([], v) s := by
  simp only [descend, hc, hx]

/-- What a walk over a tree leaves where it ends with the bits of a code. -/
theorem walk_ok {s u : State} {x : Nat} {t : Tree} {q : List Bool} (hc : s.rdCursor ≤ s.racc.length)
    (hr : s.root = some x) (hx : Holds s.node x t) (h : walk s = .ok q u) :
    u.rdCursor ≤ u.racc.length ∧ u.wrTotal = s.wrTotal + 1 ∧ u.outcnt = s.outcnt + 1 ∧
      ∃ y v w, t.follow q = some (.leaf v) ∧ u.cur = some y ∧ s.node[y]? = some (.leaf v w) := by
  have hm := walk_meets s x t hc hr hx
  rw [h, Res.meets_ok] at hm
  obtain ⟨v, hq, -, ⟨y, w, hcur, hleaf⟩, m, hmoved, -, he⟩ := hm
  exact ⟨by rw [he]; exact hmoved.2.2, by rw [he], by rw [he], y, v, w, hq, hcur, hleaf⟩

/-- The walk where the root is a leaf: one write, whatever the reader holds. -/
theorem walk_leaf {s : State} {x w : Nat} {v : Byte} (hs : Serves s) (hr : s.root = some x)
    (hx : s.node[x]? = some (.leaf v w)) : walk s = .ok [] { answered s with
      cur := some x, sink := s.sink ++ [v], wrTotal := s.wrTotal + 1, outcnt := s.outcnt + 1 } := by
  obtain ⟨_, t, hwrite, rfl⟩ := (sinkWrite_meets [v] { s with cur := some x }).served hs
  rw [walk_eq hr, descend_leaf (s := { s with cur := some x }) _ rfl hx, Res.bind_ok, hwrite]
  rfl

end Machine

open Machine

/-- Settles O54: the run is `compress_runs`; the leaves of the tree are the symbols that occur, each once. -/
theorem compressWritesTheContainer : Obligations.CompressWritesTheContainer := by
  intro s hu hp hl
  obtain ⟨u, t, hx, hr, hdone, herr, bytes, hsink, hres, hempty, hfull⟩ := compress_runs hu hp hl
  refine ⟨u, t, bytes, hx, hr, hdone, herr, hsink, hres, fun h0 => (hempty h0).trans packed_wordBits_zero,
    fun h0 => ?_⟩
  obtain ⟨tree, hlegal, hperm, hbytes⟩ := hfull h0
  exact ⟨tree, hlegal, hperm.nodup_iff.mpr (symbols_nodup _),
    fun v => hperm.mem_iff.trans mem_symbols_occurrences, hbytes⟩

/-- Settles O55: the run ends as `decompress_ends` says, and a stream decodes or fails in one way only
(`Decodes.unique`, `Fails.unique`, `Fails.not_decodes`). -/
theorem decompressDecodesTheStream : Obligations.DecompressDecodesTheStream := by
  intro s hu hp
  obtain ⟨t, hr, ⟨hdone, herr, out, hdec, hsink, hres⟩ | ⟨herror, habort | ⟨out, e, hfail, herr, hsink, hres⟩⟩⟩ :=
    decompress_ends (Q := fun t => ∃ out, Decodes (bytesBits s.src) out ∧ t.sink = s.sink ++ out ∧
      t.result = out.length) s hu.1 fun out v hdec hsink hres => ⟨out, hdec, hsink, hres⟩
  · refine ⟨_, t, exec_decompress_accepted hp, hr, fun out' h => ?_, fun out' e h => (h.not_decodes out hdec).elim,
      fun h => (h out hdec).elim⟩
    rw [h.unique hdec]
    exact ⟨hdone, herr, hsink, hres⟩
  · exact (habort.not_serves hu.2).elim
  · refine ⟨_, t, exec_decompress_accepted hp, hr, fun out' h => (hfail.not_decodes out' h).elim, fun out' e' h => ?_,
      fun _ => ⟨out, e, hfail⟩⟩
    obtain ⟨rfl, rfl⟩ := h.unique hfail
    exact ⟨herror, herr, hsink, hres⟩

/-- Settles O56: a container decodes to its input whatever the tree and the bytes after it (`container_decodes`). -/
theorem anyTreeDecompresses : Obligations.AnyTreeDecompresses := by
  intro s tree input after hu hp hz hl hv hsrc
  obtain ⟨u, t, hx, hr, hdecodes, -⟩ := decompressDecodesTheStream s hu hp
  have hdec := container_decodes tree input after hz (lt_of_fits_length hl) hv
  exact ⟨u, t, hx, hr, hdecodes input (hsrc ▸ hdec)⟩

/-- Settles O57: what COMPRESS wrote decodes to the source (`Compressed.decodes`). -/
theorem roundTrip : Obligations.RoundTrip := by
  intro s r hus hur hps hpr hl hk
  obtain ⟨u, t, hx, hr, hdone, -, hcomp⟩ := compress_runs hus hps hl
  have hdec := hcomp.decodes hk (lt_of_fits_length hl)
  obtain ⟨bytes, hsink, hres, -⟩ := hcomp
  rw [hk, List.nil_append] at hsink
  refine ⟨u, t, hx, hr, hdone, hsink ▸ hres, fun hsrc => ?_⟩
  obtain ⟨v, w, hy, hrun, hdecodes, -⟩ := decompressDecodesTheStream r hur hpr
  obtain ⟨hw, -, hwsink, hwres⟩ := hdecodes s.src (hsrc ▸ hdec)
  exact ⟨v, w, hy, hrun, hw, hwsink, hwres⟩

/-- Settles O58: both commands end (`compress_ends`, `decompress_ends`), and a run that has ended never stops
(`safeRun_of_ended`). -/
theorem everyCommandEnds : Obligations.EveryCommandEnds := by
  intro s hs hp
  refine ⟨fun hl => ?_, ?_⟩
  · obtain ⟨t, hr, hend⟩ := compress_ends_compressed hs (lt_of_fits_length hl)
    refine ⟨_, t, exec_compress_accepted hp hl, hr, safeRun_of_ended hs hr (hend.imp And.left And.left), ?_⟩
    exact hend.imp (fun ⟨hdone, herr, _⟩ => ⟨hdone, herr⟩) id
  · obtain ⟨t, hr, hend⟩ := decompress_ends (Q := fun _ => True) s hs fun _ _ _ _ _ => trivial
    refine ⟨_, t, exec_decompress_accepted hp, hr, safeRun_of_ended hs hr (hend.imp And.left And.left), ?_⟩
    rcases hend with ⟨hdone, herr, -⟩ | ⟨herror, habort | ⟨out, e, hfail, herr, -⟩⟩
    · exact .inl ⟨hdone, herr⟩
    · exact .inr (.inr ⟨herror, habort⟩)
    · rw [herr, Option.some_inj, Option.some_inj]
      exact .inr (.inl ⟨herror, hfail.err⟩)

/-- Settles O9, phase by phase: what the step is (`step_busy_cases`), and the transition of its phase. -/
theorem sequencerTransitions : Obligations.SequencerTransitions := by
  intro s t hs hb h
  rcases step_busy_cases hs hb h with ⟨e, u, rfl⟩ | ⟨u, rfl, hp, he, hrun⟩
  · exact .inl ⟨rfl, rfl, rfl⟩
  cases hphase : s.phase with
  | idle => simp [busy, hphase, Phase.code] at hb
  | cFreq =>
    simp only [advance, hp, hphase]
    exact .inr ⟨he, trivial, trivial⟩
  | cLen =>
    simp only [advance, hp, hphase, lengthZero, decide_eq_true_eq]
    exact .inr ⟨he, trivial⟩
  | cLeaves =>
    simp only [advance, hp, hphase]
    exact .inr ⟨he, trivial⟩
  | cMerge =>
    rw [nextOp_merge hphase] at hrun
    obtain ⟨hn, -⟩ | ⟨i, hi, hx⟩ := hrun
    · cases hn
    · cases hi
      exact .inr (advance_merge_transition (hp.trans hphase) he hx)
  | cSer =>
    simp only [advance, hp, hphase]
    exact .inr ⟨he, trivial⟩
  | cCodes =>
    rcases startBody_cases u with h | h
    · simp only [advance, hp, hphase, h]
      exact .inl ⟨rfl, rfl, rfl⟩
    · simp only [advance, hp, hphase, h]
      exact .inr ⟨he, trivial, trivial, trivial⟩
  | cBody => exact .inr (he ▸ advance_body_transition (hp.trans hphase))
  | cFin =>
    simp only [advance, hp, hphase]
    exact .inr ⟨he, rfl, rfl⟩
  | dLen => exact .inr (he ▸ advance_length_transition (hp.trans hphase))
  | dTree =>
    simp only [advance, hp, hphase]
    exact .inr ⟨he, trivial, trivial⟩
  | dWalk => exact .inr (he ▸ advance_walk_transition (hp.trans hphase))
  | done => simp [busy, hphase, Phase.code] at hb
  | error => simp [busy, hphase, Phase.code] at hb

/-- Settles O40: the code is written by `codeSymbol_next`; a source that ended is `codeSymbol_ended`, a symbol without a
code `codeSymbol_noCode`. -/
theorem encodeSymbol : Obligations.EncodeSymbol := by
  refine fun s hs hw => ⟨fun v p hv hc => ?_, fun h => congrArg Res.outcome (codeSymbol_ended hs h),
    fun v hv hc => congrArg Res.outcome (codeSymbol_noCode hs hv hc)⟩
  obtain ⟨t, hok, happ, hpos, hcnt⟩ := codeSymbol_next hs hw hv hc
  exact ⟨t, congrArg Res.outcome hok, happ, hpos, hcnt, (codeSymbol_only s).of_ok hok⟩

/-- Settles O41: the four bytes are the bits of the length they make (`wordBits_lenOfBytes`, `readLength_next`), and
with fewer than 32 bits it is `readLength_ended`. -/
theorem decodeLength : Obligations.DecodeLength := by
  refine fun s hs hc => ⟨fun b0 b1 b2 b3 rest hu => ?_, fun hu => ?_⟩
  · rw [← wordBits_lenOfBytes] at hu
    obtain ⟨t, hok, hl, hrest⟩ := readLength_next hs hc hu
    exact ⟨t, congrArg Res.outcome hok, hrest, readLength_cursor hc hok, hl ▸ lenOfBytes_toNat b0 b1 b2 b3,
      (readLength_only s).of_ok hok⟩
  · obtain ⟨t, hraise, hend⟩ := readLength_ended hs hc hu
    exact ⟨t, congrArg Res.outcome hraise, hend, (readLength_only s).of_raise hraise⟩

/-- Settles O42: a code walked is `walk_next` with what `walk_ok` says of the state left; bits that begin with no code
are `walk_ended`, and without a tree it is `walk_noTree`. -/
theorem decodeSymbol : Obligations.DecodeSymbol := by
  refine ⟨fun s x t hs hc hr hx => ⟨fun p rest v hp hu => ?_, fun hno => ?_⟩,
    fun s h => congrArg Res.outcome (walk_noTree h)⟩
  · obtain ⟨u, hok, hsink, hrest⟩ := walk_next hs hc hr hx hp hu
    obtain ⟨hcursor, htotal, hcnt, y, v', w, hp', hcur, hleaf⟩ := walk_ok hc hr hx hok
    obtain rfl := Tree.leaf.inj (Option.some.inj (hp.symm.trans hp'))
    exact ⟨u, congrArg Res.outcome hok, hrest, hcursor, hsink, htotal, hcnt, ⟨y, w, hcur, hleaf⟩,
      (walk_only s).of_ok hok⟩
  · obtain ⟨u, hraise, hend, honly⟩ := walk_ended hs hc hr hx hno
    exact ⟨u, congrArg Res.outcome hraise, hend, honly⟩

/-- Settles O43: the walk of a leaf is `walk_leaf`. -/
theorem degenerateWalk : Obligations.DegenerateWalk := fun s _ _ _ hs hr hx =>
  ⟨_, tail_suffix s, congrArg Res.outcome (walk_leaf hs hr hx)⟩

end Sys2Proof
end

section
/-! PROOFS. The family of 60_exceptions.md: what an abort leaves, and what no operation but an abort does to the host's
view of the run. -/

namespace Sys2Proof.Machine

/-! ### What the host sees of the run (60_exceptions.md R243, R245) -/

/-- Settles O47, from what an instruction does to what the host sees; a core that is not busy is in one of the three
waiting phases. -/
theorem onlyAbortsEnd : Obligations.OnlyAbortsEnd := by
  intro i s t e
  rcases exec_sameOrAborted_or_accepted e with h | ⟨hb, h⟩
  · exact .inl h
  · exact .inr ⟨h, (busy_eq_false s).mp hb⟩

/-! ### The operations that store nothing to SINK -/

/-- An instruction that is no command leaves what the host sees of the run, or aborts. -/
theorem exec_sameOrAborted {i : Instr} {s t : State} (e : exec i s = .next t) (hc : i ≠ .compress)
    (hd : i ≠ .decompress) : SameOrAborted s t := by
  rcases exec_sameOrAborted_or_accepted e with h | ⟨-, ⟨h, -⟩ | ⟨h, -⟩⟩
  · exact h
  · exact (hc h).elim
  · exact (hd h).elim

/-- What FrameOfNonStoring says of a step that may write the fields `fs`. -/
def NonStoringFrame (fs : List Field) (s t : State) : Prop :=
  Only ([.phase, .err, .result] ++ fs) s t ∧ SameOrAborted s t ∧ ∀ a, sinkByte a t = sinkByte a s

/-- An instruction that is an operation of the core, no command, has the frame of the operation: its fields, and SINK
where it is none of them. -/
theorem NonStoringFrame.of_outcome {α : Type} {i : Instr} {x : Res α} {fs : List Field} {s t : State}
    (e : exec i s = .next t) (hw : x.Within fs s) (hx : exec i s = x.outcome) (hk : .sink ∉ fs) (hc : i ≠ .compress)
    (hd : i ≠ .decompress) : NonStoringFrame fs s t := by
  have ho := hw.outcome_only (hx ▸ e)
  have hsink : t.sink = s.sink := ho .sink (by simpa using hk)
  exact ⟨ho, exec_sameOrAborted e hc hd, fun a => congrArg (fun bytes => bytes[a]?) hsink⟩

/-- The result of an operation is kept as the last result (log entry 18). -/
theorem Res.Within.keepRet {α : Type} {x : Res α} {fs : List Field} {s : State} (h : x.Within fs s) (f : α → Ret) :
    (x.bind fun a t => .ok () { t with ret := f a }).Within (fs ++ [.ret]) s :=
  (h.mono (List.subset_append_left _ _)).bind fun a t => (setRet_only (f a) t).mono (List.subset_append_right _ _)

/-- Settles O49, one operation at a time: its fields (`_only`), among which SINK is not. -/
theorem frameOfNonStoring : Obligations.FrameOfNonStoring := by
  intro i fs s t h e
  change NonStoringFrame fs s t
  rcases h with ⟨a, rfl, rfl | ⟨b, rfl⟩⟩ | ⟨rfl, a, rfl | ⟨n, rfl⟩⟩ | ⟨rfl, rfl⟩ | ⟨rfl, rfl | rfl⟩ | ⟨rfl, rfl⟩ |
    ⟨rfl, x, rfl⟩ | ⟨rfl, rfl⟩ | ⟨rfl, rfl⟩ | ⟨rfl, rfl⟩ | ⟨rfl, rfl⟩ | ⟨rfl, rfl⟩ | ⟨rfl, rfl⟩ |
    ⟨rfl, rfl | ⟨hp, l, rfl⟩⟩ | ⟨rfl, hp, rfl | ⟨v, rfl⟩⟩ | ⟨rfl, hp, z, rfl⟩
  · exact .of_outcome (x := .ok () (accClear a s)) e (setAcc_only a [] s) rfl (by cases a <;> decide) nofun nofun
  · exact .of_outcome e (accPushBit_only a b s) rfl (by cases a <;> decide) nofun nofun
  · exact .of_outcome (x := .ok () _) e (setRet_only (.bit (isFull a s)) s) rfl (by decide) nofun nofun
  · exact .of_outcome e ((accBitAt_only (fs := []) a n s).keepRet .bit) rfl (by decide) nofun nofun
  · exact .of_outcome e (refill_only s) rfl (by decide) nofun nofun
  · exact .of_outcome e ((popBit_only s).keepRet .bit) rfl (by decide) nofun nofun
  · exact .of_outcome e ((popByte_only s).keepRet .byte) rfl (by decide) nofun nofun
  · exact .of_outcome e (scan_only s) rfl (by decide) nofun nofun
  · exact .of_outcome e (heapInsert_only x s) rfl (by decide) nofun nofun
  · exact .of_outcome e ((heapExtractMin_only s).keepRet .node) rfl (by decide) nofun nofun
  · exact .of_outcome e (leaves_only s) rfl (by decide) nofun nofun
  · exact .of_outcome e (merge_only s) rfl (by decide) nofun nofun
  · exact .of_outcome e (build_only s) rfl (by decide) nofun nofun
  · exact .of_outcome e (deserialize_only s) rfl (by decide) nofun nofun
  · exact .of_outcome e (derive_only s) rfl (by decide) nofun nofun
  · exact .of_outcome e (readLength_only s) rfl (by decide) nofun nofun
  · exact .of_outcome e (readLenToken_only l s) (exec_len_reads hp l) (by decide) nofun nofun
  · exact .of_outcome e (readNodeToken_only none s) (exec_nodeToken_reads hp none) (by decide) nofun nofun
  · exact .of_outcome e (readNodeToken_only (some v) s) (exec_nodeToken_reads hp (some v)) (by decide) nofun nofun
  · exact .of_outcome (x := .ok () s) e (Only.refl [] s) (exec_pad_reading hp z) (by decide) nofun nofun

/-! ### The transfer the host fails (60_exceptions.md R237) -/

section
variable {s : State} {r : List Byte} {ds : List HostDraw} (hd : s.draws = .fails r :: ds)
include hd

theorem answered_fails : answered s = { s with draws := ds } := by rw [answered, hd, List.tail_cons]

theorem srcRead_fails (n : Nat) : srcRead n s = .raise .ioError { s with draws := ds } := by
  simp only [srcRead, memRead, hostFails_cons hd, Res.bind_raise, answered_fails hd]

theorem sinkWrite_fails (v : List Byte) :
    sinkWrite v s = .raise .ioError { s with sink := s.sink ++ r, draws := ds } := by
  simp only [sinkWrite, hostFails_cons hd, answered_fails hd]

/-- ENC.BODY whose read fails has done nothing. -/
theorem codeSymbol_unread : codeSymbol s = .raise .ioError { s with draws := ds } := by
  rw [codeSymbol, srcRead_fails hd, Res.bind_raise]

theorem startBody_fails : startBody s = abort .ioError { s with draws := ds } := by
  simp only [startBody, hostFails_cons hd, answered_fails hd]

end

section
variable {s : State} {r : List Byte} {ds : List HostDraw} {m : Nat}
  (hd : s.draws = List.replicate m .serves ++ .fails r :: ds)
include hd

/-- FREQ.SCAN has counted the `m` bytes it read (41_frequency.md R151). -/
theorem scan_fails (hm : m ≤ (s.src.drop s.srcPos).length) (hlt : m < 2 ^ Config.lenW) :
    scan s = .raise .ioError { s with
      draws := ds, freq := counted (List.replicate Config.nsym 0) ((s.src.drop s.srcPos).take m), total := m,
      srcPos := s.srcPos + m } := by
  have hfuel : m < s.src.length - s.srcPos + 1 := by rw [List.length_drop] at hm; omega
  rw [scan, freqLoop_fails m (s := { s with freq := List.replicate Config.nsym 0, total := 0 }) hfuel hd hm
    (by simpa using hlt)]
  simp only [Nat.zero_add]

end

/-! ### The reader where the host fails a refill (40_bitchannel.md R137)

What the reader does before the failed transfer is what it does over the source cut there (`Res.Uncut`), where its laws
for a host that serves every transfer hold. -/

theorem bitsServed_length (m : Nat) (s : State) :
    (bitsServed m s).length = s.racc.length - s.rdCursor + 8 * min (8 * m) (s.src.length - s.srcPos) := by
  simp only [bitsServed, List.length_append, bytesBits_length, List.length_take, List.length_drop, Config.refillBytes,
    Config.accCap]

theorem unread_length (s : State) :
    (unread s).length = s.racc.length - s.rdCursor + 8 * (s.src.length - s.srcPos) := by
  simp only [unread, List.length_append, bytesBits_length, List.length_drop]

/-- After the last refill what is unread is in `RACC`. -/
theorem Cut.unread_length {src : List Byte} {bits : List Bool} {pos m : Nat} {u : State} (h : Cut src bits pos m 0 u) :
    (unread u).length = u.racc.length - u.rdCursor := by
  have hplace := h.place
  have hroom := h.room
  rw [List.length_take, List.length_drop] at hplace
  rw [List.length_drop] at hroom
  rw [Machine.unread_length, h.source, List.length_take]
  omega

section
variable {s : State} {m : Nat}

/-- A run that has consumed more than the refills before the last one give has made the last one too. -/
theorem Cut.refills_done {j : Nat} {u : State} {p : List Bool} (h : Cut s.src s.racc s.srcPos m j u)
    (hu : bitsServed m s = p ++ unread u) (hp : m ≠ 0 → (bitsServed (m - 1) s).length < p.length) : j = 0 := by
  by_contra hj
  have hle := h.le
  have hplace := h.place
  have hroom := h.room
  have hlen := congrArg List.length hu
  have hlt := hp (by omega)
  rw [List.length_take, List.length_drop] at hplace
  rw [List.length_drop] at hroom
  rw [List.length_append, bitsServed_length, Machine.unread_length, h.source, List.length_take] at hlen
  rw [bitsServed_length] at hlt
  omega

variable {r : List Byte} {ds : List HostDraw}

/-- What the failed transfer leaves where the run has made all its refills: what is left in `RACC`, and the fields of the
operation that reads. -/
theorem Cut.stopped_of_only {u : State} (h : Cut s.src s.racc s.srcPos m 0 u)
    (ho : Only [.racc, .rdCursor, .srcPos, .draws, .node, .stk, .cur] (cut m s) u) :
    { u with src := s.src, draws := ds } =
      { stoppedReading m (unread u).length ds s with node := u.node, stk := u.stk, cur := u.cur } := by
  obtain ⟨hracc, hpos⟩ := h.ended
  have hcursor : u.rdCursor = (raccServed m s).length - (unread u).length := by
    have := h.cursor
    rw [h.unread_length, ← hracc]
    omega
  simp only [stoppedReading, State.mk.injEq, true_and]
  exact ⟨ho .phase (by decide), ho .err (by decide), ho .result (by decide), ho .l (by decide), ho .total (by decide),
    ho .n (by decide), ho .root (by decide), ho .outcnt (by decide), hpos, ho .wrTotal (by decide),
    ho .freq (by decide), ho .heap (by decide), ho .code (by decide), ho .wacc (by decide), hracc, hcursor,
    ho .sink (by decide), ho .script (by decide), ho .ret (by decide)⟩

/-- What a descent over the cut source leaves where it has made all its refills. -/
theorem Cut.stopped_descending {u : State} {x y : Nat} (h : Cut s.src s.racc s.srcPos m 0 u)
    (ho : Only [.racc, .rdCursor, .srcPos, .draws, .cur] { cut m s with cur := some x } u) (hcur : u.cur = some y) :
    { u with src := s.src, draws := ds } = { stoppedReading m (unread u).length ds s with cur := some y } := by
  have hset : Only [.racc, .rdCursor, .srcPos, .draws, .cur] (cut m s) { cut m s with cur := some x } :=
    (setCur_only (some x) (cut m s)).mono (by simp)
  have hall := hset.trans ho
  have hnode : u.node = s.node := hall .node (by decide)
  have hstk : u.stk = s.stk := hall .stk (by decide)
  rw [h.stopped_of_only (hall.mono (by simp)), hnode, hstk, hcur]
  rfl

/-- The descent over the cut source, whose host serves every transfer, ends at a leaf or for want of a bit. -/
theorem descend_cut_meets {x : Nat} {t : Tree} (hc : s.rdCursor ≤ s.racc.length) (hx : Holds s.node x t) :
    (descend (bitsLeft s + 1) { cut m s with cur := some x }).Meets
      (fun pv u => t.follow pv.1 = some (.leaf pv.2) ∧ bitsServed m s = pv.1 ++ unread u ∧
        ∃ y w, u.cur = some y ∧ s.node[y]? = some (.leaf pv.2 w))
      (fun e u => e = .endOfInput ∧ (∀ p v, t.follow p = some (.leaf v) → ¬ p <+: bitsServed m s) ∧
        ∃ y w l r, u.cur = some y ∧ s.node[y]? = some (.internal w l r)) := by
  have hu : unread { cut m s with cur := some x } = bitsServed m s := unread_cut s
  have hfuel : (unread { cut m s with cur := some x }).length < bitsLeft s + 1 := by
    rw [hu, bitsServed_length, bitsLeft]
    omega
  refine (descend_meets (bitsLeft s + 1) { cut m s with cur := some x } x t hc rfl hx hfuel).mono
    (fun pv u ⟨hp, hrest, hleaf, _⟩ => ⟨hp, hu ▸ hrest, hleaf⟩) fun e u hfault => ?_
  rcases hfault with hf | ⟨he, hno, -, -, hint⟩
  · exact (HostFault.not_serves (t := u) (serves_cut s) hf).elim
  · exact ⟨he, hu ▸ hno, hint⟩

variable {α : Type} {x x' : Res α}

/-- Where the cut run ends for want of a bit, the run meets the failed transfer. -/
theorem Res.Uncut.raised {u : State} (h : x.Uncut s.src s.racc s.srcPos m r ds x') (hx : x' = .raise .endOfInput u) :
    x = .raise .ioError { u with src := s.src, draws := ds } ∧ Cut s.src s.racc s.srcPos m 0 u ∧
      (unread u).length = 0 := by
  subst hx
  simp only [Res.Uncut, if_true] at h
  obtain ⟨hraise, hcut, he⟩ := h
  exact ⟨hraise, hcut, by rw [hcut.unread_length, he, Nat.sub_self]⟩

/-- A read of more bits than the refills give has consumed them all. -/
theorem Res.Uncut.short {k : Nat} {Q : α → State → Prop} (h : x.Uncut s.src s.racc s.srcPos m r ds x')
    (hx : x'.Meets Q (ReadFault k (cut m s))) (hQ : ∀ a u, ¬ Q a u) :
    x = .raise .ioError (stoppedReading m 0 ds s) := by
  rcases hx.cases with ⟨a, u, -, ha⟩ | ⟨e, u, hraise, hf | ⟨rfl, -, hmoved, -⟩⟩
  · exact (hQ a u ha).elim
  · exact (hf.not_serves (serves_cut s)).elim
  · obtain ⟨rfl, hcut, hu⟩ := h.raised hraise
    rw [hcut.stopped hmoved, ← hcut.unread_length, hu]

end

section
variable {s : State} {r : List Byte} {ds : List HostDraw} {m : Nat}
  (hd : s.draws = List.replicate m .serves ++ .fails r :: ds) (hc : s.rdCursor ≤ s.racc.length)
  (hm : 8 * m < (s.src.drop s.srcPos).length + 8)
include hd hc hm

theorem popBit_stops (hu : bitsServed m s = []) : popBit s = .raise .ioError (stoppedReading m 0 ds s) := by
  have h := popBit_uncut (r := r) (ds := ds) (cut_start hc hm)
  rw [uncut_cut hd] at h
  refine h.short (popBit_meets (cut m s) hc) fun b u ⟨_, hb⟩ => ?_
  rw [unread_cut, hu] at hb
  exact List.cons_ne_nil _ _ hb.symm

theorem popByte_stops (hu : (bitsServed m s).length < 8) :
    popByte s = .raise .ioError (stoppedReading m 0 ds s) := by
  have h := popByte_uncut (r := r) (ds := ds) (cut_start hc hm)
  rw [uncut_cut hd] at h
  refine h.short (popByte_meets (cut m s) hc) fun v u ⟨_, hv⟩ => ?_
  rw [← unread_cut, hv, List.length_append, byteBits_length] at hu
  omega

theorem readLength_stops (hu : (bitsServed m s).length < 32) :
    readLength s = .raise .ioError (stoppedReading m 0 ds s) := by
  have h := readLength_uncut (r := r) (ds := ds) (cut_start hc hm)
  rw [uncut_cut hd] at h
  refine h.short (readLength_meets (cut m s) hc) fun _ u ⟨w, _, hl, _⟩ => ?_
  rw [← unread_cut, hl, List.length_append, wordBits_length] at hu
  omega

/-- TC.DESERIALIZE keeps the nodes it has made and the stack (log entry 17). -/
theorem deserialize_stops (hno : ∀ t : Tree, t.size ≤ Config.nodeCap → ¬ t.bits <+: bitsServed m s)
    (hover : ¬ Overflows (bitsServed m s)) :
    ∃ nodes stk, deserialize s =
      .raise .ioError { stoppedReading m 0 ds s with node := nodes, stk := stk } := by
  have h := deserialize_uncut (r := r) (ds := ds) (cut_start hc hm)
  rw [uncut_cut hd] at h
  rw [← unread_cut] at hno hover
  obtain ⟨u, hraise, -⟩ := deserialize_ended (serves_cut s) hc hno hover
  obtain ⟨hstop, hcut, hu⟩ := h.raised hraise
  have ho := deserialize_raise_only hraise
  have hcur : u.cur = s.cur := ho .cur (by decide)
  rw [hcut.stopped_of_only (ho.mono (by simp)), hu, hcur] at hstop
  exact ⟨u.node, u.stk, hstop⟩

/-! ### DEC.WALK (45_encoder_decoder.md R214) -/

/-- The descent from `ROOT` against the descent over the source cut at the failed transfer. -/
theorem descend_uncut_start (x : Nat) :
    (descend (bitsLeft s + 1) { s with cur := some x }).Uncut s.src s.racc s.srcPos m r ds
      (descend (bitsLeft s + 1) { cut m s with cur := some x }) := by
  have h := descend_uncut (r := r) (ds := ds) (bitsLeft s + 1) (t := { cut m s with cur := some x })
    ((cut_start hc hm).congr rfl rfl rfl rfl rfl)
  have hs : uncut s.src r ds { cut m s with cur := some x } = { s with cur := some x } := by
    simp only [uncut, cut, ← hd]
  rwa [hs] at h

variable {x : Nat} {t : Tree} (hr : s.root = some x) (hx : Holds s.node x t)
include hr hx

/-- A walk that wants more bits than the refills give. -/
theorem walk_stops (hno : ∀ p v, t.follow p = some (.leaf v) → ¬ p <+: bitsServed m s) :
    ∃ y, (∃ w l r, s.node[y]? = some (.internal w l r)) ∧
      walk s = .raise .ioError { stoppedReading m 0 ds s with cur := some y } := by
  rcases (descend_cut_meets hc hx (m := m)).cases with ⟨pv, u, -, hp, hu, -⟩ |
    ⟨e, u, hraise, rfl, -, y, w, a, b, hcur, hy⟩
  · exact (hno pv.1 pv.2 hp ⟨unread u, hu.symm⟩).elim
  · obtain ⟨hstop, hcut, hu⟩ := (descend_uncut_start hd hc hm x).raised hraise
    rw [hcut.stopped_descending ((descend_only _ _).of_raise hraise) hcur, hu] at hstop
    exact ⟨y, ⟨w, a, b, hy⟩, by rw [walk_eq hr, hstop, Res.bind_raise]⟩

/-- A walk that has consumed the code of a symbol, and with it a bit of the last refill, and whose write the host
fails. -/
theorem walk_unwritten {p : List Bool} {v : Byte} (hp : t.follow p = some (.leaf v)) (hpre : p <+: bitsServed m s)
    (hlast : m ≠ 0 → (bitsServed (m - 1) s).length < p.length) :
    ∃ y w, s.node[y]? = some (.leaf v w) ∧ walk s = .raise .ioError
      { stoppedReading m ((bitsServed m s).length - p.length) ds s with cur := some y, sink := s.sink ++ r } := by
  rcases (descend_cut_meets hc hx (m := m)).cases with ⟨⟨q, v'⟩, u, hok, hq, hu, y, w, hcur, hy⟩ |
    ⟨e, u, -, -, hno, -⟩
  · obtain ⟨a, ha⟩ := hpre
    obtain ⟨rfl, rfl⟩ := Tree.follow_unique hp hq (ha.trans hu)
    have h := descend_uncut_start hd hc hm x
    rw [hok] at h
    obtain ⟨hrun, j, hcut⟩ := h
    obtain rfl := hcut.refills_done hu hlast
    have hleft : (unread u).length = (bitsServed m s).length - p.length := by
      rw [hu, List.length_append, Nat.add_sub_cancel_left]
    have hstop := hcut.stopped_descending (ds := ds) ((descend_only _ _).of_ok hok) hcur
    rw [hleft] at hstop
    have hdraws : (uncut s.src r ds u).draws = .fails r :: ds := by simp only [uncut, hcut.draws]; rfl
    refine ⟨y, w, hy, ?_⟩
    rw [walk_eq hr, hrun, Res.bind_ok, sinkWrite_fails hdraws, Res.bind_raise]
    exact congrArg (fun z : State => Res.raise .ioError { z with sink := z.sink ++ r }) hstop
  · exact (hno p v hp hpre).elim

end

/-- Settles O46: the first transfer failed (`codeSymbol_unread`, `startBody_fails`), the reads of FREQ.SCAN (`scan_fails`),
and the reader's operations by what they do over the source cut at the failed transfer. -/
theorem hostFailureAborts : Obligations.HostFailureAborts := by
  refine ⟨fun s r ds hd => ⟨congrArg Res.outcome (codeSymbol_unread hd), fun hp => ?_⟩,
    fun s r ds m hd => ⟨fun hm hlt => ?_, fun hc hm => ⟨fun hu => ?_, fun hu => ?_, fun hu => ?_, fun hno hover => ?_,
      fun x t hr hx => ⟨fun hno => ?_, fun p v hp hpre hlast => ?_⟩⟩⟩⟩
  · rw [advance, hp]
    exact startBody_fails hd
  · exact ⟨_, scanned_length _, scanned_getElem? _, congrArg Res.outcome (scan_fails hd hm hlt)⟩
  · exact congrArg (Res.outcomeRet .bit) (popBit_stops hd hc hm hu)
  · exact congrArg (Res.outcomeRet .byte) (popByte_stops hd hc hm hu)
  · exact congrArg Res.outcome (readLength_stops hd hc hm hu)
  · obtain ⟨nodes, stk, h⟩ := deserialize_stops hd hc hm hno hover
    exact ⟨nodes, stk, congrArg Res.outcome h⟩
  · obtain ⟨y, hy, h⟩ := walk_stops hd hc hm hr hx hno
    exact ⟨y, hy, congrArg Res.outcome h⟩
  · obtain ⟨y, w, hy, h⟩ := walk_unwritten hd hc hm hr hx hp hpre hlast
    exact ⟨y, w, hy, congrArg Res.outcome h⟩

end Sys2Proof.Machine
end

section
/-! PROOFS. The family of 70_reset_and_hazards.md: the hardware reset, and the lines with which the outside world acts on
the machine. -/

namespace Sys2Proof.Machine

/-! ### The state after reset (70_reset_and_hazards.md R265) -/

/-- The reset state is the hardware reset of a core to which nothing has happened. -/
theorem hardReset_reset : hardReset State.reset = State.reset := rfl

theorem statusReg_hardReset (s : State) : statusReg (hardReset s) = 0#5 := rfl

/-- In the phases in which the core waits, a step in which the host does nothing changes nothing. -/
theorem step_waiting {s : State} (hs : s.script = []) (h : s.phase = .idle ∨ s.phase = .done ∨ s.phase = .error) :
    step s = .next s := by
  rw [step_wait hs (nextOp_waiting h), advance_waiting h]

/-- Settles O11: either state is a hardware reset, whose fields are read one by one (`hardReset_phase` and the lemmas
after it), and it is in a waiting phase (`step_waiting`). -/
theorem hardwareReset : Obligations.HardwareReset := by
  intro s t h
  obtain ⟨u, rfl⟩ : ∃ u, t = hardReset u := by
    rcases h with rfl | rfl
    · exact ⟨State.reset, hardReset_reset.symm⟩
    · exact ⟨s, rfl⟩
  have waits : (hardReset u).script = [] → step (hardReset u) = .next (hardReset u) :=
    fun hs => step_waiting hs (.inl (hardReset_phase u))
  simpa [statusReg_hardReset] using waits

/-! ### The reset line and the bind line (70_reset_and_hazards.md R268, R270) -/

theorem step_reset {s : State} {rest : List Line} (hs : s.script = .reset :: rest) :
    step s = .next (hardReset { s with script := rest }) := by
  simp only [step, fetch, hs]

theorem step_bind_accepted {s : State} {src sink : List Byte} {rest : List Line}
    (hs : s.script = .bind src sink :: rest) (hb : busy s = false) :
    step s = .next { s with script := rest, src := src, sink := sink } := by
  have hb' : busy { s with script := rest } = false := hb
  simp only [step, fetch, hs, fetchBind, hb', Bool.false_eq_true, if_false]

/-- The host does not bind during a command (93_implementation_defined.md U11). -/
theorem step_bind_busy {s : State} {src sink : List Byte} {rest : List Line}
    (hs : s.script = .bind src sink :: rest) (hb : busy s = true) : step s = .refused .bindWhileBusy := by
  have hb' : busy { s with script := rest } = true := hb
  simp only [step, fetch, hs, fetchBind, hb', if_true]

/-- A core in none of the three waiting phases is busy. -/
theorem busy_of_not_waiting {s : State} (hi : s.phase ≠ .idle) (hd : s.phase ≠ .done) (he : s.phase ≠ .error) :
    busy s = true :=
  Bool.eq_true_of_not_eq_false fun hb => by simpa [hi, hd, he] using (busy_eq_false s).mp hb

/-- Settles O59, line by line (`step_reset`, `step_bind_accepted`, `step_bind_busy`). -/
theorem resetAndBindLines : Obligations.ResetAndBindLines := by
  intro s rest
  refine ⟨fun hs => ⟨step_reset hs, rfl⟩, fun src sink hs => ⟨fun hp => ?_, fun hi hd he => ?_⟩⟩
  · exact step_bind_accepted hs ((busy_eq_false s).mpr hp)
  · exact step_bind_busy hs (busy_of_not_waiting hi hd he)

end Sys2Proof.Machine
end
